-- ==== Sys2Proof/Word.lean ====
section
/-! DEFINITION. The value types of the block (spec/10_state.md section 1, spec/00_scope.md R4, R6):
signs, decimal words, 7-bit characters, 16-bit cells, texts and card rows, with the constants of R4. -/

namespace Sys2Proof

/-- The two signs of a word (00_scope.md R6). -/
inductive Sign where
  | pos
  | neg
  deriving DecidableEq, Repr, Inhabited

/-- A word is the pair (sign, magnitude) of 10_state.md R10; `⟨.neg, 0⟩` is negative zero (R11).
The magnitude is a natural number; `Word.WellFormed` bounds it. -/
structure Word where
  sign : Sign
  mag : Nat
  deriving DecidableEq, Repr, Inhabited

/-- The magnitude modulus `WORD_MOD` = 10^10 (00_scope.md R4). -/
abbrev wordMod : Nat := 10000000000

/-- "magnitude always has ≤10 decimal digits" (10_state.md R10). -/
abbrev Word.WellFormed (w : Word) : Prop := w.mag < wordMod

/-- A 7-bit character, read as ASCII (00_scope.md R6, 30_encoding.md R51). -/
abbrev Ch := BitVec 7

/-- A cell of the deck buffer, and a punch pattern: 16 bits (10_state.md R14, 20_memory.md R30). -/
abbrev Cell := BitVec 16

/-- A text: a finite sequence of characters (00_scope.md R6). -/
abbrev Text := List Ch

/-- A card row: 80 cells, column 0 first (10_state.md R15, 30_encoding.md R50). -/
abbrev Row := Vector Cell 80

/-- `CARD_COLUMNS` (00_scope.md R4). -/
abbrev cardColumns : Nat := 80

/-- `DECK_CAPACITY` (00_scope.md R4). -/
abbrev deckCapacity : Nat := 10000

/-- `TEXT_MAX` (30_encoding.md R52). -/
abbrev textMax : Nat := 80

/-- The 7-bit character of an ASCII glyph (00_scope.md R6). -/
abbrev ch (c : Char) : Ch := BitVec.ofNat 7 c.toNat

/-- The space. -/
abbrev space : Ch := 32#7

/-- `PLACEHOLDER`, the glyph `~` (00_scope.md R4). -/
abbrev placeholder : Ch := 126#7

/-- `+`. -/
abbrev plusCh : Ch := 43#7

/-- `-`. -/
abbrev minusCh : Ch := 45#7

/-- `INVALID_PUNCH` = 0x1000 (30_encoding.md R49, 10_state.md R19 condition 4). -/
abbrev invalidPunch : Cell := 0x1000#16

end Sys2Proof
end

