-- ==== Sys2Proof/Syntax.lean ====
section
/-! DEFINITION. The operations of the block as terms (spec/opcode_table.json, one constructor a row),
and what a caller presents: the input ports of spec/30_encoding.md R53, R54, a target instruction word,
a command line (R63), or a hardware reset (spec/70_reset_and_hazards.md R165). -/

namespace Sys2Proof

/-- What a cell of the buffer holds (10_state.md R22, 20_memory.md R31). -/
inductive Mode where
  | raw
  | translated
  deriving DecidableEq, Repr, Inhabited

/-- The zone operand of DIGZONE: 0 none, 1 plus, 2 minus, 3 not a zone (30_encoding.md R51). -/
inductive Zone where
  | none
  | plus
  | minus
  | notAZone
  deriving DecidableEq, Repr, Inhabited

/-- The `mode` bits of PARSEW and FMTW: 0 numeric, 1 mnemonic, 2 character (30_encoding.md R66);
3 is reserved (R65). -/
inductive TextForm where
  | numeric
  | mnemonic
  | character
  | reserved
  deriving DecidableEq, Repr, Inhabited

/-- One constructor per row of spec/opcode_table.json. The first twenty are the block's operations with
the operands of 30_encoding.md R54. The other 44 are the rows of format target-mnemonic-candidate: a
target instruction word with that row's opcode, its sign and its two address fields (R47, R64). -/
inductive Instr where
  | extract (w : Word) (n : Int)
  | pack (opcode dataAddr instrAddr : Nat) (sign : Sign)
  | format (w : Word)
  | parse (t : Text)
  | ch2code (c : Ch)
  | code2ch (code : Nat)
  | ch2punch (c : Ch)
  | punch2ch (mask : Cell)
  | digzone (digit : Nat) (zone : Zone)
  | disasm (w : Word)
  | asm (name : Text) (dataAddr instrAddr : Nat) (sign : Sign)
  | readsop (opcode : Nat)
  | parsew (t : Text) (form : TextForm)
  | fmtw (w : Word) (form : TextForm)
  | dreset
  | load (source : Text) (mode : Mode)
  | save (dest : Text) (start count : Nat)
  | split (tail : Bool) (n : Nat) (source dest1 dest2 : Text) (quiet : Bool)
  | join (sources : List Text) (dest : Text) (quiet : Bool)
  | print (source : Text) (quiet sink2 : Bool)
  | noop (sign : Sign) (dataAddr instrAddr : Nat)
  | stop (sign : Sign) (dataAddr instrAddr : Nat)
  | au (sign : Sign) (dataAddr instrAddr : Nat)
  | su (sign : Sign) (dataAddr instrAddr : Nat)
  | div (sign : Sign) (dataAddr instrAddr : Nat)
  | al (sign : Sign) (dataAddr instrAddr : Nat)
  | sl (sign : Sign) (dataAddr instrAddr : Nat)
  | aabl (sign : Sign) (dataAddr instrAddr : Nat)
  | sabl (sign : Sign) (dataAddr instrAddr : Nat)
  | mult (sign : Sign) (dataAddr instrAddr : Nat)
  | stl (sign : Sign) (dataAddr instrAddr : Nat)
  | stu (sign : Sign) (dataAddr instrAddr : Nat)
  | stda (sign : Sign) (dataAddr instrAddr : Nat)
  | stia (sign : Sign) (dataAddr instrAddr : Nat)
  | std (sign : Sign) (dataAddr instrAddr : Nat)
  | srt (sign : Sign) (dataAddr instrAddr : Nat)
  | srd (sign : Sign) (dataAddr instrAddr : Nat)
  | slt (sign : Sign) (dataAddr instrAddr : Nat)
  | sct (sign : Sign) (dataAddr instrAddr : Nat)
  | brnzu (sign : Sign) (dataAddr instrAddr : Nat)
  | brnz (sign : Sign) (dataAddr instrAddr : Nat)
  | brmin (sign : Sign) (dataAddr instrAddr : Nat)
  | brov (sign : Sign) (dataAddr instrAddr : Nat)
  | rau (sign : Sign) (dataAddr instrAddr : Nat)
  | rsu (sign : Sign) (dataAddr instrAddr : Nat)
  | divru (sign : Sign) (dataAddr instrAddr : Nat)
  | ral (sign : Sign) (dataAddr instrAddr : Nat)
  | rsl (sign : Sign) (dataAddr instrAddr : Nat)
  | raabl (sign : Sign) (dataAddr instrAddr : Nat)
  | rsabl (sign : Sign) (dataAddr instrAddr : Nat)
  | ld (sign : Sign) (dataAddr instrAddr : Nat)
  | rd (sign : Sign) (dataAddr instrAddr : Nat)
  | pch (sign : Sign) (dataAddr instrAddr : Nat)
  | tlu (sign : Sign) (dataAddr instrAddr : Nat)
  | brd10 (sign : Sign) (dataAddr instrAddr : Nat)
  | brd1 (sign : Sign) (dataAddr instrAddr : Nat)
  | brd2 (sign : Sign) (dataAddr instrAddr : Nat)
  | brd3 (sign : Sign) (dataAddr instrAddr : Nat)
  | brd4 (sign : Sign) (dataAddr instrAddr : Nat)
  | brd5 (sign : Sign) (dataAddr instrAddr : Nat)
  | brd6 (sign : Sign) (dataAddr instrAddr : Nat)
  | brd7 (sign : Sign) (dataAddr instrAddr : Nat)
  | brd8 (sign : Sign) (dataAddr instrAddr : Nat)
  | brd9 (sign : Sign) (dataAddr instrAddr : Nat)
  deriving DecidableEq, Repr

/-- A text port (30_encoding.md R52): a length of 7 bits and 80 character slots; slots at and beyond
the length carry no meaning. -/
structure TextPort where
  len : BitVec 7
  slots : Vector Ch 80
  deriving DecidableEq, Repr

/-- The input ports (10_state.md R16), with the widths of 30_encoding.md R54. An operation reads the
ports of its own operands; `text` carries the text of PARSE and PARSEW and the mnemonic of ASM. -/
structure InPorts where
  cmd : BitVec 8
  word : BitVec 41
  digits : BitVec 5
  opcodeField : BitVec 32
  dataField : BitVec 32
  instrField : BitVec 32
  sign : BitVec 1
  char : BitVec 7
  code : BitVec 7
  mask : BitVec 16
  digit : BitVec 4
  zone : BitVec 2
  opcode : BitVec 7
  text : TextPort
  source : TextPort
  dest1 : TextPort
  dest2 : TextPort
  sources : List TextPort
  start : BitVec 14
  count : BitVec 14
  tail : BitVec 1
  splitCount : BitVec 32
  sink2 : BitVec 1
  deriving DecidableEq, Repr

/-- What the caller presents to the block: a command byte with its operand ports (30_encoding.md R53),
a target instruction word alone (log entry 1), a command line with the input SINK2_ATTACHED (R63,
20_memory.md R37), or the hardware reset (70_reset_and_hazards.md R165). -/
inductive Request where
  | command (p : InPorts)
  | target (w : BitVec 41)
  | line (t : Text) (sink2 : Bool)
  | reset
  deriving DecidableEq, Repr

/-- Why a request is no instruction (30_encoding.md R63, R65). -/
inductive Reject where
  /-- `op_sel` 0x0E, 0x0F or 0x16 to 0x1F (R65). -/
  | reservedOpSel (op : Nat)
  /-- A bit of the command byte the operation does not use is not 0 (R53, R65). -/
  | unusedBits
  /-- A BCD nibble of 10 to 15 in a word operand (R46, R65). -/
  | badNibble
  /-- A text of more than `TEXT_MAX` characters (70_reset_and_hazards.md R171). -/
  | textTooLong
  /-- A target word whose opcode is in no row of the table: it is data, not an error (R65). -/
  | unlistedTarget (w : Word)
  /-- The command line does not fit the grammar of R63. -/
  | malformedLine
  /-- The hardware reset is no instruction. -/
  | resetRequest
  deriving DecidableEq, Repr

end Sys2Proof
end

