-- ==== Sys2Proof/Config.lean ====
section
/-! DEFINITION. What is fixed for one block and left open by the spec (spec/00_scope.md R5): the four
lookup tables and the line terminator, as plain data, and the free values a hardware reset leaves
(spec/70_reset_and_hazards.md R165). The well-formedness of the tables is in Machine/Tables.lean. -/

namespace Sys2Proof

/-- One entry of `MNEMONIC_TABLE` (10_state.md R21). -/
structure MnemonicEntry where
  opcode : Nat
  mnemonic : Text
  readsOperand : Bool
  deriving DecidableEq, Repr, Inhabited

/-- The OPEN parameters of 00_scope.md R5: `CODE_TABLE` (100 characters), `HOL_TABLE` (128 punch patterns),
`ZONE_TABLE` (three rows of ten characters), `MNEMONIC_TABLE`, `LINE_TERM`. No operation changes them. -/
structure Config where
  codeTable : Vector Ch 100
  holTable : Vector Cell 128
  zoneNone : Vector Ch 10
  zonePlus : Vector Ch 10
  zoneMinus : Vector Ch 10
  mnemonics : List MnemonicEntry
  lineTerm : Text
  deriving DecidableEq, Repr

/-- FREE VALUE: ERRIDX after the n-th hardware reset (10_state.md R27 "unspecified"; log entry 13). -/
opaque Config.freeErrIdx : Nat → BitVec 14

/-- FREE VALUE: ERRNAME after the n-th hardware reset (10_state.md R27; log entry 13). -/
opaque Config.freeErrName : Nat → Text

/-- FREE VALUE: the CNT registers after the n-th hardware reset (10_state.md R27; log entry 13). -/
opaque Config.freeCnt : Nat → List (BitVec 14)

end Sys2Proof
end

