-- ==== Sys2Proof/WellFormed.lean ====
section
/-! DEFINITION. When a term of `Instr` is one the ports can carry (spec/30_encoding.md R46, R51, R52, R54;
spec/40_wordcodec.md R72): every operand fits its port. A value that fits its port and is still no value of
its type (a digit above 9, a code above 99) is well-formed here; its operation refuses it (R65). -/

namespace Sys2Proof

/-- A text operand fits its port (30_encoding.md R52). -/
def Text.fits (t : Text) : Bool := t.length ≤ textMax

/-- A word operand has ten decimal digits (30_encoding.md R46). -/
def Word.fits (w : Word) : Bool := w.mag < wordMod

/-- A field operand of PACK and ASM fits 32 bits (30_encoding.md R55). -/
def fieldFits (n : Nat) : Bool := n < 2 ^ 32

/-- The two address fields of a target word are four digits each (30_encoding.md R47). -/
def addressesFit (da ia : Nat) : Bool := da < 10000 && ia < 10000

/-- Every operand of the instruction fits its port (30_encoding.md R54). -/
def Instr.wellFormed : Instr → Bool
  | .extract w n => w.fits && decide (-16 ≤ n ∧ n ≤ 15)
  | .pack op da ia _ => fieldFits op && fieldFits da && fieldFits ia
  | .format w => w.fits
  | .parse t => Text.fits t
  | .ch2code _ => true
  | .code2ch k => k < 128
  | .ch2punch _ => true
  | .punch2ch _ => true
  | .digzone d _ => d < 16
  | .disasm w => w.fits
  | .asm t da ia _ => Text.fits t && fieldFits da && fieldFits ia
  | .readsop k => k < 128
  | .parsew t _ => Text.fits t
  | .fmtw w _ => w.fits
  | .dreset => true
  | .load t _ => Text.fits t
  | .save t start count => Text.fits t && decide (start < 2 ^ 14 ∧ count < 2 ^ 14)
  | .split _ n s d1 d2 _ => decide (n < 2 ^ 32) && Text.fits s && Text.fits d1 && Text.fits d2
  | .join ss d _ => ss.all Text.fits && Text.fits d
  | .print s _ _ => Text.fits s
  | .noop _ da ia => addressesFit da ia
  | .stop _ da ia => addressesFit da ia
  | .au _ da ia => addressesFit da ia
  | .su _ da ia => addressesFit da ia
  | .div _ da ia => addressesFit da ia
  | .al _ da ia => addressesFit da ia
  | .sl _ da ia => addressesFit da ia
  | .aabl _ da ia => addressesFit da ia
  | .sabl _ da ia => addressesFit da ia
  | .mult _ da ia => addressesFit da ia
  | .stl _ da ia => addressesFit da ia
  | .stu _ da ia => addressesFit da ia
  | .stda _ da ia => addressesFit da ia
  | .stia _ da ia => addressesFit da ia
  | .std _ da ia => addressesFit da ia
  | .srt _ da ia => addressesFit da ia
  | .srd _ da ia => addressesFit da ia
  | .slt _ da ia => addressesFit da ia
  | .sct _ da ia => addressesFit da ia
  | .brnzu _ da ia => addressesFit da ia
  | .brnz _ da ia => addressesFit da ia
  | .brmin _ da ia => addressesFit da ia
  | .brov _ da ia => addressesFit da ia
  | .rau _ da ia => addressesFit da ia
  | .rsu _ da ia => addressesFit da ia
  | .divru _ da ia => addressesFit da ia
  | .ral _ da ia => addressesFit da ia
  | .rsl _ da ia => addressesFit da ia
  | .raabl _ da ia => addressesFit da ia
  | .rsabl _ da ia => addressesFit da ia
  | .ld _ da ia => addressesFit da ia
  | .rd _ da ia => addressesFit da ia
  | .pch _ da ia => addressesFit da ia
  | .tlu _ da ia => addressesFit da ia
  | .brd10 _ da ia => addressesFit da ia
  | .brd1 _ da ia => addressesFit da ia
  | .brd2 _ da ia => addressesFit da ia
  | .brd3 _ da ia => addressesFit da ia
  | .brd4 _ da ia => addressesFit da ia
  | .brd5 _ da ia => addressesFit da ia
  | .brd6 _ da ia => addressesFit da ia
  | .brd7 _ da ia => addressesFit da ia
  | .brd8 _ da ia => addressesFit da ia
  | .brd9 _ da ia => addressesFit da ia

end Sys2Proof
end

