-- ==== Sys2Proof/Decode.lean ====
section
/-! DEFINITION. From what a caller presents to an instruction, total, rejecting by name: the command byte and
its ports (spec/30_encoding.md R53, R54, R46, R51, R52), a target word (R47, R64), a command line (R63).
After it the encoder, written from the same tables, and `decodeTableWord`. -/

namespace Sys2Proof

/-! ### Values on ports -/

/-- The number whose decimal digits are the low `k` BCD nibbles of `v`, or none where a nibble is 10 to 15
(30_encoding.md R46). -/
def decodeBcd : Nat → Nat → Option Nat
  | 0, _ => some 0
  | k + 1, v => if v % 16 < 10 then (decodeBcd k (v / 16)).map (fun hi => v % 16 + 10 * hi) else none

/-- The low `k` decimal digits of `m` as BCD nibbles (30_encoding.md R46). -/
def encodeBcd : Nat → Nat → Nat
  | 0, _ => 0
  | k + 1, m => m % 10 + 16 * encodeBcd k (m / 10)

/-- The sign bit: 0 = Pos, 1 = Neg (30_encoding.md R46). -/
def decodeSign (b : BitVec 1) : Sign := if b = 0#1 then .pos else .neg

/-- The sign bit of a sign. -/
def encodeSign : Sign → BitVec 1
  | .pos => 0#1
  | .neg => 1#1

/-- The word on a 41-bit word port (30_encoding.md R46): bit 40 the sign, bits 39:0 ten BCD digits. -/
def decodeWord (v : BitVec 41) : Except Reject Word :=
  match decodeBcd 10 (v.toNat % 2 ^ 40) with
  | some m => .ok ⟨decodeSign (BitVec.ofNat 1 (v.toNat / 2 ^ 40)), m⟩
  | none => .error .badNibble

/-- The 41 bits of a word (30_encoding.md R46). -/
def encodeWord (w : Word) : BitVec 41 :=
  BitVec.ofNat 41 (encodeBcd 10 w.mag + (encodeSign w.sign).toNat * 2 ^ 40)

/-- The text on a text port (30_encoding.md R52). -/
def decodeText (p : TextPort) : Except Reject Text :=
  if p.len.toNat ≤ textMax then .ok (p.slots.toList.take p.len.toNat) else .error .textTooLong

/-- A text on its port; the slots beyond its length are 0. -/
def encodeText (t : Text) : TextPort :=
  { len := BitVec.ofNat 7 t.length, slots := Vector.ofFn fun i => t.getD i.val 0#7 }

/-- The texts on a list of ports, in order. -/
def decodeTexts : List TextPort → Except Reject (List Text)
  | [] => .ok []
  | p :: ps => (decodeText p).bind fun t => (decodeTexts ps).map fun ts => t :: ts

/-- The zone operand (30_encoding.md R51). -/
def decodeZone (b : BitVec 2) : Zone :=
  match b.toNat with
  | 0 => .none
  | 1 => .plus
  | 2 => .minus
  | _ => .notAZone

/-- The bits of a zone. -/
def encodeZone : Zone → BitVec 2
  | .none => 0#2
  | .plus => 1#2
  | .minus => 2#2
  | .notAZone => 3#2

/-- The `mode` bits of PARSEW and FMTW (30_encoding.md R53). -/
def decodeForm : Nat → TextForm
  | 0 => .numeric
  | 1 => .mnemonic
  | 2 => .character
  | _ => .reserved

/-- The bits of a text form. -/
def encodeForm : TextForm → Nat
  | .numeric => 0
  | .mnemonic => 1
  | .character => 2
  | .reserved => 3

/-- The bit of a flag. -/
def encodeFlag (b : Bool) : BitVec 1 := if b then 1#1 else 0#1

/-- The flag of a bit. -/
def decodeFlag (b : BitVec 1) : Bool := b != 0#1

/-! ### The command byte (30_encoding.md R53) -/

/-- `bits[4:0]` of the command byte. -/
def opSel (cmd : BitVec 8) : Nat := cmd.toNat % 32

/-- `bits[6:5]` of the command byte. -/
def modeBits (cmd : BitVec 8) : Nat := cmd.toNat / 32 % 4

/-- `bit 7` of the command byte. -/
def quietBit (cmd : BitVec 8) : Bool := decide (128 ≤ cmd.toNat)

/-- The command byte of an operation, its mode bits and its quiet bit. -/
def commandByte (op mode : Nat) (quiet : Bool) : BitVec 8 :=
  BitVec.ofNat 8 (op + 32 * mode + (if quiet then 128 else 0))

/-- Bits an operation does not use must be 0 (30_encoding.md R53): the instruction where the test
holds, else the rejection by name. -/
def onlyIf (unusedAreZero : Bool) (i : Except Reject Instr) : Except Reject Instr :=
  if unusedAreZero then i else .error .unusedBits

/-- The mode bits and the quiet bit are 0. -/
def plainCommand (cmd : BitVec 8) : Bool := modeBits cmd == 0 && !quietBit cmd

/-- The mode of LOAD is bit 5; bit 6 and bit 7 are 0 (30_encoding.md R53). -/
def loadCommand (cmd : BitVec 8) : Bool := decide (modeBits cmd < 2) && !quietBit cmd

/-- The instruction a command byte and its operand ports present (30_encoding.md R53, R54, R65). -/
def decodeCommand (p : InPorts) : Except Reject Instr :=
  match opSel p.cmd with
  | 0x00 => onlyIf (plainCommand p.cmd) ((decodeWord p.word).map fun w => .extract w p.digits.toInt)
  | 0x01 => onlyIf (plainCommand p.cmd)
      (.ok (.pack p.opcodeField.toNat p.dataField.toNat p.instrField.toNat (decodeSign p.sign)))
  | 0x02 => onlyIf (plainCommand p.cmd) ((decodeWord p.word).map .format)
  | 0x03 => onlyIf (plainCommand p.cmd) ((decodeText p.text).map .parse)
  | 0x04 => onlyIf (plainCommand p.cmd) (.ok (.ch2code p.char))
  | 0x05 => onlyIf (plainCommand p.cmd) (.ok (.code2ch p.code.toNat))
  | 0x06 => onlyIf (plainCommand p.cmd) (.ok (.ch2punch p.char))
  | 0x07 => onlyIf (plainCommand p.cmd) (.ok (.punch2ch p.mask))
  | 0x08 => onlyIf (plainCommand p.cmd) (.ok (.digzone p.digit.toNat (decodeZone p.zone)))
  | 0x09 => onlyIf (plainCommand p.cmd) ((decodeWord p.word).map .disasm)
  | 0x0A => onlyIf (plainCommand p.cmd)
      ((decodeText p.text).map fun t => .asm t p.dataField.toNat p.instrField.toNat (decodeSign p.sign))
  | 0x0B => onlyIf (plainCommand p.cmd) (.ok (.readsop p.opcode.toNat))
  | 0x0C => onlyIf (!quietBit p.cmd)
      ((decodeText p.text).map fun t => .parsew t (decodeForm (modeBits p.cmd)))
  | 0x0D => onlyIf (!quietBit p.cmd)
      ((decodeWord p.word).map fun w => .fmtw w (decodeForm (modeBits p.cmd)))
  | 0x10 => onlyIf (plainCommand p.cmd) (.ok .dreset)
  | 0x11 => onlyIf (loadCommand p.cmd)
      ((decodeText p.source).map fun t => .load t (if modeBits p.cmd = 0 then .raw else .translated))
  | 0x12 => onlyIf (plainCommand p.cmd)
      ((decodeText p.dest1).map fun t => .save t p.start.toNat p.count.toNat)
  | 0x13 => onlyIf (modeBits p.cmd == 0)
      ((decodeText p.source).bind fun s => (decodeText p.dest1).bind fun d1 => (decodeText p.dest2).map fun d2 =>
        .split (decodeFlag p.tail) p.splitCount.toNat s d1 d2 (quietBit p.cmd))
  | 0x14 => onlyIf (modeBits p.cmd == 0)
      ((decodeTexts p.sources).bind fun ss => (decodeText p.dest1).map fun d => .join ss d (quietBit p.cmd))
  | 0x15 => onlyIf (modeBits p.cmd == 0)
      ((decodeText p.source).map fun s => .print s (quietBit p.cmd) (decodeFlag p.sink2))
  | op => .error (.reservedOpSel op)

/-! ### Target words (30_encoding.md R47, R64; the rows of spec/opcode_table.json) -/

/-- The table row of a target opcode, with the word's sign and address fields. -/
def targetRow (op : Nat) (s : Sign) (da ia : Nat) : Option Instr :=
  match op with
  | 0 => some (.noop s da ia)
  | 1 => some (.stop s da ia)
  | 10 => some (.au s da ia)
  | 11 => some (.su s da ia)
  | 14 => some (.div s da ia)
  | 15 => some (.al s da ia)
  | 16 => some (.sl s da ia)
  | 17 => some (.aabl s da ia)
  | 18 => some (.sabl s da ia)
  | 19 => some (.mult s da ia)
  | 20 => some (.stl s da ia)
  | 21 => some (.stu s da ia)
  | 22 => some (.stda s da ia)
  | 23 => some (.stia s da ia)
  | 24 => some (.std s da ia)
  | 30 => some (.srt s da ia)
  | 31 => some (.srd s da ia)
  | 35 => some (.slt s da ia)
  | 36 => some (.sct s da ia)
  | 44 => some (.brnzu s da ia)
  | 45 => some (.brnz s da ia)
  | 46 => some (.brmin s da ia)
  | 47 => some (.brov s da ia)
  | 60 => some (.rau s da ia)
  | 61 => some (.rsu s da ia)
  | 64 => some (.divru s da ia)
  | 65 => some (.ral s da ia)
  | 66 => some (.rsl s da ia)
  | 67 => some (.raabl s da ia)
  | 68 => some (.rsabl s da ia)
  | 69 => some (.ld s da ia)
  | 70 => some (.rd s da ia)
  | 71 => some (.pch s da ia)
  | 84 => some (.tlu s da ia)
  | 90 => some (.brd10 s da ia)
  | 91 => some (.brd1 s da ia)
  | 92 => some (.brd2 s da ia)
  | 93 => some (.brd3 s da ia)
  | 94 => some (.brd4 s da ia)
  | 95 => some (.brd5 s da ia)
  | 96 => some (.brd6 s da ia)
  | 97 => some (.brd7 s da ia)
  | 98 => some (.brd8 s da ia)
  | 99 => some (.brd9 s da ia)
  | _ => none

/-- The instruction a target word presents: opcode d9 d8, data address d7..d4, instruction address d3..d0
(30_encoding.md R47). -/
def decodeTarget (v : BitVec 41) : Except Reject Instr :=
  (decodeWord v).bind fun w =>
    match targetRow (w.mag / 10 ^ 8) w.sign (w.mag / 10 ^ 4 % 10 ^ 4) (w.mag % 10 ^ 4) with
    | some i => .ok i
    | none => .error (.unlistedTarget w)

/-- The target word of an opcode, a sign and two address fields (30_encoding.md R47). -/
def encodeTarget (op : Nat) (s : Sign) (da ia : Nat) : BitVec 41 :=
  encodeWord ⟨s, op * 10 ^ 8 + da * 10 ^ 4 + ia⟩

/-! ### The command line (30_encoding.md R63) -/

/-- The tokens of a line split at runs of spaces; `acc` is the token being read, last character first. -/
def tokensFrom : Text → Text → List Text
  | acc, [] => if acc = [] then [] else [acc.reverse]
  | acc, c :: cs =>
    if c = space then (if acc = [] then tokensFrom [] cs else acc.reverse :: tokensFrom [] cs)
    else tokensFrom (c :: acc) cs

/-- The tokens of a command line (30_encoding.md R63). -/
def tokens (t : Text) : List Text := tokensFrom [] t

/-- `-Q`. -/
def quietToken : Text := [ch '-', ch 'Q']

/-- `SPLIT`. -/
def splitToken : Text := [ch 'S', ch 'P', ch 'L', ch 'I', ch 'T']

/-- `JOIN`. -/
def joinToken : Text := [ch 'J', ch 'O', ch 'I', ch 'N']

/-- `PRINT`. -/
def printToken : Text := [ch 'P', ch 'R', ch 'I', ch 'N', ch 'T']

/-- `AS`. -/
def asToken : Text := [ch 'A', ch 'S']

/-- A decimal digit character. -/
def isDigitChar (c : Ch) : Bool := 48 ≤ c.toNat && c.toNat ≤ 57

/-- The number a run of digit characters writes. -/
def digitsValue (t : Text) : Nat := t.foldl (fun v c => v * 10 + (c.toNat - 48)) 0

/-- The countSpec of a token: an optional leading `-`, then 1 to 9 digits (30_encoding.md R62, R63). -/
def countSpec (t : Text) : Option (Bool × Nat) :=
  let tail := t.head? == some minusCh
  let ds := if tail then t.tail else t
  if 1 ≤ ds.length ∧ ds.length ≤ 9 ∧ ds.all isDigitChar = true then some (tail, digitsValue ds) else none

/-- The arguments of JOIN: the sources, `AS`, the destination. The last token equal to `AS` must be the
last but one, with at least one source before it (30_encoding.md R63). -/
def joinArgs (args : List Text) : Option (List Text × Text) :=
  match args.reverse with
  | dest :: kw :: sources =>
    if kw = asToken ∧ dest ≠ asToken ∧ sources ≠ [] then some (sources.reverse, dest) else none
  | _ => none

/-- The operation of a verb and its arguments (30_encoding.md R63), before the lengths of the names are
looked at. -/
def verbArgs (verb : Text) (args : List Text) (quiet sink2 : Bool) : Option Instr :=
  if verb = splitToken then
    match args with
    | [c, s, d1, d2] => (countSpec c).map fun k => .split k.1 k.2 s d1 d2 quiet
    | _ => none
  else if verb = joinToken then (joinArgs args).map fun a => .join a.1 a.2 quiet
  else if verb = printToken then
    match args with
    | [s] => some (.print s quiet sink2)
    | _ => none
  else none

/-- The tokens of a line after an optional first token `-Q`. -/
def verbLine (ts : List Text) (quiet sink2 : Bool) : Option Instr :=
  match ts with
  | [] => none
  | verb :: args => verbArgs verb args quiet sink2

/-- The instruction a command line presents (30_encoding.md R63); a name of more than `TEXT_MAX` characters
fits no port. -/
def decodeLine (t : Text) (sink2 : Bool) : Except Reject Instr :=
  let ts := tokens t
  let quiet := ts.head? == some quietToken
  match verbLine (if quiet then ts.tail else ts) quiet sink2 with
  | none => .error .malformedLine
  | some i => if i.wellFormed then .ok i else .error .textTooLong

/-! ### The whole decoder -/

/-- The instruction of what a caller presents, or why it is none. -/
def decode : Request → Except Reject Instr
  | .command p => decodeCommand p
  | .target v => decodeTarget v
  | .line t sink2 => decodeLine t sink2
  | .reset => .error .resetRequest

/-- Every input port at 0. -/
def InPorts.zero : InPorts :=
  { cmd := 0, word := 0, digits := 0, opcodeField := 0, dataField := 0, instrField := 0, sign := 0, char := 0,
    code := 0, mask := 0, digit := 0, zone := 0, opcode := 0, text := ⟨0, Vector.replicate 80 0⟩,
    source := ⟨0, Vector.replicate 80 0⟩, dest1 := ⟨0, Vector.replicate 80 0⟩,
    dest2 := ⟨0, Vector.replicate 80 0⟩, sources := [], start := 0, count := 0, tail := 0, splitCount := 0,
    sink2 := 0 }

/-- How a caller presents an instruction (30_encoding.md R53, R54); the ports it does not use are 0. -/
def encode : Instr → Request
  | .extract w n => .command { InPorts.zero with cmd := 0x00, word := encodeWord w, digits := BitVec.ofInt 5 n }
  | .pack op da ia s => .command { InPorts.zero with
      cmd := 0x01, opcodeField := BitVec.ofNat 32 op, dataField := BitVec.ofNat 32 da,
      instrField := BitVec.ofNat 32 ia, sign := encodeSign s }
  | .format w => .command { InPorts.zero with cmd := 0x02, word := encodeWord w }
  | .parse t => .command { InPorts.zero with cmd := 0x03, text := encodeText t }
  | .ch2code c => .command { InPorts.zero with cmd := 0x04, char := c }
  | .code2ch k => .command { InPorts.zero with cmd := 0x05, code := BitVec.ofNat 7 k }
  | .ch2punch c => .command { InPorts.zero with cmd := 0x06, char := c }
  | .punch2ch m => .command { InPorts.zero with cmd := 0x07, mask := m }
  | .digzone d z => .command { InPorts.zero with cmd := 0x08, digit := BitVec.ofNat 4 d, zone := encodeZone z }
  | .disasm w => .command { InPorts.zero with cmd := 0x09, word := encodeWord w }
  | .asm t da ia s => .command { InPorts.zero with
      cmd := 0x0A, text := encodeText t, dataField := BitVec.ofNat 32 da, instrField := BitVec.ofNat 32 ia,
      sign := encodeSign s }
  | .readsop k => .command { InPorts.zero with cmd := 0x0B, opcode := BitVec.ofNat 7 k }
  | .parsew t f => .command { InPorts.zero with cmd := commandByte 0x0C (encodeForm f) false, text := encodeText t }
  | .fmtw w f => .command { InPorts.zero with cmd := commandByte 0x0D (encodeForm f) false, word := encodeWord w }
  | .dreset => .command { InPorts.zero with cmd := 0x10 }
  | .load t m => .command { InPorts.zero with
      cmd := commandByte 0x11 (if m = .raw then 0 else 1) false, source := encodeText t }
  | .save t start count => .command { InPorts.zero with
      cmd := 0x12, dest1 := encodeText t, start := BitVec.ofNat 14 start, count := BitVec.ofNat 14 count }
  | .split tail n s d1 d2 q => .command { InPorts.zero with
      cmd := commandByte 0x13 0 q, tail := encodeFlag tail, splitCount := BitVec.ofNat 32 n,
      source := encodeText s, dest1 := encodeText d1, dest2 := encodeText d2 }
  | .join ss d q => .command { InPorts.zero with
      cmd := commandByte 0x14 0 q, sources := ss.map encodeText, dest1 := encodeText d }
  | .print s q sink2 => .command { InPorts.zero with
      cmd := commandByte 0x15 0 q, source := encodeText s, sink2 := encodeFlag sink2 }
  | .noop s da ia => .target (encodeTarget 0 s da ia)
  | .stop s da ia => .target (encodeTarget 1 s da ia)
  | .au s da ia => .target (encodeTarget 10 s da ia)
  | .su s da ia => .target (encodeTarget 11 s da ia)
  | .div s da ia => .target (encodeTarget 14 s da ia)
  | .al s da ia => .target (encodeTarget 15 s da ia)
  | .sl s da ia => .target (encodeTarget 16 s da ia)
  | .aabl s da ia => .target (encodeTarget 17 s da ia)
  | .sabl s da ia => .target (encodeTarget 18 s da ia)
  | .mult s da ia => .target (encodeTarget 19 s da ia)
  | .stl s da ia => .target (encodeTarget 20 s da ia)
  | .stu s da ia => .target (encodeTarget 21 s da ia)
  | .stda s da ia => .target (encodeTarget 22 s da ia)
  | .stia s da ia => .target (encodeTarget 23 s da ia)
  | .std s da ia => .target (encodeTarget 24 s da ia)
  | .srt s da ia => .target (encodeTarget 30 s da ia)
  | .srd s da ia => .target (encodeTarget 31 s da ia)
  | .slt s da ia => .target (encodeTarget 35 s da ia)
  | .sct s da ia => .target (encodeTarget 36 s da ia)
  | .brnzu s da ia => .target (encodeTarget 44 s da ia)
  | .brnz s da ia => .target (encodeTarget 45 s da ia)
  | .brmin s da ia => .target (encodeTarget 46 s da ia)
  | .brov s da ia => .target (encodeTarget 47 s da ia)
  | .rau s da ia => .target (encodeTarget 60 s da ia)
  | .rsu s da ia => .target (encodeTarget 61 s da ia)
  | .divru s da ia => .target (encodeTarget 64 s da ia)
  | .ral s da ia => .target (encodeTarget 65 s da ia)
  | .rsl s da ia => .target (encodeTarget 66 s da ia)
  | .raabl s da ia => .target (encodeTarget 67 s da ia)
  | .rsabl s da ia => .target (encodeTarget 68 s da ia)
  | .ld s da ia => .target (encodeTarget 69 s da ia)
  | .rd s da ia => .target (encodeTarget 70 s da ia)
  | .pch s da ia => .target (encodeTarget 71 s da ia)
  | .tlu s da ia => .target (encodeTarget 84 s da ia)
  | .brd10 s da ia => .target (encodeTarget 90 s da ia)
  | .brd1 s da ia => .target (encodeTarget 91 s da ia)
  | .brd2 s da ia => .target (encodeTarget 92 s da ia)
  | .brd3 s da ia => .target (encodeTarget 93 s da ia)
  | .brd4 s da ia => .target (encodeTarget 94 s da ia)
  | .brd5 s da ia => .target (encodeTarget 95 s da ia)
  | .brd6 s da ia => .target (encodeTarget 96 s da ia)
  | .brd7 s da ia => .target (encodeTarget 97 s da ia)
  | .brd8 s da ia => .target (encodeTarget 98 s da ia)
  | .brd9 s da ia => .target (encodeTarget 99 s da ia)

/-! ### Words of the opcode table -/

/-- What the caller presents for a table row's bits `w`: a row of one byte is a command byte with every
operand port 0; a wider row is a 41-bit target word (spec/opcode_table.json). -/
def tableRequest (nbits w : Nat) : Request :=
  if nbits ≤ 8 then .command { InPorts.zero with cmd := BitVec.ofNat 8 w } else .target (BitVec.ofNat 41 w)

/-- The instruction the decoder reads from a table row's bits. -/
def decodeTableWord (nbits w : Nat) : Option Instr :=
  match decode (tableRequest nbits w) with
  | .ok i => some i
  | .error _ => none

end Sys2Proof
end

