-- ==== Sys2Proof/Machine/Tables.lean ====
section
/-! DEFINITION. Lookups in the four read-only tables (spec/10_state.md R18 to R21), their well-formedness
conditions, and the candidate tables of spec/93_implementation_defined.md G1 to G4, which the spec marks
as general knowledge: they are the tables State.reset holds (log entry 3), and no meaning depends on them. -/

namespace Sys2Proof.Machine

/-! ### Lookups -/

/-- `CODE_TABLE[k]` (10_state.md R18). -/
def codeAt (c : Config) (k : Nat) : Ch := c.codeTable.getD k placeholder

/-- `HOL_TABLE[x]` (10_state.md R19). -/
def holAt (c : Config) (x : Ch) : Cell := c.holTable.getD x.toNat invalidPunch

/-- `ZONE_TABLE[zone][d]` (10_state.md R20), for a zone that is one. -/
def zoneAt (c : Config) (z : Zone) (d : Nat) : Option Ch :=
  match z with
  | .none => c.zoneNone[d]?
  | .plus => c.zonePlus[d]?
  | .minus => c.zoneMinus[d]?
  | .notAZone => Option.none

/-- `ROW_BIT` of digit row d, 0 to 9 (30_encoding.md R49): row 0 is bit 9 and row 9 is bit 0. -/
def rowBit (d : Nat) : Cell := 0x200#16 >>> d

/-- `ROW_BIT[12]`, the plus zone (30_encoding.md R49). -/
abbrev row12 : Cell := 0x800#16

/-- `ROW_BIT[11]`, the minus zone (30_encoding.md R49). -/
abbrev row11 : Cell := 0x400#16

/-- The 95 printable characters, 32 to 126 (10_state.md R19). -/
def printables : List Ch := (List.range 95).map fun k => BitVec.ofNat 7 (32 + k)

/-- An uppercase letter. -/
def isUpper (c : Ch) : Bool := 65 ≤ c.toNat && c.toNat ≤ 90

/-- A lowercase letter (97 to 122). -/
def isLower (c : Ch) : Bool := 97 ≤ c.toNat && c.toNat ≤ 122

/-- A printable character, 32 to 126. -/
def isPrintable (c : Ch) : Bool := 32 ≤ c.toNat && c.toNat ≤ 126

/-! ### Well-formedness (10_state.md R18 to R21) -/

/-- `CODE_TABLE` (10_state.md R18): code 0 is the space; no entry is a lowercase letter or a control
character; every uppercase letter, digit, the period and the hyphen occur. -/
def codeTableOk (c : Config) : Bool :=
  codeAt c 0 == space
    && (List.range 100).all (fun k => isPrintable (codeAt c k) && !isLower (codeAt c k))
    && (List.range 26).all (fun k => c.codeTable.toList.contains (BitVec.ofNat 7 (65 + k)))
    && (List.range 10).all (fun k => c.codeTable.toList.contains (BitVec.ofNat 7 (48 + k)))
    && c.codeTable.toList.contains (ch '.') && c.codeTable.toList.contains (ch '-')

/-- `HOL_TABLE` (10_state.md R19 conditions 1 to 4 and 6): control characters and 127 have the invalid
punch; the 95 printable characters have distinct masks of row bits only; the space is blank and a digit
is the punch of its own row. -/
def holTableOk (c : Config) : Bool :=
  (List.range 32).all (fun k => holAt c (BitVec.ofNat 7 k) == invalidPunch)
    && holAt c 127#7 == invalidPunch
    && decide (printables.map (holAt c)).Nodup
    && printables.all (fun x => holAt c x &&& 0xF000#16 == 0#16)
    && holAt c space == 0#16
    && (List.range 10).all (fun d => holAt c (BitVec.ofNat 7 (48 + d)) == rowBit d)

/-- `ZONE_TABLE` (10_state.md R20): no zone is the plain digit; the twenty zoned glyphs are distinct and no
digit; the zero glyphs are `?` (plus) and `!` (minus); and condition 4, overprinting. -/
def zoneTableOk (c : Config) : Bool :=
  (List.range 10).all (fun d => zoneAt c .none d == some (BitVec.ofNat 7 (48 + d)))
    && decide (c.zonePlus.toList ++ c.zoneMinus.toList).Nodup
    && (c.zonePlus.toList ++ c.zoneMinus.toList).all (fun x => !isDigitChar x)
    && zoneAt c .plus 0 == some (ch '?') && zoneAt c .minus 0 == some (ch '!')
    && (List.range 10).all (fun d =>
        (zoneAt c .plus d).map (holAt c) == some (holAt c (BitVec.ofNat 7 (48 + d)) ||| row12)
          && (zoneAt c .minus d).map (holAt c) == some (holAt c (BitVec.ofNat 7 (48 + d)) ||| row11))

/-- The shape of a mnemonic (10_state.md R21 condition 3): 1 to 8 uppercase letters and digits, first a
letter. -/
def mnemonicOk (t : Text) : Bool :=
  match t with
  | [] => false
  | x :: xs => isUpper x && xs.all (fun y => isUpper y || isDigitChar y) && decide (xs.length < 8)

/-- `MNEMONIC_TABLE` (10_state.md R21): opcodes 0 to 99, no opcode and no mnemonic twice, mnemonics of the
shape of condition 3. -/
def mnemonicTableOk (c : Config) : Bool :=
  c.mnemonics.all (fun e => decide (e.opcode < 100) && mnemonicOk e.mnemonic)
    && decide (c.mnemonics.map (·.opcode)).Nodup && decide (c.mnemonics.map (·.mnemonic)).Nodup

/-- The tables are a configuration of this hardware (10_state.md R18 to R21, 93_implementation_defined.md
U16). -/
def configOk (c : Config) : Bool := codeTableOk c && holTableOk c && zoneTableOk c && mnemonicTableOk c

/-! ### Candidate tables (93_implementation_defined.md G1 to G4; PRESUMED, log entry 3) -/

/-- G2, the candidate `CODE_TABLE`. -/
def candidateCodes : List Ch :=
   [space, placeholder, placeholder, placeholder, placeholder, placeholder, placeholder, placeholder, placeholder, placeholder]
   ++ [placeholder, placeholder, placeholder, placeholder, placeholder, placeholder, placeholder, placeholder, ch '.', ch ')']
   ++ [ch '+', placeholder, placeholder, placeholder, placeholder, placeholder, placeholder, placeholder, ch '$', ch '*']
   ++ [ch '-', ch '/', placeholder, placeholder, placeholder, placeholder, placeholder, placeholder, ch ',', ch '(']
   ++ [placeholder, placeholder, placeholder, placeholder, placeholder, placeholder, placeholder, placeholder, ch '=', ch '-']
   ++ [placeholder, placeholder, placeholder, placeholder, placeholder, placeholder, placeholder, placeholder, placeholder, placeholder]
   ++ [placeholder, ch 'A', ch 'B', ch 'C', ch 'D', ch 'E', ch 'F', ch 'G', ch 'H', ch 'I']
   ++ [placeholder, ch 'J', ch 'K', ch 'L', ch 'M', ch 'N', ch 'O', ch 'P', ch 'Q', ch 'R']
   ++ [placeholder, placeholder, ch 'S', ch 'T', ch 'U', ch 'V', ch 'W', ch 'X', ch 'Y', ch 'Z']
   ++ [ch '0', ch '1', ch '2', ch '3', ch '4', ch '5', ch '6', ch '7', ch '8', ch '9']

/-- G3, the reference masks of the printable characters 32 to 126. -/
def candidateMasks : List Cell :=
   [0x000, 0x600, 0x006, 0x042, 0x442, 0x222, 0x80A, 0x012, 0x812, 0x412, 0x422, 0x800]
   ++ [0x242, 0x400, 0x842, 0x300, 0x200, 0x100, 0x080, 0x040, 0x020, 0x010, 0x008, 0x004]
   ++ [0x002, 0x001, 0x082, 0x40A, 0x822, 0x00A, 0x20A, 0xA00, 0x022, 0x900, 0x880, 0x840]
   ++ [0x820, 0x810, 0x808, 0x804, 0x802, 0x801, 0x500, 0x480, 0x440, 0x420, 0x410, 0x408]
   ++ [0x404, 0x402, 0x401, 0x280, 0x240, 0x220, 0x210, 0x208, 0x204, 0x202, 0x201, 0x882]
   ++ [0x282, 0x482, 0x406, 0x212, 0x102, 0xB00, 0xA80, 0xA40, 0xA20, 0xA10, 0xA08, 0xA04]
   ++ [0xA02, 0xA01, 0xD00, 0xC80, 0xC40, 0xC20, 0xC10, 0xC08, 0xC04, 0xC02, 0xC01, 0x680]
   ++ [0x640, 0x620, 0x610, 0x608, 0x604, 0x602, 0x601, 0x206, 0x806, 0xC00, 0x700]

/-- G1, the candidate `MNEMONIC_TABLE`. -/
def candidateMnemonics : List MnemonicEntry :=
   [⟨0, [ch 'N', ch 'O', ch 'O', ch 'P'], false⟩,
     ⟨1, [ch 'S', ch 'T', ch 'O', ch 'P'], false⟩,
     ⟨10, [ch 'A', ch 'U'], true⟩,
     ⟨11, [ch 'S', ch 'U'], true⟩]
   ++ [⟨14, [ch 'D', ch 'I', ch 'V'], true⟩,
     ⟨15, [ch 'A', ch 'L'], true⟩,
     ⟨16, [ch 'S', ch 'L'], true⟩,
     ⟨17, [ch 'A', ch 'A', ch 'B', ch 'L'], true⟩]
   ++ [⟨18, [ch 'S', ch 'A', ch 'B', ch 'L'], true⟩,
     ⟨19, [ch 'M', ch 'U', ch 'L', ch 'T'], true⟩,
     ⟨20, [ch 'S', ch 'T', ch 'L'], false⟩,
     ⟨21, [ch 'S', ch 'T', ch 'U'], false⟩]
   ++ [⟨22, [ch 'S', ch 'T', ch 'D', ch 'A'], false⟩,
     ⟨23, [ch 'S', ch 'T', ch 'I', ch 'A'], false⟩,
     ⟨24, [ch 'S', ch 'T', ch 'D'], false⟩,
     ⟨30, [ch 'S', ch 'R', ch 'T'], false⟩]
   ++ [⟨31, [ch 'S', ch 'R', ch 'D'], false⟩,
     ⟨35, [ch 'S', ch 'L', ch 'T'], false⟩,
     ⟨36, [ch 'S', ch 'C', ch 'T'], false⟩,
     ⟨44, [ch 'B', ch 'R', ch 'N', ch 'Z', ch 'U'], false⟩]
   ++ [⟨45, [ch 'B', ch 'R', ch 'N', ch 'Z'], false⟩,
     ⟨46, [ch 'B', ch 'R', ch 'M', ch 'I', ch 'N'], false⟩,
     ⟨47, [ch 'B', ch 'R', ch 'O', ch 'V'], false⟩,
     ⟨60, [ch 'R', ch 'A', ch 'U'], true⟩]
   ++ [⟨61, [ch 'R', ch 'S', ch 'U'], true⟩,
     ⟨64, [ch 'D', ch 'I', ch 'V', ch 'R', ch 'U'], true⟩,
     ⟨65, [ch 'R', ch 'A', ch 'L'], true⟩,
     ⟨66, [ch 'R', ch 'S', ch 'L'], true⟩]
   ++ [⟨67, [ch 'R', ch 'A', ch 'A', ch 'B', ch 'L'], true⟩,
     ⟨68, [ch 'R', ch 'S', ch 'A', ch 'B', ch 'L'], true⟩,
     ⟨69, [ch 'L', ch 'D'], true⟩,
     ⟨70, [ch 'R', ch 'D'], false⟩]
   ++ [⟨71, [ch 'P', ch 'C', ch 'H'], false⟩,
     ⟨84, [ch 'T', ch 'L', ch 'U'], false⟩,
     ⟨90, [ch 'B', ch 'R', ch 'D', ch '1', ch '0'], false⟩,
     ⟨91, [ch 'B', ch 'R', ch 'D', ch '1'], false⟩]
   ++ [⟨92, [ch 'B', ch 'R', ch 'D', ch '2'], false⟩,
     ⟨93, [ch 'B', ch 'R', ch 'D', ch '3'], false⟩,
     ⟨94, [ch 'B', ch 'R', ch 'D', ch '4'], false⟩,
     ⟨95, [ch 'B', ch 'R', ch 'D', ch '5'], false⟩]
   ++ [⟨96, [ch 'B', ch 'R', ch 'D', ch '6'], false⟩,
     ⟨97, [ch 'B', ch 'R', ch 'D', ch '7'], false⟩,
     ⟨98, [ch 'B', ch 'R', ch 'D', ch '8'], false⟩,
     ⟨99, [ch 'B', ch 'R', ch 'D', ch '9'], false⟩]

/-- The candidate configuration: G1 to G4, with the line-feed character as `LINE_TERM` (log entries 3, 14). -/
def candidateConfig : Config :=
  { codeTable := Vector.ofFn fun k => candidateCodes.getD k.val placeholder
    holTable := Vector.ofFn fun k =>
      if 32 ≤ k.val ∧ k.val ≤ 126 then candidateMasks.getD (k.val - 32) invalidPunch else invalidPunch
    zoneNone := Vector.ofFn fun d => BitVec.ofNat 7 (48 + d.val)
    zonePlus := Vector.ofFn fun d => if d.val = 0 then ch '?' else BitVec.ofNat 7 (64 + d.val)
    zoneMinus := Vector.ofFn fun d => if d.val = 0 then ch '!' else BitVec.ofNat 7 (73 + d.val)
    mnemonics := candidateMnemonics
    lineTerm := [10#7] }

end Sys2Proof.Machine
end

