-- ==== Sys2Proof/Machine/State.lean ====
section
/-! DEFINITION. The state of the block as plain data (spec/10_state.md), the result ports
(spec/30_encoding.md R54), the collaborators' side as the model's own record (spec/20_memory.md section 2),
the reasons a step can stop, and the state after reset (spec/10_state.md R27). -/

namespace Sys2Proof.Machine

/-- PHASE (10_state.md R23). -/
inductive Phase where
  | empty
  | loading
  | loaded
  | splitting
  | joining
  | printing
  deriving DecidableEq, Repr, Inhabited

/-- The deck buffer: cells by the number 80 * card + column, addresses strictly rising. An address that is
not listed holds no value (20_memory.md R32; log entry 5). -/
abbrev Memory := List (Nat × Cell)

/-- What a collaborator's error says (20_memory.md R38): the device is absent, the unit is absent or not
attached, or another error value of the collaborator, passed through unchanged (60_exceptions.md R153). -/
inductive CollabErr where
  | nxdev
  | nxun
  | notatt
  | other (value : Nat)
  deriving DecidableEq, Repr

/-- Which collaborator call an I/O error came from (60_exceptions.md R146). -/
inductive IoStage where
  | opening
  | reading
  | writing
  | closing
  deriving DecidableEq, Repr

/-- The error kinds an operation raises, with what each records (60_exceptions.md R145). `UnknownOpcode` and
`FieldOverflow` are never raised (R149, R150). -/
inductive ErrorReport where
  | malformedArgument
  | unknownMnemonic (name : Text)
  | deckTooLarge
  | outOfRange
  | ioError (stage : IoStage) (e : CollabErr)
  | invalidPunch (mask : Cell) (column : Option Nat)
  deriving DecidableEq, Repr

/-- Why an operation is refused (60_exceptions.md R155, 93_implementation_defined.md U1, U6 to U8, U15). -/
inductive RefuseReason where
  /-- EXTRACT with a count outside -9..9 (40_wordcodec.md R72). -/
  | badDigitCount
  /-- DIGZONE with a digit above 9 or a zone that is none (41_charcodec.md R91). -/
  | contractViolation
  /-- A CharCode or opcode operand of 100 to 127 (30_encoding.md R65). -/
  | notAValue
  /-- `mode` = 3 on PARSEW or FMTW (30_encoding.md R65). -/
  | reservedForm
  /-- LOAD appending in the other mode (43_deckstore.md R122). -/
  | modeMismatch
  /-- SAVE of a Translated buffer (43_deckstore.md R123). -/
  | notRaw
  /-- SPLIT with dest1 = dest2 (43_deckstore.md R125). -/
  | sameDestination
  /-- What was presented is no operation (30_encoding.md R65). -/
  | presented (why : Reject)
  deriving DecidableEq, Repr

/-- `Known(mnemonic)` or `Unknown(op)` (42_instructioncodec.md R100). -/
inductive Lookup where
  | known (mnemonic : Text)
  | unknown (op : Nat)
  deriving DecidableEq, Repr

/-- The result of DISASM (42_instructioncodec.md R102). -/
structure Disassembly where
  found : Lookup
  opcode : Nat
  dataAddr : Nat
  instrAddr : Nat
  deriving DecidableEq, Repr

/-- The result ports (30_encoding.md R54): what the operation just completed returned, one of the three
outcomes of 00_scope.md R8. -/
inductive Port where
  /-- No operation has completed. -/
  | nothing
  | extracted (group : Nat) (remainder : Word)
  | word (w : Word)
  | text (t : Text)
  | code (k : Nat)
  | char (c : Ch)
  | mask (m : Cell)
  | disassembled (d : Disassembly)
  | operandFlag (known reads : Bool)
  /-- A target word's disassembly and its reads-operand flag (log entry 1). -/
  | translated (d : Disassembly) (reads : Bool)
  /-- A DeckStore operation completed; its counts are in CNT. -/
  | completed
  /-- An error, with what it records (60_exceptions.md R145). -/
  | failed (e : ErrorReport)
  /-- A refusal: no result (60_exceptions.md R155). -/
  | refused (why : RefuseReason)
  deriving DecidableEq, Repr

/-- The exit statuses of the command surface (60_exceptions.md R146). -/
inductive ExitStatus where
  | success
  | arg
  | nxdev
  | nxun
  | notatt
  | ierr
  /-- A propagated I/O error status: the collaborator's own value, where one came with the error. -/
  | io (value : Option CollabErr)
  deriving DecidableEq, Repr

/-- The operation a count message names (43_deckstore.md R129). -/
inductive DeckOp where
  | split
  | join
  | print
  deriving DecidableEq, Repr

/-- One call to a collaborator (20_memory.md R35 to R38), or a count message (43_deckstore.md R129). -/
inductive Call where
  | openRead (name : Text)
  | read (handle : Nat)
  | openWrite (name : Text)
  | write (handle : Nat) (row : Row)
  | release (handle : Nat)
  | console (line : Text)
  | sink2 (line : Text)
  | message (op : DeckOp) (counts : List Nat)
  deriving DecidableEq, Repr

/-- How a collaborator answers one call, where it departs from the usual (log entry 6). -/
inductive Reply where
  /-- As its files say. -/
  | usual
  /-- With success, also for a name it holds no file of. -/
  | accept
  /-- A read: with this row, taken from no file. -/
  | row (r : Row)
  /-- A read: with the end of the source. -/
  | endOfSource
  /-- With an error. -/
  | error (e : CollabErr)
  /-- Never (93_implementation_defined.md U11). -/
  | silent
  deriving DecidableEq, Repr

/-- The collaborators' side (10_state.md R28: no state of the block): the deck files by name, the names of
live attached units, the rows each open reader has still to deliver, the name each open writer writes, the
next handle, the replies to coming calls (exhausted: usual), the error for a missing name, and the calls
made, oldest first, each with whether it was answered without an error. -/
structure Collab where
  files : List (Text × List Row)
  attached : List Text
  readers : List (Nat × List Row)
  writers : List (Nat × Text)
  nextHandle : Nat
  script : List Reply
  missing : CollabErr
  trace : List (Call × Bool)
  deriving DecidableEq, Repr

/-- The state. The first ten fields are the registers and hidden state of 10_state.md R22 and R25; `config`
is read-only (R18 to R21); `pending`, `out` and `exit` are ports (R16, 30_encoding.md R63); `launchFault`,
`freeCounter` and `collab` are the model's own (log entries 2, 13, 6). -/
structure State where
  deck : Memory
  count : BitVec 14
  phase : Phase
  mode : Mode
  idx : BitVec 14
  status : BitVec 8
  errIdx : BitVec 14
  errName : Text
  cnt : List (BitVec 14)
  openHandles : List Nat
  config : Config
  pending : List Request
  out : Port
  exit : ExitStatus
  launchFault : Bool
  freeCounter : Nat
  collab : Collab
  deriving DecidableEq, Repr

/-- Why a step stops with no next state. -/
inductive Fault where
  /-- Raised by any collaborator call that is never answered (93_implementation_defined.md U11: stuck;
  70_reset_and_hazards.md R175). Safe: the hardware does not advance either. -/
  | collaboratorSilent
  /-- Raised by a read of a card at or above COUNT, or with a cell nothing has written (20_memory.md R32:
  "a fault, never a value"). Safe: no rule performs such a read, and no state that keeps the model's
  invariant reaches it. -/
  | unpopulatedCard (card : Nat)
  deriving DecidableEq, Repr

/-- Why an instruction has no meaning in the model. -/
inductive Refusal where
  /-- Raised by an arm of exec whose instruction has no meaning yet. Safe: nothing is claimed of it. No arm
  raises it. -/
  | notModelled (mnemonic : String)
  deriving DecidableEq, Repr

/-- The collaborators at reset: connected, no files, nothing attached (log entries 6, 7). -/
def Collab.initial : Collab :=
  { files := [], attached := [], readers := [], writers := [], nextHandle := 0, script := [],
    missing := .notatt, trace := [] }

/-- The state after reset with the given configured tables (10_state.md R27, 70_reset_and_hazards.md R165).
ERRIDX, ERRNAME, CNT, `out` and `exit` are unspecified there; the values are the model's (log entry 4). -/
def State.resetWith (c : Config) : State :=
  { deck := [], count := 0#14, phase := .empty, mode := .raw, idx := 0#14, status := 0#8, errIdx := 0#14,
    errName := [], cnt := [], openHandles := [], config := c, pending := [], out := .nothing,
    exit := .success, launchFault := false, freeCounter := 0, collab := Collab.initial }

/-- The machine right after reset, with the candidate tables (log entry 3). -/
def State.reset : State := State.resetWith candidateConfig

end Sys2Proof.Machine
end

