-- ==== Sys2Proof/Machine/Flags.lean ====
section
/-! DEFINITION. The codes a caller can test: PHASE and MODE (spec/10_state.md R22, R23), STATUS
(spec/60_exceptions.md R145, R146), the exit status of a command line (R146), the Known/Unknown tag
(spec/10_state.md R24). -/

namespace Sys2Proof.Machine

/-- The 3-bit code of PHASE (10_state.md R23). -/
def Phase.code : Phase → BitVec 3
  | .empty => 0
  | .loading => 1
  | .loaded => 2
  | .splitting => 3
  | .joining => 4
  | .printing => 5

/-- The bit of MODE (10_state.md R22). -/
def modeCode : Mode → BitVec 1
  | .raw => 0
  | .translated => 1

/-- The STATUS byte of a kind and a sub-kind: kind in bits 3:0, sub-kind in bits 7:4
(60_exceptions.md R146). -/
def statusByte (kind sub : Nat) : BitVec 8 := BitVec.ofNat 8 (kind + 16 * sub)

/-- STATUS of success. -/
abbrev statusOk : BitVec 8 := 0x00#8

/-- STATUS of a refusal, kind 15 (60_exceptions.md R155). -/
abbrev statusRefused : BitVec 8 := 0x0F#8

/-- `bits[3:0]` of STATUS. -/
def statusKind (st : BitVec 8) : Nat := st.toNat % 16

/-- `bits[7:4]` of STATUS. -/
def statusSub (st : BitVec 8) : Nat := st.toNat / 16

/-- The kind code (60_exceptions.md R145). -/
def ErrorReport.kind : ErrorReport → Nat
  | .malformedArgument => 1
  | .unknownMnemonic _ => 2
  | .deckTooLarge => 5
  | .outOfRange => 6
  | .ioError _ _ => 7
  | .invalidPunch _ _ => 8

/-- The sub-kind of an I/O error (60_exceptions.md R146). -/
def ioSub : IoStage → CollabErr → Nat
  | .opening, .nxdev => 1
  | .opening, .nxun => 2
  | .opening, .notatt => 3
  | .opening, .other _ => 4
  | .reading, _ => 5
  | .writing, _ => 6
  | .closing, _ => 7

/-- The sub-kind of an error: 0 but for an I/O error (60_exceptions.md R146). -/
def ErrorReport.sub : ErrorReport → Nat
  | .ioError stage e => ioSub stage e
  | _ => 0

/-- The STATUS byte of an error. -/
def ErrorReport.status (e : ErrorReport) : BitVec 8 := statusByte e.kind e.sub

/-- The exit status of an outcome (60_exceptions.md R146): read from STATUS, and for a propagated I/O error
from the collaborator's own value that the result port carries beside it. -/
def exitStatusOf (st : BitVec 8) (out : Port) : ExitStatus :=
  let own : Option CollabErr := match out with
    | .failed (.ioError _ e) => some e
    | _ => none
  match statusKind st, statusSub st with
  | 0, _ => .success
  | 1, _ => .arg
  | 5, _ => .ierr
  | 6, _ => .ierr
  | 15, _ => .ierr
  | 7, 1 => .nxdev
  | 7, 2 => .nxun
  | 7, 3 => .notatt
  | _, _ => .io own

/-- The tag of a lookup: Known = true (10_state.md R24). -/
def Lookup.isKnown : Lookup → Bool
  | .known _ => true
  | .unknown _ => false

end Sys2Proof.Machine
end

