-- ==== Sys2Proof/Machine/Operands.lean ====
section
/-! DEFINITION. Operand forms and the arithmetic they share: digit groups (spec/40_wordcodec.md R70, R71),
field reduction (spec/30_encoding.md R55), the scanners of the textual forms (R56, R57), decimal rendering
(R61), upper-casing and the repertoire (spec/41_charcodec.md R85, R94), table lookups by key
(R86, spec/42_instructioncodec.md R100, R101), split counts (spec/43_deckstore.md R124). -/

namespace Sys2Proof.Machine

/-! ### Digits of a magnitude -/

/-- `digit(m, i)` (00_scope.md R6). -/
def digitOf (m i : Nat) : Nat := m / 10 ^ i % 10

/-- `takeLeadingDigits` by the quoted algorithm (40_wordcodec.md R70), from the group taken so far. -/
def takeLeadingFrom : Nat → Nat → Nat → Nat × Nat
  | group, m, 0 => (group, m)
  | group, m, k + 1 => takeLeadingFrom (group * 10 + m / 10 ^ 9) (m % 10 ^ 9 * 10) k

/-- `takeLeadingDigits(m, k)` (40_wordcodec.md R70). -/
def takeLeadingDigits (m k : Nat) : Nat × Nat := takeLeadingFrom 0 m k

/-- `takeTrailingDigits(m, k)` (40_wordcodec.md R71). -/
def takeTrailingDigits (m k : Nat) : Nat × Nat := (m % 10 ^ k, m / 10 ^ k)

/-- The group and the remainder of EXTRACT for a count it accepts (40_wordcodec.md R72). -/
def extractDigits (w : Word) (n : Int) : Nat × Word :=
  let r := if 0 < n then takeLeadingDigits w.mag n.toNat
    else if n < 0 then takeTrailingDigits w.mag (-n).toNat
    else (0, w.mag)
  (r.1, ⟨w.sign, r.2⟩)

/-- `packInstruction`: each field modulo its width (40_wordcodec.md R73, 30_encoding.md R55). -/
def packFields (opcode dataAddr instrAddr : Nat) (sign : Sign) : Word :=
  ⟨sign, opcode % 100 * 10 ^ 8 + dataAddr % 10000 * 10 ^ 4 + instrAddr % 10000⟩

/-! ### Rendering -/

/-- The digit character of a digit. -/
def digitChar (d : Nat) : Ch := BitVec.ofNat 7 (48 + d)

/-- The `k` low decimal digits of `m`, zero-padded, most significant first (30_encoding.md R61,
42_instructioncodec.md R110). -/
def renderDigits : Nat → Nat → Text
  | 0, _ => []
  | k + 1, m => digitChar (digitOf m k) :: renderDigits k m

/-- The sign glyph: `+` for Pos, `-` for Neg (30_encoding.md R61). -/
def signGlyph : Sign → Ch
  | .pos => plusCh
  | .neg => minusCh

/-- The signed-decimal listing text (30_encoding.md R61, 40_wordcodec.md R74). -/
def formatSigned (w : Word) : Text := renderDigits 10 w.mag ++ [signGlyph w.sign]

/-! ### Scanning (the rest of the text stands for the index of the pseudocode) -/

/-- `skipSpaces` (30_encoding.md R56). -/
def skipSpaces : Text → Text
  | [] => []
  | c :: cs => if c = space then skipSpaces cs else c :: cs

/-- `scanField` from a value already scanned: keeps the last `w` digits, stops at the first non-digit
(30_encoding.md R56). -/
def scanFieldFrom (w : Nat) : Nat → Text → Nat × Text
  | v, [] => (v, [])
  | v, c :: cs =>
    if isDigitChar c then scanFieldFrom w ((v * 10 + (c.toNat - 48)) % 10 ^ w) cs else (v, c :: cs)

/-- `scanField(t, i, w)` (30_encoding.md R56). -/
def scanField (w : Nat) (t : Text) : Nat × Text := scanFieldFrom w 0 t

/-- `scanSign` (30_encoding.md R57). -/
def scanSign (s : Sign) : Text → Sign × Text
  | [] => (s, [])
  | c :: cs => if c = plusCh then (.pos, cs) else if c = minusCh then (.neg, cs) else (s, c :: cs)

/-- PARSE (40_wordcodec.md R75). -/
def parseSigned (t : Text) : Word :=
  let a := scanSign .pos (skipSpaces t)
  let m := scanField 10 (skipSpaces a.2)
  let b := scanSign a.1 (skipSpaces m.2)
  ⟨b.1, m.1⟩

/-- A letter or a digit, the case kept as written (42_instructioncodec.md R107). -/
def isLetterOrDigit (c : Ch) : Bool := isUpper c || isLower c || isDigitChar c

/-- The longest run of letters and digits at the front (42_instructioncodec.md R107). -/
def scanName (t : Text) : Text := t.takeWhile isLetterOrDigit

/-- What stands after that run. -/
def afterName (t : Text) : Text := t.dropWhile isLetterOrDigit

/-! ### Characters and codes -/

/-- `fold(c)`: `a` to `z` become `A` to `Z` (41_charcodec.md R85). -/
def fold (c : Ch) : Ch := if isLower c then c - 32#7 else c

/-- The least code of a character in `CODE_TABLE`, if there is one. -/
def codeOf (cfg : Config) (c : Ch) : Option Nat := (List.range 100).find? fun k => codeAt cfg k == c

/-- `inRepertoire(c)` (41_charcodec.md R94): `c` is an entry of `CODE_TABLE` other than the placeholder. -/
def inRepertoire (cfg : Config) (c : Ch) : Bool := c != placeholder && (codeOf cfg c).isSome

/-- `charToCode` (41_charcodec.md R86). -/
def charToCode (cfg : Config) (c : Ch) : Nat :=
  if inRepertoire cfg (fold c) then (codeOf cfg (fold c)).getD 0 else 0

/-- `codeToChar` (41_charcodec.md R87). -/
def codeToChar (cfg : Config) (k : Nat) : Ch := codeAt cfg k

/-- `charToPunch` (41_charcodec.md R89). -/
def charToPunch (cfg : Config) (c : Ch) : Cell := holAt cfg c

/-- `punchToChar` (41_charcodec.md R90): the printable character of a mask, if there is one. -/
def punchToChar (cfg : Config) (m : Cell) : Option Ch := printables.find? fun c => holAt cfg c == m

/-! ### The mnemonic table -/

/-- `lookupOpcode` (42_instructioncodec.md R100): the entry, if there is one. -/
def lookupOpcode (cfg : Config) (op : Nat) : Option MnemonicEntry := cfg.mnemonics.find? fun e => e.opcode == op

/-- `lookupMnemonic` (42_instructioncodec.md R101): character for character. -/
def lookupMnemonic (cfg : Config) (name : Text) : Option MnemonicEntry :=
  cfg.mnemonics.find? fun e => e.mnemonic == name

/-- The tag of an opcode (42_instructioncodec.md R100). -/
def lookupTag (cfg : Config) (op : Nat) : Lookup :=
  match lookupOpcode cfg op with
  | some e => .known e.mnemonic
  | none => .unknown op

/-- The reads-operand flag of an opcode; false where it has no entry (42_instructioncodec.md R104). -/
def readsOperandOf (cfg : Config) (op : Nat) : Bool :=
  match lookupOpcode cfg op with
  | some e => e.readsOperand
  | none => false

/-- `disassemble` by three extractions (42_instructioncodec.md R102). -/
def disassemble (cfg : Config) (w : Word) : Disassembly :=
  let a := extractDigits w 2
  let b := extractDigits a.2 4
  let c := extractDigits b.2 4
  ⟨lookupTag cfg a.1, a.1, b.1, c.1⟩

/-! ### The textual forms of a word (42_instructioncodec.md R106 to R111) -/

/-- `parseMnemonic` (42_instructioncodec.md R107): the word, or the name that has no entry. -/
def parseMnemonic (cfg : Config) (t : Text) : Except Text Word :=
  let a := scanSign .pos (skipSpaces t)
  let rest := skipSpaces a.2
  match lookupMnemonic cfg (scanName rest) with
  | none => .error (scanName rest)
  | some e =>
    let da := scanField 4 (skipSpaces (afterName rest))
    let ia := scanField 4 (skipSpaces da.2)
    let b := scanSign a.1 (skipSpaces ia.2)
    .ok (packFields e.opcode da.1 ia.1 b.1)

/-- `parseCharacter` from the magnitude packed so far, with `n` places left (42_instructioncodec.md R108). -/
def packCodes (cfg : Config) : Nat → Nat → Text → Nat
  | 0, m, _ => m
  | n + 1, m, [] => packCodes cfg n (m * 100) []
  | n + 1, m, c :: cs => packCodes cfg n (m * 100 + charToCode cfg c) cs

/-- `parseCharacter` (42_instructioncodec.md R108). -/
def parseCharacter (cfg : Config) (t : Text) : Word := ⟨.pos, packCodes cfg 5 0 t⟩

/-- The words `unknown opcode ` (42_instructioncodec.md R110). -/
def unknownOpcodeText : Text :=
  [ch 'u', ch 'n', ch 'k', ch 'n', ch 'o', ch 'w', ch 'n', space, ch 'o', ch 'p', ch 'c', ch 'o', ch 'd', ch 'e', space]

/-- `fmtMnemonic` (42_instructioncodec.md R110). -/
def fmtMnemonic (cfg : Config) (w : Word) : Text :=
  let d := disassemble cfg w
  let head := match d.found with
    | .known name => name
    | .unknown op => unknownOpcodeText ++ renderDigits 2 op
  head ++ [space] ++ renderDigits 4 d.dataAddr ++ [space] ++ renderDigits 4 d.instrAddr ++ [signGlyph w.sign]

/-- `fmtCharacter` with `n` codes left to peel (42_instructioncodec.md R111). -/
def peelCodes (cfg : Config) : Nat → Word → Text
  | 0, _ => []
  | n + 1, w =>
    match extractDigits w 2 with
    | (k, rest) => codeToChar cfg k :: peelCodes cfg n rest

/-- `fmtCharacter` (42_instructioncodec.md R111). -/
def fmtCharacter (cfg : Config) (w : Word) : Text := peelCodes cfg 5 w

/-! ### Cards -/

/-- `splitCounts` (43_deckstore.md R124). -/
def splitCounts (tail : Bool) (n total : Nat) : Nat × Nat :=
  let k := min n total
  if tail then (total - k, k) else (k, total - k)

/-- The characters of a row's cells, or the first column that has none and its mask
(43_deckstore.md R122). -/
def translateCells (cfg : Config) : Nat → List Cell → Except (Nat × Cell) (List Cell)
  | _, [] => .ok []
  | col, m :: ms =>
    match punchToChar cfg m with
    | none => .error (col, m)
    | some c => (translateCells cfg (col + 1) ms).map fun cs => c.setWidth 16 :: cs

/-- The character PRINT prints for a cell: fold, `?` and `!` to `0`, outside the repertoire to space
(43_deckstore.md R127). -/
def printChar (cfg : Config) (x : Cell) : Ch :=
  let c := fold (x.setWidth 7)
  let c := if c = ch '?' ∨ c = ch '!' then ch '0' else c
  if inRepertoire cfg c then c else space

/-- A text without its trailing spaces (43_deckstore.md R127). -/
def stripTrailing : Text → Text
  | [] => []
  | c :: cs =>
    match stripTrailing cs with
    | [] => if c = space then [] else [c]
    | d :: ds => c :: d :: ds

/-- `printRow` (43_deckstore.md R127). -/
def printRow (cfg : Config) (r : Row) : Text := stripTrailing (r.toList.map (printChar cfg))

end Sys2Proof.Machine
end

