-- ==== Sys2Proof/Machine/Collab.lean ====
section
/-! DEFINITION. What the collaborators do when the block calls them (spec/20_memory.md R35 to R38): the
model's own record of the outside (log entry 6). Every call takes the next reply of the script (usual once it
is exhausted), changes the collaborators' files as the call says, and is noted in the trace. -/

namespace Sys2Proof.Machine

/-- A collaborator's answer with the collaborators afterwards, or none ever. -/
inductive Answer (α : Type) where
  | ok (a : α) (c : Collab)
  | error (e : CollabErr) (c : Collab)
  | silent

/-- The reply to the coming call. -/
def Collab.nextReply (c : Collab) : Reply := c.script.headD .usual

/-- The collaborators with that reply used up and the call noted with whether it succeeded. -/
def Collab.note (c : Collab) (call : Call) (ok : Bool) : Collab :=
  { c with script := c.script.tail, trace := c.trace ++ [(call, ok)] }

/-- The value a list of pairs holds for a key. -/
def lookupKey {α β : Type} [DecidableEq α] (k : α) : List (α × β) → Option β
  | [] => none
  | (a, b) :: m => if a = k then some b else lookupKey k m

/-- A list of pairs with a key's value set, in its place or at the end. -/
def setKey {α β : Type} [DecidableEq α] (k : α) (v : β) : List (α × β) → List (α × β)
  | [] => [(k, v)]
  | (a, b) :: m => if a = k then (k, v) :: m else (a, b) :: setKey k v m

/-- A list of pairs without a key. -/
def dropKey {α β : Type} [DecidableEq α] (k : α) : List (α × β) → List (α × β)
  | [] => []
  | (a, b) :: m => if a = k then dropKey k m else (a, b) :: dropKey k m

/-- The rows of a file, if the collaborators hold one of that name. -/
def Collab.fileOf (c : Collab) (name : Text) : Option (List Row) := lookupKey name c.files

/-- A reader opened on rows: a new handle; a live attached unit of that name is detached
(20_memory.md R38; log entry 17). -/
def Collab.grantReader (c : Collab) (name : Text) (rows : List Row) : Collab :=
  { c with readers := setKey c.nextHandle rows c.readers, nextHandle := c.nextHandle + 1,
           attached := c.attached.filter (fun n => n != name) }

/-- `open_read(name)` (20_memory.md R38). Answered with an error it leaves a live attached unit of that name
attached: R38 says that the collaborator "first detaches it", and not whether it has done so when it answers with
an error, so this is the model's choice (DESIGN CHOICE, unsafe: log entry 27). -/
def Collab.openRead (c : Collab) (name : Text) : Answer Nat :=
  match c.nextReply with
  | .silent => .silent
  | .error e => .error e (c.note (.openRead name) false)
  | r =>
    match c.fileOf name with
    | some rows => .ok c.nextHandle ((c.note (.openRead name) true).grantReader name rows)
    | none =>
      if r = .accept then .ok c.nextHandle ((c.note (.openRead name) true).grantReader name [])
      else .error c.missing (c.note (.openRead name) false)

/-- `reader.read(h)` (20_memory.md R35): the next row of the handle's source, or none at its end. -/
def Collab.read (c : Collab) (h : Nat) : Answer (Option Row) :=
  match c.nextReply with
  | .silent => .silent
  | .error e => .error e (c.note (.read h) false)
  | .row r => .ok (some r) (c.note (.read h) true)
  | .endOfSource => .ok none (c.note (.read h) true)
  | _ =>
    match lookupKey h c.readers with
    | some (r :: rs) => .ok (some r) { c.note (.read h) true with readers := setKey h rs c.readers }
    | _ => .ok none (c.note (.read h) true)

/-- A writer opened on a name: a new handle, the file created or truncated (20_memory.md R38). -/
def Collab.grantWriter (c : Collab) (name : Text) : Collab :=
  { c with files := setKey name [] c.files, writers := setKey c.nextHandle name c.writers,
           nextHandle := c.nextHandle + 1 }

/-- `open_write(name)` (20_memory.md R38). Answered with an error it leaves the destination as it was, neither
created nor truncated: R38 and D42 do not say, so this is the model's choice (DESIGN CHOICE, unsafe: log
entry 26). -/
def Collab.openWrite (c : Collab) (name : Text) : Answer Nat :=
  match c.nextReply with
  | .silent => .silent
  | .error e => .error e (c.note (.openWrite name) false)
  | _ => .ok c.nextHandle ((c.note (.openWrite name) true).grantWriter name)

/-- The collaborators with one row appended to the file an open writer writes. -/
def Collab.append (c : Collab) (h : Nat) (row : Row) : Collab :=
  match lookupKey h c.writers with
  | some name => { c with files := setKey name ((c.fileOf name).getD [] ++ [row]) c.files }
  | none => c

/-- `writer.write(h, row)` (20_memory.md R36). -/
def Collab.write (c : Collab) (h : Nat) (row : Row) : Answer Unit :=
  match c.nextReply with
  | .silent => .silent
  | .error e => .error e (c.note (.write h row) false)
  | _ => .ok () ((c.note (.write h row) true).append h row)

/-- The collaborators with a handle closed. -/
def Collab.close (c : Collab) (h : Nat) : Collab :=
  { c with readers := dropKey h c.readers, writers := dropKey h c.writers }

/-- `release(h)` (20_memory.md R38): the handle is closed whatever the answer (log entry 9). -/
def Collab.release (c : Collab) (h : Nat) : Answer Unit :=
  match c.nextReply with
  | .silent => .silent
  | .error e => .error e ((c.note (.release h) false).close h)
  | _ => .ok () ((c.note (.release h) true).close h)

/-- A call that only answers Ok or an error: the two print sinks (20_memory.md R37). -/
def Collab.tell (c : Collab) (call : Call) : Answer Unit :=
  match c.nextReply with
  | .silent => .silent
  | .error e => .error e (c.note call false)
  | _ => .ok () (c.note call true)

/-- A count message: it needs no answer and uses no reply (43_deckstore.md R129). -/
def Collab.message (c : Collab) (op : DeckOp) (counts : List Nat) : Collab :=
  { c with trace := c.trace ++ [(.message op counts, true)] }

/-- Releases every handle of a list, ignoring the answers (60_exceptions.md R158); none where one never
answers. -/
def Collab.releaseAll (c : Collab) : List Nat → Option Collab
  | [] => some c
  | h :: hs =>
    match c.release h with
    | .ok _ c' => c'.releaseAll hs
    | .error _ c' => c'.releaseAll hs
    | .silent => none

end Sys2Proof.Machine
end

