-- ==== Sys2Proof/Machine/Ops.lean ====
section
/-! DEFINITION. The named operations over the buffer and the registers, the run of a multi-step operation,
and the shared ends of every operation: completing, the abort sequence (spec/60_exceptions.md R158), refusing
(R155). There is no return from an exception (R159); the hardware reset is spec/70_reset_and_hazards.md R165. -/

namespace Sys2Proof.Machine

/-! ### The deck buffer (20_memory.md R30 to R33) -/

/-- The address of a cell (20_memory.md R30). -/
abbrev cellAddr (card col : Nat) : Nat := cardColumns * card + col

/-- Addresses strictly rising: the one form a memory has. An address not listed holds no value, so no
entry can repeat what an unlisted address reads as. -/
abbrev Memory.wf (m : Memory) : Prop := m.Pairwise fun x y => x.1 < y.1

/-- The cell at an address, if one is listed. -/
def Memory.read : Memory → Nat → Option Cell
  | [], _ => none
  | (a, v) :: m, k => if a = k then some v else Memory.read m k

/-- The memory with a cell written. -/
def Memory.write : Memory → Nat → Cell → Memory
  | [], k, v => [(k, v)]
  | (a, w) :: m, k, v =>
    if k < a then (k, v) :: (a, w) :: m
    else if k = a then (k, v) :: m
    else (a, w) :: Memory.write m k v

/-- The memory with cells written from an address on. -/
def Memory.writeCells : Memory → Nat → List Cell → Memory
  | m, _, [] => m
  | m, k, v :: vs => Memory.writeCells (Memory.write m k v) (k + 1) vs

/-- The cell (card, col), readable below COUNT only (20_memory.md R32). -/
def State.readCell (s : State) (card col : Nat) : Option Cell :=
  if card < s.count.toNat ∧ col < cardColumns then Memory.read s.deck (cellAddr card col) else none

/-- `MemRead(i, 1)`: the card image of a populated card (00_scope.md R7, 20_memory.md R32, R33). -/
def State.readCard (s : State) (i : Nat) : Option Row :=
  if (List.range cardColumns).all (fun c => (s.readCell i c).isSome) then
    some (Vector.ofFn fun c => (s.readCell i c.val).getD 0#16)
  else none

/-- `MemWrite(COUNT, 1, img); COUNT <- COUNT + 1`: a card is stored whole (20_memory.md R33,
43_deckstore.md R122). -/
def State.putCard (s : State) (cells : List Cell) : State :=
  { s with deck := Memory.writeCells s.deck (cellAddr s.count.toNat 0) cells, count := s.count + 1#14 }

/-! ### Registers -/

/-- `PHASE <- p`. -/
def State.setPhase (s : State) (p : Phase) : State := { s with phase := p }

/-- `MODE <- m`. -/
def State.setMode (s : State) (m : Mode) : State := { s with mode := m }

/-- `IDX <- i`. -/
def State.setIdx (s : State) (i : BitVec 14) : State := { s with idx := i }

/-- A list of 14-bit registers with register `i` written; a register not yet there reads 0. -/
def setCntList : List (BitVec 14) → Nat → BitVec 14 → List (BitVec 14)
  | [], 0, v => [v]
  | [], i + 1, v => 0#14 :: setCntList [] i v
  | _ :: cs, 0, v => v :: cs
  | c :: cs, i + 1, v => c :: setCntList cs i v

/-- `CNT[i] <- v` (10_state.md R22). -/
def State.setCnt (s : State) (i : Nat) (v : BitVec 14) : State := { s with cnt := setCntList s.cnt i v }

/-- `CNT[i]`. -/
def State.getCnt (s : State) (i : Nat) : BitVec 14 := s.cnt.getD i 0#14

/-- The collaborators after a call. -/
def State.setCollab (s : State) (c : Collab) : State := { s with collab := c }

/-- OPEN_HANDLES with a handle added (20_memory.md R38). -/
def State.addHandle (s : State) (h : Nat) : State := { s with openHandles := s.openHandles ++ [h] }

/-- OPEN_HANDLES with a handle removed (20_memory.md R38). -/
def State.dropHandle (s : State) (h : Nat) : State :=
  { s with openHandles := s.openHandles.filter (fun x => x != h) }

/-- `storeReset()` (43_deckstore.md R121). -/
def State.storeReset (s : State) : State :=
  { s with count := 0#14, idx := 0#14, mode := .raw, phase := .empty }

/-- STATUS and the result ports, written as an operation ends (60_exceptions.md R146, 30_encoding.md R54). -/
def State.finish (s : State) (st : BitVec 8) (out : Port) : State := { s with status := st, out := out }

/-- ERRNAME and ERRIDX, where the error records them (60_exceptions.md R156). -/
def State.recordError (s : State) (name : Option Text) (i : Option (BitVec 14)) : State :=
  { s with errName := name.getD s.errName, errIdx := i.getD s.errIdx }

/-- The hardware reset (70_reset_and_hazards.md R165): no handle is released through the collaborator;
ERRIDX, ERRNAME and CNT are unspecified afterwards, so they hold free values (log entry 13). -/
def State.hardwareReset (s : State) : State :=
  { s.storeReset with
      openHandles := [], status := statusOk, out := .nothing,
      errIdx := Config.freeErrIdx s.freeCounter, errName := Config.freeErrName s.freeCounter,
      cnt := Config.freeCnt s.freeCounter, freeCounter := s.freeCounter + 1 }

/-! ### How an operation ends (00_scope.md R8) -/

/-- A result: STATUS Ok and the result ports. -/
def complete (out : Port) (s : State) : Host.Outcome State Fault Refusal := .next (s.finish statusOk out)

/-- A refusal (60_exceptions.md R155): STATUS kind 15, no result, no other state of the block changed; the
model keeps its own sticky record (R159; log entry 2). -/
def refuse (why : RefuseReason) (s : State) : Host.Outcome State Fault Refusal :=
  .next { s.finish statusRefused (.refused why) with launchFault := true }

/-- An error of a pure operation, which holds no handle and no store, so that the abort sequence reduces to
writing STATUS (60_exceptions.md R158); and of a command line that does not fit the grammar, of which R147
says that nothing changes but STATUS (log entry 10). -/
def raisePlain (e : ErrorReport) (s : State) : Host.Outcome State Fault Refusal :=
  .next (s.finish e.status (.failed e))

/-- An error as it is raised: what it reports, and the name and card index it records
(60_exceptions.md R145, R156). -/
structure Raised where
  report : ErrorReport
  name : Option Text
  index : Option (BitVec 14)
  deriving DecidableEq, Repr

/-- The abort sequence, of every error a DeckStore operation raises (60_exceptions.md R158): handles released,
ERRNAME and ERRIDX recorded, the store reset but for `OutOfRange`, STATUS written. -/
def abort (e : Raised) (s : State) : Host.Outcome State Fault Refusal :=
  match s.collab.releaseAll s.openHandles with
  | none => .fault .collaboratorSilent
  | some c =>
    let s := { s with collab := c, openHandles := [] }
    let s := s.recordError e.name e.index
    let s := if e.report = .outOfRange then s else s.storeReset
    .next (s.finish e.report.status (.failed e.report))

/-! ### The run of a multi-step operation -/

/-- Where a part of an operation leaves it: done with a value, an error raised, or the machine stopped. -/
inductive Run (α : Type) where
  | done (a : α) (s : State)
  | raised (e : Raised) (s : State)
  | halted (f : Fault)

/-- The next part of an operation, run where the part before it is done. -/
def Run.bind {α β : Type} (r : Run α) (k : α → State → Run β) : Run β :=
  match r with
  | .done a s => k a s
  | .raised e s => .raised e s
  | .halted f => .halted f

/-- The end of a DeckStore operation: a completion, the abort sequence, or a stop. -/
def Run.conclude (r : Run Unit) : Host.Outcome State Fault Refusal :=
  match r with
  | .done _ s => complete .completed s
  | .raised e s => abort e s
  | .halted f => .fault f

/-- A collaborator's answer as the next part of an operation; its error is an I/O error of the stage, with
the name and the card index where one is involved (60_exceptions.md R153, R156). -/
def Answer.toRun {α : Type} (a : Answer α) (s : State) (stage : IoStage) (name : Text)
    (index : Option (BitVec 14)) : Run α :=
  match a with
  | .ok v c => .done v (s.setCollab c)
  | .error e c => .raised ⟨.ioError stage e, some name, index⟩ (s.setCollab c)
  | .silent => .halted .collaboratorSilent

/-- `open_read(name)`: the handle is added to OPEN_HANDLES (20_memory.md R38). -/
def openRead (name : Text) (s : State) : Run Nat :=
  ((s.collab.openRead name).toRun s .opening name none).bind fun h s => .done h (s.addHandle h)

/-- `open_write(name)`. -/
def openWrite (name : Text) (s : State) : Run Nat :=
  ((s.collab.openWrite name).toRun s .opening name none).bind fun h s => .done h (s.addHandle h)

/-- `release(h)`: the handle is removed from OPEN_HANDLES, whatever the answer (log entry 9). -/
def releaseHandle (h : Nat) (name : Text) (s : State) : Run Unit :=
  (s.collab.release h).toRun (s.dropHandle h) .closing name none

/-- `reader.read(h)`. -/
def readRow (h : Nat) (name : Text) (s : State) : Run (Option Row) :=
  (s.collab.read h).toRun s .reading name (some s.idx)

/-- `writer.write(h, row)`. -/
def writeRow (h : Nat) (name : Text) (row : Row) (s : State) : Run Unit :=
  (s.collab.write h row).toRun s .writing name (some s.idx)

/-- ERRNAME of an error of the console sink (43_deckstore.md R128). -/
def consoleName : Text := [ch 'c', ch 'o', ch 'n', ch 's', ch 'o', ch 'l', ch 'e']

/-- ERRNAME of an error of the secondary sink (43_deckstore.md R128). -/
def sink2Name : Text := [ch 's', ch 'i', ch 'n', ch 'k', ch '2']

/-- `console.write(line)`. -/
def consoleWrite (line : Text) (s : State) : Run Unit :=
  (s.collab.tell (.console line)).toRun s .writing consoleName (some s.idx)

/-- `sink2.write(line)`. -/
def sink2Write (line : Text) (s : State) : Run Unit :=
  (s.collab.tell (.sink2 line)).toRun s .writing sink2Name (some s.idx)

/-- `report(op, counts) unless Q` (43_deckstore.md R129). -/
def report (quiet : Bool) (op : DeckOp) (counts : List Nat) (s : State) : State :=
  if quiet then s else s.setCollab (s.collab.message op counts)

/-! ### Loading and saving (43_deckstore.md R122, R123) -/

/-- The cells a row is stored as: its own in Raw mode, the characters of its columns in Translated mode, or
the first column that has no character and its mask (43_deckstore.md R122, 20_memory.md R31). -/
def storedCells (cfg : Config) (mode : Mode) (row : Row) : Except (Nat × Cell) (List Cell) :=
  match mode with
  | .raw => .ok row.toList
  | .translated => translateCells cfg 0 row.toList

/-- Storing one row; an undecodable column raises `InvalidPunch` (43_deckstore.md R122). -/
def storeRow (name : Text) (row : Row) (s : State) : Run Unit :=
  match storedCells s.config s.mode row with
  | .ok cells => .done () (s.putCard cells)
  | .error p => .raised ⟨.invalidPunch p.2 (some p.1), some name, some s.idx⟩ s

/-- `loadRows` (43_deckstore.md R122) with `room` = DECK_CAPACITY - COUNT cards of room left, so that a row
delivered at room 0 is the row delivered at COUNT = DECK_CAPACITY. -/
def loadRows (h : Nat) (name : Text) : Nat → State → Run Unit
  | 0, s =>
    (readRow h name (s.setIdx s.count)).bind fun r s =>
      match r with
      | none => .done () s
      | some _ => .raised ⟨.deckTooLarge, some name, some s.idx⟩ s
  | room + 1, s =>
    (readRow h name (s.setIdx s.count)).bind fun r s =>
      match r with
      | none => .done () s
      | some row => (storeRow name row s).bind fun _ s => loadRows h name room s

/-- `if PHASE = Empty: MODE <- mode`, then `PHASE <- Loading` (43_deckstore.md R122). -/
def beginLoad (mode : Mode) (s : State) : State :=
  (if s.phase = .empty then s.setMode mode else s).setPhase .loading

/-- LOAD after its refusal test (43_deckstore.md R122). -/
def loadDeck (name : Text) (mode : Mode) (s : State) : Run Unit :=
  (openRead name (beginLoad mode s)).bind fun h s1 =>
    (loadRows h name (deckCapacity - s1.count.toNat) s1).bind fun _ s2 =>
      (releaseHandle h name s2).bind fun _ s3 =>
        .done () ((s3.setPhase .loaded).setCnt 0 (s3.count - s1.count))

/-- The loop of `saveRows` (43_deckstore.md R123): `left` cards from card `i` on. -/
def writeCards (h : Nat) (name : Text) : Nat → Nat → State → Run Unit
  | 0, _, s => .done () s
  | left + 1, i, s =>
    match (s.setIdx (BitVec.ofNat 14 i)).readCard i with
    | none => .halted (.unpopulatedCard i)
    | some row => (writeRow h name row (s.setIdx (BitVec.ofNat 14 i))).bind fun _ s => writeCards h name left (i + 1) s

/-- `saveRows` (43_deckstore.md R123), with its own range test. -/
def saveRows (h : Nat) (name : Text) (start count : Nat) (s : State) : Run Unit :=
  if s.count.toNat < start + count then .raised ⟨.outOfRange, some name, none⟩ s
  else writeCards h name count start s

/-- `h <- open_write(name); saveRows(h, name, start, count); release(h)` (43_deckstore.md R123, R125,
R126). -/
def saveDeck (name : Text) (start count : Nat) (s : State) : Run Unit :=
  (openWrite name s).bind fun h s =>
    (saveRows h name start count s).bind fun _ s => releaseHandle h name s

/-- The loads of JOIN: source j's cards are counted in CNT[1 + j] (43_deckstore.md R126). -/
def loadSources : Nat → List Text → State → Run Unit
  | _, [], s => .done () s
  | j, name :: names, s =>
    (loadDeck name .raw s).bind fun _ s => loadSources (j + 1) names (s.setCnt (1 + j) (s.getCnt 0))

/-- The loop of PRINT: `left` cards from card `i` on, the console before the secondary sink
(43_deckstore.md R128). -/
def printCards (sink2 : Bool) : Nat → Nat → State → Run Unit
  | 0, _, s => .done () s
  | left + 1, i, s =>
    match (s.setIdx (BitVec.ofNat 14 i)).readCard i with
    | none => .halted (.unpopulatedCard i)
    | some row =>
      (consoleWrite (printRow s.config row) (s.setIdx (BitVec.ofNat 14 i))).bind fun _ s =>
        if sink2 then
          (sink2Write (printRow s.config row ++ s.config.lineTerm) s).bind fun _ s =>
            printCards sink2 left (i + 1) s
        else printCards sink2 left (i + 1) s

/-! ### Target words (log entry 1) -/

/-- What the block does with a target word: it disassembles it and classifies its opcode
(42_instructioncodec.md R102, R104; 00_scope.md R3: it does not execute it). -/
def translateWord (w : Word) (s : State) : Host.Outcome State Fault Refusal :=
  complete (.translated (disassemble s.config w) (readsOperandOf s.config (disassemble s.config w).opcode)) s

/-- The target word of an opcode, a sign and two addresses (30_encoding.md R47), translated. -/
def translateTarget (op : Nat) (sign : Sign) (dataAddr instrAddr : Nat) (s : State) :
    Host.Outcome State Fault Refusal :=
  translateWord (packFields op dataAddr instrAddr sign) s

/-! ### What is presented and is no instruction -/

/-- A malformed command line raises `MalformedArgument` (60_exceptions.md R147); a target word outside the
table is translated like any other (30_encoding.md R65); the rest is refused (R65). -/
def reject (why : Reject) (s : State) : Host.Outcome State Fault Refusal :=
  match why with
  | .malformedLine => raisePlain .malformedArgument s
  | .unlistedTarget w => translateWord w s
  | .resetRequest => .next s.hardwareReset
  | .reservedOpSel _ => refuse (.presented why) s
  | .unusedBits => refuse (.presented why) s
  | .badNibble => refuse (.presented why) s
  | .textTooLong => refuse (.presented why) s

/-- The exit status of a command line's outcome (30_encoding.md R63, 60_exceptions.md R146). -/
def noteExit (o : Host.Outcome State Fault Refusal) : Host.Outcome State Fault Refusal :=
  match o with
  | .next t => .next { t with exit := exitStatusOf t.status t.out }
  | .fault f => .fault f
  | .refused r => .refused r

/-- What serving a request adds around the instruction's own effect: a command line's exit status. -/
def afterServing (r : Request) (o : Host.Outcome State Fault Refusal) : Host.Outcome State Fault Refusal :=
  match r with
  | .line _ _ => noteExit o
  | .command _ => o
  | .target _ => o
  | .reset => o

/-- The caller's next request taken off the input. -/
def State.takeRequest (s : State) : State := { s with pending := s.pending.tail }

end Sys2Proof.Machine
end

