-- ==== Sys2Proof/Machine/CharCodec.lean ====
section
/-! DEFINITION. CharCodec: CH2CODE, CODE2CH, CH2PUNCH, PUNCH2CH, DIGZONE (spec/41_charcodec.md R86, R87,
R89 to R91). -/

namespace Sys2Proof.Machine

/-- CH2CODE (41_charcodec.md R86). -/
def execCh2code (c : Ch) (s : State) : Host.Outcome State Fault Refusal :=
  complete (.code (charToCode s.config c)) s

/-- CODE2CH (41_charcodec.md R87): a code of 100 to 127 is refused (30_encoding.md R65). -/
def execCode2ch (k : Nat) (s : State) : Host.Outcome State Fault Refusal :=
  if k < 100 then complete (.char (codeToChar s.config k)) s else refuse .notAValue s

/-- CH2PUNCH (41_charcodec.md R89). -/
def execCh2punch (c : Ch) (s : State) : Host.Outcome State Fault Refusal :=
  complete (.mask (charToPunch s.config c)) s

/-- PUNCH2CH (41_charcodec.md R90): `InvalidPunch` where no printable character has the mask. -/
def execPunch2ch (m : Cell) (s : State) : Host.Outcome State Fault Refusal :=
  match punchToChar s.config m with
  | some c => complete (.char c) s
  | none => raisePlain (.invalidPunch m none) s

/-- DIGZONE (41_charcodec.md R91): a digit above 9 or a zone that is none is refused. -/
def execDigzone (d : Nat) (z : Zone) (s : State) : Host.Outcome State Fault Refusal :=
  match zoneAt s.config z d with
  | some c => complete (.char c) s
  | none => refuse .contractViolation s

end Sys2Proof.Machine
end

