-- ==== Sys2Proof/Machine/DeckStore.lean ====
section
/-! DEFINITION. DeckStore: DRESET, LOAD, SAVE, SPLIT, JOIN, PRINT (spec/43_deckstore.md R121 to R128). -/

namespace Sys2Proof.Machine

/-- DRESET (43_deckstore.md R121). -/
def execDreset (s : State) : Host.Outcome State Fault Refusal := complete .completed s.storeReset

/-- LOAD (43_deckstore.md R122): refused where it would append in the other mode. -/
def execLoad (name : Text) (mode : Mode) (s : State) : Host.Outcome State Fault Refusal :=
  if s.phase = .loaded ∧ mode ≠ s.mode then refuse .modeMismatch s
  else (loadDeck name mode s).conclude

/-- SAVE (43_deckstore.md R123): a Translated buffer is refused; the range is tested before the destination
is opened. -/
def execSave (name : Text) (start count : Nat) (s : State) : Host.Outcome State Fault Refusal :=
  if s.count ≠ 0#14 ∧ s.mode = .translated then refuse .notRaw s
  else if s.count.toNat < start + count then abort ⟨.outOfRange, some name, none⟩ s
  else ((saveDeck name start count s).bind fun _ s => .done () (s.setCnt 0 (BitVec.ofNat 14 count))).conclude

/-- SPLIT after its refusal test (43_deckstore.md R125). -/
def splitRun (tail : Bool) (n : Nat) (source dest1 dest2 : Text) (quiet : Bool) (s : State) : Run Unit :=
  (loadDeck source .raw s.storeReset).bind fun _ s =>
    let s := s.setPhase .splitting
    let k := splitCounts tail n s.count.toNat
    (saveDeck dest1 0 k.1 s).bind fun _ s =>
      (saveDeck dest2 k.1 k.2 s).bind fun _ s =>
        let s := (s.setCnt 0 (BitVec.ofNat 14 k.1)).setCnt 1 (BitVec.ofNat 14 k.2)
        .done () (report quiet .split [k.1, k.2] s).storeReset

/-- SPLIT (43_deckstore.md R125): refused where both destinations have one name. -/
def execSplit (tail : Bool) (n : Nat) (source dest1 dest2 : Text) (quiet : Bool) (s : State) :
    Host.Outcome State Fault Refusal :=
  if dest1 = dest2 then refuse .sameDestination s
  else (splitRun tail n source dest1 dest2 quiet s).conclude

/-- JOIN with at least one source (43_deckstore.md R126). The message gives CNT[1..k] and the total. -/
def joinRun (sources : List Text) (dest : Text) (quiet : Bool) (s : State) : Run Unit :=
  (loadSources 0 sources s.storeReset).bind fun _ s =>
    let s := s.setPhase .joining
    let total := s.count
    (saveDeck dest 0 total.toNat s).bind fun _ s =>
      let s := s.setCnt 0 total
      let counts := (List.range sources.length).map fun j => (s.getCnt (1 + j)).toNat
      .done () (report quiet .join (counts ++ [total.toNat]) s).storeReset

/-- JOIN (43_deckstore.md R126): no source raises `MalformedArgument`, by the abort sequence like every error a
DeckStore operation raises (00_scope.md R7, 60_exceptions.md R158; log entry 10). -/
def execJoin (sources : List Text) (dest : Text) (quiet : Bool) (s : State) : Host.Outcome State Fault Refusal :=
  if sources = [] then abort ⟨.malformedArgument, none, none⟩ s
  else (joinRun sources dest quiet s).conclude

/-- PRINT (43_deckstore.md R128) as a run. -/
def printRun (source : Text) (quiet sink2 : Bool) (s : State) : Run Unit :=
  (loadDeck source .translated s.storeReset).bind fun _ s =>
    let s := s.setPhase .printing
    (printCards sink2 s.count.toNat 0 s).bind fun _ s =>
      .done () (report quiet .print [s.count.toNat] (s.setCnt 0 s.count)).storeReset

/-- PRINT (43_deckstore.md R128). -/
def execPrint (source : Text) (quiet sink2 : Bool) (s : State) : Host.Outcome State Fault Refusal :=
  (printRun source quiet sink2 s).conclude

end Sys2Proof.Machine
end

