-- ==== Sys2Proof/Machine/InstructionCodec.lean ====
section
/-! DEFINITION. InstructionCodec: DISASM, ASM, READSOP, PARSEW, FMTW (spec/42_instructioncodec.md R102 to
R111). -/

namespace Sys2Proof.Machine

/-- DISASM (42_instructioncodec.md R102): an unknown opcode is data, not an error. -/
def execDisasm (w : Word) (s : State) : Host.Outcome State Fault Refusal :=
  complete (.disassembled (disassemble s.config w)) s

/-- ASM (42_instructioncodec.md R103). -/
def execAsm (name : Text) (dataAddr instrAddr : Nat) (sign : Sign) (s : State) :
    Host.Outcome State Fault Refusal :=
  match lookupMnemonic s.config name with
  | none => raisePlain (.unknownMnemonic name) s
  | some e => complete (.word (packFields e.opcode dataAddr instrAddr sign)) s

/-- READSOP (42_instructioncodec.md R104): an operand of 100 to 127 is refused (30_encoding.md R65). -/
def execReadsop (op : Nat) (s : State) : Host.Outcome State Fault Refusal :=
  if op < 100 then
    complete (.operandFlag (lookupTag s.config op).isKnown (readsOperandOf s.config op)) s
  else refuse .notAValue s

/-- PARSEW (42_instructioncodec.md R105): text to word in the form the mode selects; mode 3 is refused. -/
def execParsew (t : Text) (form : TextForm) (s : State) : Host.Outcome State Fault Refusal :=
  match form with
  | .numeric => complete (.word (parseSigned t)) s
  | .mnemonic =>
    match parseMnemonic s.config t with
    | .ok w => complete (.word w) s
    | .error name => raisePlain (.unknownMnemonic name) s
  | .character => complete (.word (parseCharacter s.config t)) s
  | .reserved => refuse .reservedForm s

/-- FMTW (42_instructioncodec.md R109): word to text in the form the mode selects; mode 3 is refused. -/
def execFmtw (w : Word) (form : TextForm) (s : State) : Host.Outcome State Fault Refusal :=
  match form with
  | .numeric => complete (.text (formatSigned w)) s
  | .mnemonic => complete (.text (fmtMnemonic s.config w)) s
  | .character => complete (.text (fmtCharacter s.config w)) s
  | .reserved => refuse .reservedForm s

end Sys2Proof.Machine
end

