-- ==== Sys2Proof/Machine/TargetWords.lean ====
section
/-! DEFINITION. The 44 rows of format target-mnemonic-candidate (spec/30_encoding.md R64,
spec/93_implementation_defined.md G1). The block does not execute a target instruction
(spec/00_scope.md R3); what it does with its word is the translation of `translateTarget` (log entry 1). -/

namespace Sys2Proof.Machine

/-- NOOP, target opcode 00: translated (42_instructioncodec.md R102, R104), never executed. -/
def execNoop (sign : Sign) (dataAddr instrAddr : Nat) (s : State) : Host.Outcome State Fault Refusal :=
  translateTarget 0 sign dataAddr instrAddr s

/-- STOP, target opcode 01: translated (42_instructioncodec.md R102, R104), never executed. -/
def execStop (sign : Sign) (dataAddr instrAddr : Nat) (s : State) : Host.Outcome State Fault Refusal :=
  translateTarget 1 sign dataAddr instrAddr s

/-- AU, target opcode 10: translated (42_instructioncodec.md R102, R104), never executed. -/
def execAu (sign : Sign) (dataAddr instrAddr : Nat) (s : State) : Host.Outcome State Fault Refusal :=
  translateTarget 10 sign dataAddr instrAddr s

/-- SU, target opcode 11: translated (42_instructioncodec.md R102, R104), never executed. -/
def execSu (sign : Sign) (dataAddr instrAddr : Nat) (s : State) : Host.Outcome State Fault Refusal :=
  translateTarget 11 sign dataAddr instrAddr s

/-- DIV, target opcode 14: translated (42_instructioncodec.md R102, R104), never executed. -/
def execDiv (sign : Sign) (dataAddr instrAddr : Nat) (s : State) : Host.Outcome State Fault Refusal :=
  translateTarget 14 sign dataAddr instrAddr s

/-- AL, target opcode 15: translated (42_instructioncodec.md R102, R104), never executed. -/
def execAl (sign : Sign) (dataAddr instrAddr : Nat) (s : State) : Host.Outcome State Fault Refusal :=
  translateTarget 15 sign dataAddr instrAddr s

/-- SL, target opcode 16: translated (42_instructioncodec.md R102, R104), never executed. -/
def execSl (sign : Sign) (dataAddr instrAddr : Nat) (s : State) : Host.Outcome State Fault Refusal :=
  translateTarget 16 sign dataAddr instrAddr s

/-- AABL, target opcode 17: translated (42_instructioncodec.md R102, R104), never executed. -/
def execAabl (sign : Sign) (dataAddr instrAddr : Nat) (s : State) : Host.Outcome State Fault Refusal :=
  translateTarget 17 sign dataAddr instrAddr s

/-- SABL, target opcode 18: translated (42_instructioncodec.md R102, R104), never executed. -/
def execSabl (sign : Sign) (dataAddr instrAddr : Nat) (s : State) : Host.Outcome State Fault Refusal :=
  translateTarget 18 sign dataAddr instrAddr s

/-- MULT, target opcode 19: translated (42_instructioncodec.md R102, R104), never executed. -/
def execMult (sign : Sign) (dataAddr instrAddr : Nat) (s : State) : Host.Outcome State Fault Refusal :=
  translateTarget 19 sign dataAddr instrAddr s

/-- STL, target opcode 20: translated (42_instructioncodec.md R102, R104), never executed. -/
def execStl (sign : Sign) (dataAddr instrAddr : Nat) (s : State) : Host.Outcome State Fault Refusal :=
  translateTarget 20 sign dataAddr instrAddr s

/-- STU, target opcode 21: translated (42_instructioncodec.md R102, R104), never executed. -/
def execStu (sign : Sign) (dataAddr instrAddr : Nat) (s : State) : Host.Outcome State Fault Refusal :=
  translateTarget 21 sign dataAddr instrAddr s

/-- STDA, target opcode 22: translated (42_instructioncodec.md R102, R104), never executed. -/
def execStda (sign : Sign) (dataAddr instrAddr : Nat) (s : State) : Host.Outcome State Fault Refusal :=
  translateTarget 22 sign dataAddr instrAddr s

/-- STIA, target opcode 23: translated (42_instructioncodec.md R102, R104), never executed. -/
def execStia (sign : Sign) (dataAddr instrAddr : Nat) (s : State) : Host.Outcome State Fault Refusal :=
  translateTarget 23 sign dataAddr instrAddr s

/-- STD, target opcode 24: translated (42_instructioncodec.md R102, R104), never executed. -/
def execStd (sign : Sign) (dataAddr instrAddr : Nat) (s : State) : Host.Outcome State Fault Refusal :=
  translateTarget 24 sign dataAddr instrAddr s

/-- SRT, target opcode 30: translated (42_instructioncodec.md R102, R104), never executed. -/
def execSrt (sign : Sign) (dataAddr instrAddr : Nat) (s : State) : Host.Outcome State Fault Refusal :=
  translateTarget 30 sign dataAddr instrAddr s

/-- SRD, target opcode 31: translated (42_instructioncodec.md R102, R104), never executed. -/
def execSrd (sign : Sign) (dataAddr instrAddr : Nat) (s : State) : Host.Outcome State Fault Refusal :=
  translateTarget 31 sign dataAddr instrAddr s

/-- SLT, target opcode 35: translated (42_instructioncodec.md R102, R104), never executed. -/
def execSlt (sign : Sign) (dataAddr instrAddr : Nat) (s : State) : Host.Outcome State Fault Refusal :=
  translateTarget 35 sign dataAddr instrAddr s

/-- SCT, target opcode 36: translated (42_instructioncodec.md R102, R104), never executed. -/
def execSct (sign : Sign) (dataAddr instrAddr : Nat) (s : State) : Host.Outcome State Fault Refusal :=
  translateTarget 36 sign dataAddr instrAddr s

/-- BRNZU, target opcode 44: translated (42_instructioncodec.md R102, R104), never executed. -/
def execBrnzu (sign : Sign) (dataAddr instrAddr : Nat) (s : State) : Host.Outcome State Fault Refusal :=
  translateTarget 44 sign dataAddr instrAddr s

/-- BRNZ, target opcode 45: translated (42_instructioncodec.md R102, R104), never executed. -/
def execBrnz (sign : Sign) (dataAddr instrAddr : Nat) (s : State) : Host.Outcome State Fault Refusal :=
  translateTarget 45 sign dataAddr instrAddr s

/-- BRMIN, target opcode 46: translated (42_instructioncodec.md R102, R104), never executed. -/
def execBrmin (sign : Sign) (dataAddr instrAddr : Nat) (s : State) : Host.Outcome State Fault Refusal :=
  translateTarget 46 sign dataAddr instrAddr s

/-- BROV, target opcode 47: translated (42_instructioncodec.md R102, R104), never executed. -/
def execBrov (sign : Sign) (dataAddr instrAddr : Nat) (s : State) : Host.Outcome State Fault Refusal :=
  translateTarget 47 sign dataAddr instrAddr s

/-- RAU, target opcode 60: translated (42_instructioncodec.md R102, R104), never executed. -/
def execRau (sign : Sign) (dataAddr instrAddr : Nat) (s : State) : Host.Outcome State Fault Refusal :=
  translateTarget 60 sign dataAddr instrAddr s

/-- RSU, target opcode 61: translated (42_instructioncodec.md R102, R104), never executed. -/
def execRsu (sign : Sign) (dataAddr instrAddr : Nat) (s : State) : Host.Outcome State Fault Refusal :=
  translateTarget 61 sign dataAddr instrAddr s

/-- DIVRU, target opcode 64: translated (42_instructioncodec.md R102, R104), never executed. -/
def execDivru (sign : Sign) (dataAddr instrAddr : Nat) (s : State) : Host.Outcome State Fault Refusal :=
  translateTarget 64 sign dataAddr instrAddr s

/-- RAL, target opcode 65: translated (42_instructioncodec.md R102, R104), never executed. -/
def execRal (sign : Sign) (dataAddr instrAddr : Nat) (s : State) : Host.Outcome State Fault Refusal :=
  translateTarget 65 sign dataAddr instrAddr s

/-- RSL, target opcode 66: translated (42_instructioncodec.md R102, R104), never executed. -/
def execRsl (sign : Sign) (dataAddr instrAddr : Nat) (s : State) : Host.Outcome State Fault Refusal :=
  translateTarget 66 sign dataAddr instrAddr s

/-- RAABL, target opcode 67: translated (42_instructioncodec.md R102, R104), never executed. -/
def execRaabl (sign : Sign) (dataAddr instrAddr : Nat) (s : State) : Host.Outcome State Fault Refusal :=
  translateTarget 67 sign dataAddr instrAddr s

/-- RSABL, target opcode 68: translated (42_instructioncodec.md R102, R104), never executed. -/
def execRsabl (sign : Sign) (dataAddr instrAddr : Nat) (s : State) : Host.Outcome State Fault Refusal :=
  translateTarget 68 sign dataAddr instrAddr s

/-- LD, target opcode 69: translated (42_instructioncodec.md R102, R104), never executed. -/
def execLd (sign : Sign) (dataAddr instrAddr : Nat) (s : State) : Host.Outcome State Fault Refusal :=
  translateTarget 69 sign dataAddr instrAddr s

/-- RD, target opcode 70: translated (42_instructioncodec.md R102, R104), never executed. -/
def execRd (sign : Sign) (dataAddr instrAddr : Nat) (s : State) : Host.Outcome State Fault Refusal :=
  translateTarget 70 sign dataAddr instrAddr s

/-- PCH, target opcode 71: translated (42_instructioncodec.md R102, R104), never executed. -/
def execPch (sign : Sign) (dataAddr instrAddr : Nat) (s : State) : Host.Outcome State Fault Refusal :=
  translateTarget 71 sign dataAddr instrAddr s

/-- TLU, target opcode 84: translated (42_instructioncodec.md R102, R104), never executed. -/
def execTlu (sign : Sign) (dataAddr instrAddr : Nat) (s : State) : Host.Outcome State Fault Refusal :=
  translateTarget 84 sign dataAddr instrAddr s

/-- BRD10, target opcode 90: translated (42_instructioncodec.md R102, R104), never executed. -/
def execBrd10 (sign : Sign) (dataAddr instrAddr : Nat) (s : State) : Host.Outcome State Fault Refusal :=
  translateTarget 90 sign dataAddr instrAddr s

/-- BRD1, target opcode 91: translated (42_instructioncodec.md R102, R104), never executed. -/
def execBrd1 (sign : Sign) (dataAddr instrAddr : Nat) (s : State) : Host.Outcome State Fault Refusal :=
  translateTarget 91 sign dataAddr instrAddr s

/-- BRD2, target opcode 92: translated (42_instructioncodec.md R102, R104), never executed. -/
def execBrd2 (sign : Sign) (dataAddr instrAddr : Nat) (s : State) : Host.Outcome State Fault Refusal :=
  translateTarget 92 sign dataAddr instrAddr s

/-- BRD3, target opcode 93: translated (42_instructioncodec.md R102, R104), never executed. -/
def execBrd3 (sign : Sign) (dataAddr instrAddr : Nat) (s : State) : Host.Outcome State Fault Refusal :=
  translateTarget 93 sign dataAddr instrAddr s

/-- BRD4, target opcode 94: translated (42_instructioncodec.md R102, R104), never executed. -/
def execBrd4 (sign : Sign) (dataAddr instrAddr : Nat) (s : State) : Host.Outcome State Fault Refusal :=
  translateTarget 94 sign dataAddr instrAddr s

/-- BRD5, target opcode 95: translated (42_instructioncodec.md R102, R104), never executed. -/
def execBrd5 (sign : Sign) (dataAddr instrAddr : Nat) (s : State) : Host.Outcome State Fault Refusal :=
  translateTarget 95 sign dataAddr instrAddr s

/-- BRD6, target opcode 96: translated (42_instructioncodec.md R102, R104), never executed. -/
def execBrd6 (sign : Sign) (dataAddr instrAddr : Nat) (s : State) : Host.Outcome State Fault Refusal :=
  translateTarget 96 sign dataAddr instrAddr s

/-- BRD7, target opcode 97: translated (42_instructioncodec.md R102, R104), never executed. -/
def execBrd7 (sign : Sign) (dataAddr instrAddr : Nat) (s : State) : Host.Outcome State Fault Refusal :=
  translateTarget 97 sign dataAddr instrAddr s

/-- BRD8, target opcode 98: translated (42_instructioncodec.md R102, R104), never executed. -/
def execBrd8 (sign : Sign) (dataAddr instrAddr : Nat) (s : State) : Host.Outcome State Fault Refusal :=
  translateTarget 98 sign dataAddr instrAddr s

/-- BRD9, target opcode 99: translated (42_instructioncodec.md R102, R104), never executed. -/
def execBrd9 (sign : Sign) (dataAddr instrAddr : Nat) (s : State) : Host.Outcome State Fault Refusal :=
  translateTarget 99 sign dataAddr instrAddr s

end Sys2Proof.Machine
end

