-- ==== Sys2Proof/Machine/WordCodec.lean ====
section
/-! DEFINITION. WordCodec: EXTRACT, PACK, FORMAT, PARSE (spec/40_wordcodec.md R72 to R75). -/

namespace Sys2Proof.Machine

/-- EXTRACT (40_wordcodec.md R72): refused outside -9..9. -/
def execExtract (w : Word) (n : Int) (s : State) : Host.Outcome State Fault Refusal :=
  if n < -9 ∨ 9 < n then refuse .badDigitCount s
  else complete (.extracted (extractDigits w n).1 (extractDigits w n).2) s

/-- PACK (40_wordcodec.md R73). -/
def execPack (opcode dataAddr instrAddr : Nat) (sign : Sign) (s : State) : Host.Outcome State Fault Refusal :=
  complete (.word (packFields opcode dataAddr instrAddr sign)) s

/-- FORMAT (40_wordcodec.md R74). -/
def execFormat (w : Word) (s : State) : Host.Outcome State Fault Refusal :=
  complete (.text (formatSigned w)) s

/-- PARSE (40_wordcodec.md R75). -/
def execParse (t : Text) (s : State) : Host.Outcome State Fault Refusal :=
  complete (.word (parseSigned t)) s

end Sys2Proof.Machine
end

