-- ==== Sys2Proof/Machine/Dispatch.lean ====
section
/-! DEFINITION. exec: one arm per constructor of Instr, each a direct call of its meaning. -/

namespace Sys2Proof.Machine

def exec (i : Instr) (s : State) : Host.Outcome State Fault Refusal :=
  match i with
  | .extract w n => Sys2Proof.Machine.execExtract w n s
  | .pack opcode dataAddr instrAddr sign => Sys2Proof.Machine.execPack opcode dataAddr instrAddr sign s
  | .format w => Sys2Proof.Machine.execFormat w s
  | .parse t => Sys2Proof.Machine.execParse t s
  | .ch2code c => Sys2Proof.Machine.execCh2code c s
  | .code2ch k => Sys2Proof.Machine.execCode2ch k s
  | .ch2punch c => Sys2Proof.Machine.execCh2punch c s
  | .punch2ch m => Sys2Proof.Machine.execPunch2ch m s
  | .digzone d z => Sys2Proof.Machine.execDigzone d z s
  | .disasm w => Sys2Proof.Machine.execDisasm w s
  | .asm name dataAddr instrAddr sign => Sys2Proof.Machine.execAsm name dataAddr instrAddr sign s
  | .readsop k => Sys2Proof.Machine.execReadsop k s
  | .parsew t form => Sys2Proof.Machine.execParsew t form s
  | .fmtw w form => Sys2Proof.Machine.execFmtw w form s
  | .dreset => Sys2Proof.Machine.execDreset s
  | .load name mode => Sys2Proof.Machine.execLoad name mode s
  | .save name start count => Sys2Proof.Machine.execSave name start count s
  | .split tail n source dest1 dest2 quiet => Sys2Proof.Machine.execSplit tail n source dest1 dest2 quiet s
  | .join sources dest quiet => Sys2Proof.Machine.execJoin sources dest quiet s
  | .print source quiet sink2 => Sys2Proof.Machine.execPrint source quiet sink2 s
  -- target words (30_encoding.md R64)
  | .noop sign da ia => Sys2Proof.Machine.execNoop sign da ia s
  | .stop sign da ia => Sys2Proof.Machine.execStop sign da ia s
  | .au sign da ia => Sys2Proof.Machine.execAu sign da ia s
  | .su sign da ia => Sys2Proof.Machine.execSu sign da ia s
  | .div sign da ia => Sys2Proof.Machine.execDiv sign da ia s
  | .al sign da ia => Sys2Proof.Machine.execAl sign da ia s
  | .sl sign da ia => Sys2Proof.Machine.execSl sign da ia s
  | .aabl sign da ia => Sys2Proof.Machine.execAabl sign da ia s
  | .sabl sign da ia => Sys2Proof.Machine.execSabl sign da ia s
  | .mult sign da ia => Sys2Proof.Machine.execMult sign da ia s
  | .stl sign da ia => Sys2Proof.Machine.execStl sign da ia s
  | .stu sign da ia => Sys2Proof.Machine.execStu sign da ia s
  | .stda sign da ia => Sys2Proof.Machine.execStda sign da ia s
  | .stia sign da ia => Sys2Proof.Machine.execStia sign da ia s
  | .std sign da ia => Sys2Proof.Machine.execStd sign da ia s
  | .srt sign da ia => Sys2Proof.Machine.execSrt sign da ia s
  | .srd sign da ia => Sys2Proof.Machine.execSrd sign da ia s
  | .slt sign da ia => Sys2Proof.Machine.execSlt sign da ia s
  | .sct sign da ia => Sys2Proof.Machine.execSct sign da ia s
  | .brnzu sign da ia => Sys2Proof.Machine.execBrnzu sign da ia s
  | .brnz sign da ia => Sys2Proof.Machine.execBrnz sign da ia s
  | .brmin sign da ia => Sys2Proof.Machine.execBrmin sign da ia s
  | .brov sign da ia => Sys2Proof.Machine.execBrov sign da ia s
  | .rau sign da ia => Sys2Proof.Machine.execRau sign da ia s
  | .rsu sign da ia => Sys2Proof.Machine.execRsu sign da ia s
  | .divru sign da ia => Sys2Proof.Machine.execDivru sign da ia s
  | .ral sign da ia => Sys2Proof.Machine.execRal sign da ia s
  | .rsl sign da ia => Sys2Proof.Machine.execRsl sign da ia s
  | .raabl sign da ia => Sys2Proof.Machine.execRaabl sign da ia s
  | .rsabl sign da ia => Sys2Proof.Machine.execRsabl sign da ia s
  | .ld sign da ia => Sys2Proof.Machine.execLd sign da ia s
  | .rd sign da ia => Sys2Proof.Machine.execRd sign da ia s
  | .pch sign da ia => Sys2Proof.Machine.execPch sign da ia s
  | .tlu sign da ia => Sys2Proof.Machine.execTlu sign da ia s
  | .brd10 sign da ia => Sys2Proof.Machine.execBrd10 sign da ia s
  | .brd1 sign da ia => Sys2Proof.Machine.execBrd1 sign da ia s
  | .brd2 sign da ia => Sys2Proof.Machine.execBrd2 sign da ia s
  | .brd3 sign da ia => Sys2Proof.Machine.execBrd3 sign da ia s
  | .brd4 sign da ia => Sys2Proof.Machine.execBrd4 sign da ia s
  | .brd5 sign da ia => Sys2Proof.Machine.execBrd5 sign da ia s
  | .brd6 sign da ia => Sys2Proof.Machine.execBrd6 sign da ia s
  | .brd7 sign da ia => Sys2Proof.Machine.execBrd7 sign da ia s
  | .brd8 sign da ia => Sys2Proof.Machine.execBrd8 sign da ia s
  | .brd9 sign da ia => Sys2Proof.Machine.execBrd9 sign da ia s

end Sys2Proof.Machine
end

