-- ==== Sys2Proof/Machine/Present.lean ====
section
/-! DEFINITION. Serving what the caller presents (spec/10_state.md R17, spec/30_encoding.md R53): decoding
it, running the instruction, or answering what is no instruction. -/

namespace Sys2Proof.Machine

/-- One presented request served in a state it has been taken off. -/
def serve (r : Request) (s : State) : Host.Outcome State Fault Refusal :=
  match decode r with
  | .ok i => afterServing r (exec i s)
  | .error why => afterServing r (reject why s)

/-- The state with `r` as the next request, in the place of the one that stood there. -/
def presentNext (r : Request) (s : State) : State := { s with pending := r :: s.pending.tail }

/-- One step: the next presented request is served; with none presented the block waits
(70_reset_and_hazards.md R165; log entry 12). -/
def serveNext (s : State) : Host.Outcome State Fault Refusal :=
  match s.pending with
  | [] => .next s
  | r :: _ => serve r s.takeRequest

end Sys2Proof.Machine
end

