-- ==== Sys2Proof/Machine/Step.lean ====
section
/-! DEFINITION. The step of the machine: one presented request, served whole (spec/20_memory.md R40,
spec/70_reset_and_hazards.md R167). -/

namespace Sys2Proof.Machine

/-- One step. -/
def step (s : State) : Host.Outcome State Fault Refusal := serveNext s

/-- The state with an opcode-table row's bits presented next. -/
def State.withFetchWord (s : State) (nbits w : Nat) : State := presentNext (tableRequest nbits w) s

end Sys2Proof.Machine
end

