-- ==== Sys2Proof/Safety.lean ====
section
/-! DEFINITION. What the claims speak of: the invariant of a block between operations (spec/10_state.md R22,
R23, R25, R31, spec/20_memory.md R30, R32), a run without a refusal (spec/60_exceptions.md R155), the pure
operations (spec/00_scope.md R8), and the order of collaborator calls (spec/20_memory.md R41). -/

namespace Sys2Proof.Machine

/-- Every cell of a card below COUNT is written (20_memory.md R32, R33). -/
def State.Populated (s : State) : Prop :=
  ∀ card col, card < s.count.toNat → col < cardColumns → (Memory.read s.deck (cellAddr card col)).isSome = true

/-- In Translated mode a populated cell is a printable character, zero-extended (20_memory.md R31). -/
def State.CellsFitMode (s : State) : Prop :=
  s.mode = .translated → ∀ card col v, card < s.count.toNat → col < cardColumns →
    Memory.read s.deck (cellAddr card col) = some v → ∃ c : Ch, isPrintable c = true ∧ v = c.setWidth 16

/-- The invariant of the block between operations: COUNT and IDX within the capacity, the buffer in its one
form and inside its address space, every card below COUNT populated and in the buffer's mode, no handle
open, PHASE at rest (10_state.md R23), and an Empty store with no card in Raw mode. -/
structure State.Inv (s : State) : Prop where
  countBound : s.count.toNat ≤ deckCapacity
  idxBound : s.idx.toNat ≤ deckCapacity
  deckForm : Memory.wf s.deck
  deckRange : ∀ p ∈ s.deck, p.1 < cardColumns * deckCapacity
  populated : s.Populated
  cellsFitMode : s.CellsFitMode
  handles : s.openHandles = []
  phaseAtRest : s.phase = .empty ∨ s.phase = .loaded
  emptyStore : s.phase = .empty → s.count = 0#14 ∧ s.mode = .raw

/-- No refusal has occurred in the run: "no claim may be proved of a run that contains one"
(60_exceptions.md R155). -/
def State.Safe (s : State) : Prop := s.launchFault = false

/-- The six DeckStore operations; the others, and the translation of a target word, read and write no state of
the block (00_scope.md R8). -/
def isDeckOp : Instr → Bool
  | .dreset => true
  | .load _ _ => true
  | .save _ _ _ => true
  | .split _ _ _ _ _ _ => true
  | .join _ _ _ => true
  | .print _ _ _ => true
  | .extract _ _ => false
  | .pack _ _ _ _ => false
  | .format _ => false
  | .parse _ => false
  | .ch2code _ => false
  | .code2ch _ => false
  | .ch2punch _ => false
  | .punch2ch _ => false
  | .digzone _ _ => false
  | .disasm _ => false
  | .asm _ _ _ _ => false
  | .readsop _ => false
  | .parsew _ _ => false
  | .fmtw _ _ => false
  | .noop _ _ _ => false
  | .stop _ _ _ => false
  | .au _ _ _ => false
  | .su _ _ _ => false
  | .div _ _ _ => false
  | .al _ _ _ => false
  | .sl _ _ _ => false
  | .aabl _ _ _ => false
  | .sabl _ _ _ => false
  | .mult _ _ _ => false
  | .stl _ _ _ => false
  | .stu _ _ _ => false
  | .stda _ _ _ => false
  | .stia _ _ _ => false
  | .std _ _ _ => false
  | .srt _ _ _ => false
  | .srd _ _ _ => false
  | .slt _ _ _ => false
  | .sct _ _ _ => false
  | .brnzu _ _ _ => false
  | .brnz _ _ _ => false
  | .brmin _ _ _ => false
  | .brov _ _ _ => false
  | .rau _ _ _ => false
  | .rsu _ _ _ => false
  | .divru _ _ _ => false
  | .ral _ _ _ => false
  | .rsl _ _ _ => false
  | .raabl _ _ _ => false
  | .rsabl _ _ _ => false
  | .ld _ _ _ => false
  | .rd _ _ _ => false
  | .pch _ _ _ => false
  | .tlu _ _ _ => false
  | .brd10 _ _ _ => false
  | .brd1 _ _ _ => false
  | .brd2 _ _ _ => false
  | .brd3 _ _ _ => false
  | .brd4 _ _ _ => false
  | .brd5 _ _ _ => false
  | .brd6 _ _ _ => false
  | .brd7 _ _ _ => false
  | .brd8 _ _ _ => false
  | .brd9 _ _ _ => false

/-- The call opens a source. -/
def Call.opensSource : Call → Bool
  | .openRead _ => true
  | _ => false

/-- The call reads a source. -/
def Call.readsSource : Call → Bool
  | .read _ => true
  | _ => false

/-- The call opens a destination. -/
def Call.opensDest : Call → Bool
  | .openWrite _ => true
  | _ => false

/-- The call opened a handle, given whether it succeeded. -/
def opensHandle (c : Call × Bool) : Bool := (c.1.opensSource || c.1.opensDest) && c.2

/-- The call releases a handle, whatever the answer. -/
def releasesHandle (c : Call × Bool) : Bool :=
  match c.1 with
  | .release _ => true
  | _ => false

/-- In a list of calls every handle that was read is released after the read, and as many handles are released
as were opened. -/
def allReleased (calls : List (Call × Bool)) : Prop :=
  (∀ before after h ok, calls = before ++ (.read h, ok) :: after → ∃ ok', (Call.release h, ok') ∈ after) ∧
  calls.countP opensHandle = calls.countP releasesHandle

/-- In a list of calls, where a destination is opened, every source opened before is released, and no source is
opened or read after (20_memory.md R41). -/
def sourcesFirst (calls : List (Call × Bool)) : Prop :=
  ∀ before after call ok, calls = before ++ (call, ok) :: after → call.opensDest = true →
    allReleased before ∧ ∀ c ∈ after, c.1.opensSource = false ∧ c.1.readsSource = false

/-- The store is as `storeReset()` leaves it (43_deckstore.md R121). -/
def State.storeEmpty (s : State) : Prop :=
  s.count = 0#14 ∧ s.idx = 0#14 ∧ s.mode = .raw ∧ s.phase = .empty

/-- A row whose every column has a character, with those characters (43_deckstore.md R122). -/
def translatesTo (cfg : Config) (r : Row) (chars : Vector Ch 80) : Prop :=
  ∀ c : Fin 80, punchToChar cfg r[c] = some chars[c]

/-- The calls of reading a source of `n` rows to its end under one handle, all answered (20_memory.md
R35, R38; 70_reset_and_hazards.md R174). -/
def sourceCalls (name : Text) (h n : Nat) : List (Call × Bool) :=
  (.openRead name, true) :: (List.replicate (n + 1) (.read h, true) ++ [(.release h, true)])

/-- The calls of reading several sources one after the other, each under the next handle (43_deckstore.md R126:
each is released before the next is opened). -/
def sourcesCalls : Nat → List (Text × List Row) → List (Call × Bool)
  | _, [] => []
  | h, p :: ps => sourceCalls p.1 h p.2.length ++ sourcesCalls (h + 1) ps

/-- The calls of writing rows to a destination under one handle, all answered (20_memory.md R36, R38). -/
def destCalls (name : Text) (h : Nat) (rows : List Row) : List (Call × Bool) :=
  (.openWrite name, true) :: (rows.map (fun r => (Call.write h r, true)) ++ [(.release h, true)])

/-- The state after an operation that returns a result and writes nothing else: STATUS Ok and the result
ports (00_scope.md R8, 60_exceptions.md R146). -/
abbrev State.withResult (s : State) (out : Port) : State := { s with status := 0x00#8, out := out }

/-- The state after a refusal: STATUS kind 15, no result, the model's sticky record (60_exceptions.md R155). -/
abbrev State.withRefusal (s : State) (why : RefuseReason) : State :=
  { s with status := 0x0F#8, out := .refused why, launchFault := true }

/-- The state after an error that changes STATUS alone: the byte and what the error records
(60_exceptions.md R145, R146). -/
abbrev State.withError (s : State) (st : BitVec 8) (e : ErrorReport) : State :=
  { s with status := st, out := .failed e }

/-- The text of an optional sign marker (30_encoding.md R57). -/
def markText : Option Sign → Text
  | none => []
  | some .pos => [plusCh]
  | some .neg => [minusCh]

/-- The sign of a text with a leading and a trailing marker: "the last sign marker seen wins"
(30_encoding.md R57). -/
def lastMark (front back : Option Sign) : Sign :=
  match back, front with
  | some s, _ => s
  | none, some s => s
  | none, none => .pos

/-- What may stand where the scan of a text ends with no trailing marker: nothing, or a character that is no
space and no marker, and a digit only where the last field was full before it, set off by a space
(30_encoding.md R56, R57). -/
def endsScan (digitsOver : Prop) : Text → Prop
  | [] => True
  | x :: _ => x ≠ space ∧ x ≠ plusCh ∧ x ≠ minusCh ∧ (isDigitChar x = true → digitsOver)

/-- A line made of the given words, no word empty or with a space in it, with runs of spaces between them
(30_encoding.md R63: "split at runs of spaces"). -/
def lineOf : List Text → Text → Prop
  | [], l => ∃ k, l = List.replicate k space
  | w :: ws, l => ∃ k rest, l = List.replicate k space ++ w ++ rest ∧ w ≠ [] ∧ (∀ x ∈ w, x ≠ space) ∧
      (∀ x ∈ rest.head?, x = space) ∧ lineOf ws rest

end Sys2Proof.Machine
end

