-- ==== Sys2Proof/Certificates/Slice0/Obligations.lean ====
section
/-! DEFINITION. The statements for the provers, from the numbered rules of spec/. Each docstring names the
rule, or says that the statement is the model's own choice and names the log entry. -/

open Sys2Proof Sys2Proof.Machine

/-! ### Presenting, decoding, stepping -/

/-- 10_state.md R17, 30_encoding.md R53: a step serves the next presented request by running the instruction
it decodes to, in the state with the request taken off. That a command byte starts an operation is R53; that a
target word presented alone is a request is the model's choice of log entry 1 (the spec has no operation without
a command byte), and that a command line is one, with the exit status noted besides (30_encoding.md R63), is the
model's choice of log entry 11. -/
def Obligations.StepRunsDecodedInstruction : Prop :=
  ∀ (s : State) (r : Request) (rest : List Request) (i : Instr),
    s.pending = r :: rest → decode r = .ok i →
      (∀ p, r = .command p → step s = exec i { s with pending := rest }) ∧
      (∀ w, r = .target w → step s = exec i { s with pending := rest }) ∧
      (∀ l k t, r = .line l k → exec i { s with pending := rest } = .next t →
        step s = .next { t with exit := exitStatusOf t.status t.out })

/-- 30_encoding.md R46, R53: words written out from the spec's encodings decode to their instructions. The last
clause is the model's choice: that a bare target word is decoded at all is log entry 1, and that opcode 69 is LD
is a candidate row of spec/opcode_table.json, which 30_encoding.md R64 calls not normative. -/
def Obligations.SpecWordsDecode : Prop :=
  decodeWord 0x16912345678#41 = .ok ⟨.neg, 6912345678⟩ ∧
  decodeWord 0x10000000000#41 = .ok ⟨.neg, 0⟩ ∧
  decode (.command { InPorts.zero with cmd := 0x00#8, word := 0x01234567890#41, digits := 0b11100#5 })
    = .ok (.extract ⟨.pos, 1234567890⟩ (-4)) ∧
  decode (.command { InPorts.zero with cmd := 0x2C#8 }) = .ok (.parsew [] .mnemonic) ∧
  decode (.command { InPorts.zero with cmd := 0x06#8, char := 65#7 }) = .ok (.ch2punch 65#7) ∧
  decode (.command { InPorts.zero with cmd := 0x93#8, tail := 1#1, splitCount := 40#32 })
    = .ok (.split true 40 [] [] [] true) ∧
  decode (.target 0x16912345678#41) = .ok (.ld .neg 1234 5678)

/-- 30_encoding.md R53, R54, R46, R47, R52: decoding the presentation of a well-formed instruction gives it back,
every operand at every value its port admits. -/
def Obligations.DecodeEncodeRoundTrip : Prop :=
  ∀ i : Instr, i.wellFormed = true → decode (encode i) = .ok i

/-- 30_encoding.md R65: reserved `op_sel` values, and unused bits that are not 0, are refused by the step: STATUS
kind 15, nothing else of the block changed (a refusal as a next state: log entry 2). -/
def Obligations.ReservedCommandsRefused : Prop :=
  ∀ (s : State) (p : InPorts) (rest : List Request), s.pending = .command p :: rest →
    ((opSel p.cmd = 0x0E ∨ opSel p.cmd = 0x0F ∨ 0x16 ≤ opSel p.cmd) →
      step s = .next (State.withRefusal { s with pending := rest } (.presented (.reservedOpSel (opSel p.cmd))))) ∧
    ((opSel p.cmd ≤ 0x0B ∨ opSel p.cmd = 0x10 ∨ opSel p.cmd = 0x12) →
      (modeBits p.cmd ≠ 0 ∨ quietBit p.cmd = true) →
      step s = .next (State.withRefusal { s with pending := rest } (.presented .unusedBits))) ∧
    ((opSel p.cmd = 0x0C ∨ opSel p.cmd = 0x0D) → quietBit p.cmd = true →
      step s = .next (State.withRefusal { s with pending := rest } (.presented .unusedBits))) ∧
    (opSel p.cmd = 0x11 → (2 ≤ modeBits p.cmd ∨ quietBit p.cmd = true) →
      step s = .next (State.withRefusal { s with pending := rest } (.presented .unusedBits))) ∧
    ((opSel p.cmd = 0x13 ∨ opSel p.cmd = 0x14 ∨ opSel p.cmd = 0x15) → modeBits p.cmd ≠ 0 →
      step s = .next (State.withRefusal { s with pending := rest } (.presented .unusedBits)))

/-- 30_encoding.md R46, R65: a word operand with a BCD nibble of 10 to 15 is refused (log entry 2), of FMTW in
each of its three modes; a target word so too (log entry 1). -/
def Obligations.BadNibbleRefused : Prop :=
  ∀ (s : State) (rest : List Request) (v : BitVec 41) (k : Nat), k < 10 → 10 ≤ v.toNat / 16 ^ k % 16 →
    (∀ p : InPorts, p.word = v →
      (p.cmd = 0x00#8 ∨ p.cmd = 0x02#8 ∨ p.cmd = 0x09#8 ∨ p.cmd = 0x0D#8 ∨ p.cmd = 0x2D#8 ∨ p.cmd = 0x4D#8) →
      s.pending = .command p :: rest →
      step s = .next (State.withRefusal { s with pending := rest } (.presented .badNibble))) ∧
    (s.pending = .target v :: rest →
      step s = .next (State.withRefusal { s with pending := rest } (.presented .badNibble)))

/-- 20_memory.md R40: every step that answers a next state takes exactly the next request off the input, and
leaves the four tables as they are (20_memory.md R44, 10_state.md R28); with no request presented the block waits
(70_reset_and_hazards.md R165; that a waiting step is a step is the model's choice of log entry 12). -/
def Obligations.StepTakesOneRequest : Prop :=
  (∀ s t : State, step s = .next t → t.pending = s.pending.tail ∧ t.config = s.config) ∧
  (∀ s : State, s.pending = [] → step s = .next s)

/-! ### WordCodec -/

/-- 40_wordcodec.md R72 with R70 and R71: EXTRACT peels leading digits for n in 1..9 and trailing digits for n in
-9..-1, keeps the sign on the remainder, is the identity with group 0 for n = 0, and is refused otherwise (log entry 2). -/
def Obligations.ExtractPeelsDigits : Prop :=
  ∀ (s : State) (w : Word), w.WellFormed →
    (∀ k : Nat, 1 ≤ k → k ≤ 9 → exec (.extract w (k : Int)) s =
      .next (s.withResult (.extracted (w.mag / 10 ^ (10 - k)) ⟨w.sign, w.mag % 10 ^ (10 - k) * 10 ^ k⟩))) ∧
    (∀ k : Nat, 1 ≤ k → k ≤ 9 → exec (.extract w (-(k : Int))) s =
      .next (s.withResult (.extracted (w.mag % 10 ^ k) ⟨w.sign, w.mag / 10 ^ k⟩))) ∧
    exec (.extract w 0) s = .next (s.withResult (.extracted 0 w)) ∧
    (∀ n : Int, n < -9 ∨ 9 < n → exec (.extract w n) s = .next (s.withRefusal .badDigitCount))

/-- 40_wordcodec.md R73: PACK builds the word of its fields, each modulo its width; the result has ten digits. -/
def Obligations.PackReducesFields : Prop :=
  ∀ (s : State) (op da ia : Nat) (sg : Sign),
    exec (.pack op da ia sg) s = .next (s.withResult (.word
      ⟨sg, op % 100 * 10 ^ 8 + da % 10000 * 10 ^ 4 + ia % 10000⟩)) ∧
    op % 100 * 10 ^ 8 + da % 10000 * 10 ^ 4 + ia % 10000 < 10 ^ 10

/-- 40_wordcodec.md R74: FORMAT gives eleven characters, the ten digits most significant first and the sign. -/
def Obligations.FormatRendersDigits : Prop :=
  ∀ (s : State) (w : Word), w.WellFormed →
    ∃ t : Text, exec (.format w) s = .next (s.withResult (.text t)) ∧ t.length = 11 ∧
      (∀ i : Nat, i < 10 → t[i]? = some (BitVec.ofNat 7 (48 + w.mag / 10 ^ (9 - i) % 10))) ∧
      t[10]? = some (if w.sign = .pos then 43#7 else 45#7)

/-- 40_wordcodec.md R79: PARSE gives back what FORMAT wrote, negative zero included; the two zeros have
different texts; FORMAT of PARSE is the text itself only for texts of the eleven-character form. -/
def Obligations.FormatParseRoundTrip : Prop :=
  (∀ (s : State) (w : Word), w.WellFormed →
    ∃ t : Text, exec (.format w) s = .next (s.withResult (.text t)) ∧
      exec (.parse t) s = .next (s.withResult (.word w))) ∧
  (∀ s : State, exec (.format ⟨.neg, 0⟩) s ≠ exec (.format ⟨.pos, 0⟩) s) ∧
  (∀ (s : State) (t u : Text) (w : Word), exec (.parse t) s = .next (s.withResult (.word w)) →
    exec (.format w) s = .next (s.withResult (.text u)) →
    (u = t ↔ ∃ v : Word, v.WellFormed ∧ exec (.format v) s = .next (s.withResult (.text t))))

/-- 40_wordcodec.md R75 with 30_encoding.md R56, R57: PARSE of spaces, an optional marker, spaces, digits or none,
spaces, an optional marker, then anything (without a trailing marker, anything that ends the scan; a digit after
digits and a space does). The value keeps the last ten digits, 0 for none, and the last marker wins. With no digit
a single marker is the front one. -/
def Obligations.ParseReadsSignedDecimal : Prop :=
  ∀ (s : State) (a b d : Nat) (front back : Option Sign) (ds rest : Text),
    (ds = [] → front = none → back = none) → (∀ x ∈ ds, isDigitChar x = true) →
    (back = none → endsScan (ds ≠ [] ∧ 0 < d) rest) →
    exec (.parse (List.replicate a space ++ markText front ++ List.replicate b space ++ ds
      ++ List.replicate d space ++ markText back ++ rest)) s =
      .next (s.withResult (.word ⟨lastMark front back, digitsValue ds % 10 ^ 10⟩))

/-- 40_wordcodec.md R78: three EXTRACTs recover the fields of a packed word, and five recover the CharCodes of
a character word; the sign stays on the remainder. The spec marks this law as derived from R70 and R73. -/
def Obligations.FieldPeelLaw : Prop :=
  (∀ (s : State) (op da ia : Nat) (sg : Sign), op ≤ 99 → da ≤ 9999 → ia ≤ 9999 →
    ∃ w0 w1 w2 : Word, w0 = ⟨sg, op * 10 ^ 8 + da * 10 ^ 4 + ia⟩ ∧
      exec (.pack op da ia sg) s = .next (s.withResult (.word w0)) ∧
      exec (.extract w0 2) s = .next (s.withResult (.extracted op w1)) ∧
      exec (.extract w1 4) s = .next (s.withResult (.extracted da w2)) ∧
      exec (.extract w2 4) s = .next (s.withResult (.extracted ia ⟨sg, 0⟩))) ∧
  (∀ (s : State) (k0 k1 k2 k3 k4 : Nat) (sg : Sign), k0 ≤ 99 → k1 ≤ 99 → k2 ≤ 99 → k3 ≤ 99 → k4 ≤ 99 →
    ∃ w1 w2 w3 w4 : Word,
      exec (.extract ⟨sg, k0 * 10 ^ 8 + k1 * 10 ^ 6 + k2 * 10 ^ 4 + k3 * 10 ^ 2 + k4⟩ 2) s
        = .next (s.withResult (.extracted k0 w1)) ∧
      exec (.extract w1 2) s = .next (s.withResult (.extracted k1 w2)) ∧
      exec (.extract w2 2) s = .next (s.withResult (.extracted k2 w3)) ∧
      exec (.extract w3 2) s = .next (s.withResult (.extracted k3 w4)) ∧
      exec (.extract w4 2) s = .next (s.withResult (.extracted k4 ⟨sg, 0⟩)))

/-! ### CharCodec -/

/-- 41_charcodec.md R85, R86: CH2CODE gives the least code of the upper-cased character where it is in the
repertoire, and 0 otherwise; `a` to `z` (97 to 122) are upper-cased to the character 32 below, and every other
character stays. -/
def Obligations.CharCodeIsLeast : Prop :=
  ∀ (s : State) (x : Ch),
    let up : Ch := if 97 ≤ x.toNat ∧ x.toNat ≤ 122 then x - 32#7 else x
    fold x = up ∧
    ∃ k : Nat, exec (.ch2code x) s = .next (s.withResult (.code k)) ∧ k < 100 ∧
      ((up ≠ 126#7 ∧ ∃ j, j < 100 ∧ codeAt s.config j = up) →
        codeAt s.config k = up ∧ ∀ j, j < k → codeAt s.config j ≠ up) ∧
      (¬ (up ≠ 126#7 ∧ ∃ j, j < 100 ∧ codeAt s.config j = up) → k = 0)

/-- 41_charcodec.md R87, 30_encoding.md R65: CODE2CH reads the table for a code 0 to 99 and is refused for
100 to 127 (log entry 2). -/
def Obligations.CodeToCharReadsTable : Prop :=
  ∀ (s : State) (k : Nat),
    (∀ h : k < 100, exec (.code2ch k) s = .next (s.withResult (.char (s.config.codeTable[k]'h)))) ∧
    (100 ≤ k → exec (.code2ch k) s = .next (s.withRefusal .notAValue))

/-- 41_charcodec.md R88: the code mapping is lossy one way, for every well-formed table. The spec marks the first
clause, its (a), as derived from R86 and R87, and the third, its (c), as derived from R86. -/
def Obligations.CodeMappingLossyOneWay : Prop :=
  ∀ s : State, configOk s.config = true →
    (∀ x : Ch, inRepertoire s.config (fold x) = true →
      ∃ k, exec (.ch2code x) s = .next (s.withResult (.code k)) ∧
        exec (.code2ch k) s = .next (s.withResult (.char (fold x)))) ∧
    (∀ k, k < 100 → k ≠ 0 → codeAt s.config k = placeholder →
      exec (.code2ch k) s = .next (s.withResult (.char placeholder)) ∧
      exec (.ch2code placeholder) s = .next (s.withResult (.code 0))) ∧
    (∀ j k, j < k → k < 100 → codeAt s.config j = codeAt s.config k → codeAt s.config k ≠ placeholder →
      (∀ i, i < j → codeAt s.config i ≠ codeAt s.config k) →
      exec (.code2ch k) s = .next (s.withResult (.char (codeAt s.config k))) ∧
      exec (.ch2code (codeAt s.config k)) s = .next (s.withResult (.code j))) ∧
    (∀ k, k < 100 → (exec (.ch2code (codeAt s.config k)) s = .next (s.withResult (.code k)) ↔
      codeAt s.config k ≠ placeholder ∧ ∀ j, j < k → codeAt s.config j ≠ codeAt s.config k))

/-- 41_charcodec.md R89, 10_state.md R19: CH2PUNCH reads the table for every character; in a well-formed table
controls and 127 give 0x1000, and a printable character row bits only. That the space gives 0 and a digit its own
row alone, and which bit a row is, rests on 10_state.md R19 condition 6 and the bits of 30_encoding.md R49, which
the spec marks as general knowledge and not in its source: log entry 23 (PRESUMED). -/
def Obligations.CharToPunchReadsTable : Prop :=
  ∀ (s : State) (x : Ch),
    exec (.ch2punch x) s = .next (s.withResult (.mask (s.config.holTable[x.toNat]'x.isLt))) ∧
    (configOk s.config = true →
      ((x.toNat < 32 ∨ x = 127#7) → s.config.holTable[x.toNat]'x.isLt = 0x1000#16) ∧
      (x = 32#7 → s.config.holTable[x.toNat]'x.isLt = 0#16) ∧
      (∀ d : Nat, d ≤ 9 → x = BitVec.ofNat 7 (48 + d) → s.config.holTable[x.toNat]'x.isLt = 0x200#16 >>> d) ∧
      (isPrintable x = true → s.config.holTable[x.toNat]'x.isLt &&& 0xF000#16 = 0#16))

/-- 41_charcodec.md R90: PUNCH2CH gives the printable character of a mask, and `InvalidPunch` with STATUS 0x08
where there is none, which in a well-formed table is every mask with a bit of 15:12 set (ERRNAME and ERRIDX
stay: log entry 15). -/
def Obligations.PunchToCharDecodes : Prop :=
  ∀ (s : State) (m : Cell), configOk s.config = true →
    (∀ x : Ch, isPrintable x = true → holAt s.config x = m →
      exec (.punch2ch m) s = .next (s.withResult (.char x))) ∧
    ((∀ x : Ch, isPrintable x = true → holAt s.config x ≠ m) →
      exec (.punch2ch m) s = .next (s.withError 0x08#8 (.invalidPunch m none))) ∧
    (m &&& 0xF000#16 ≠ 0#16 → exec (.punch2ch m) s = .next (s.withError 0x08#8 (.invalidPunch m none)))

/-- 41_charcodec.md R93: the punch mapping is a bijection on the printable characters, and the mask of a
control character or 127 has no inverse. The spec marks the second clause, CH2PUNCH after PUNCH2CH, as derived from
R89, R90 and 10_state.md R19; that the error of the third clause keeps ERRNAME and ERRIDX is log entry 15. -/
def Obligations.PunchBijection : Prop :=
  ∀ s : State, configOk s.config = true →
    (∀ x : Ch, isPrintable x = true → ∃ m, exec (.ch2punch x) s = .next (s.withResult (.mask m)) ∧
      m ≠ 0x1000#16 ∧ exec (.punch2ch m) s = .next (s.withResult (.char x))) ∧
    (∀ (m : Cell) (x : Ch), exec (.punch2ch m) s = .next (s.withResult (.char x)) →
      exec (.ch2punch x) s = .next (s.withResult (.mask m))) ∧
    (∀ x : Ch, x.toNat < 32 ∨ x = 127#7 → exec (.ch2punch x) s = .next (s.withResult (.mask 0x1000#16)) ∧
      exec (.punch2ch 0x1000#16) s = .next (s.withError 0x08#8 (.invalidPunch 0x1000#16 none)))

/-- 41_charcodec.md R91: DIGZONE gives the glyph `ZONE_TABLE[zone][digit]`: the plain digit for no zone, and for
plus and minus twenty glyphs that are all different and no digits; a digit above 9 or zone 3 is refused (log
entry 2). R91 calls `?` and `!` the glyphs of the zoned zeros; that `?` is plus zero and `!` minus zero is
10_state.md R20 condition 3, which the spec marks as general knowledge and not in its source: log entry 23
(PRESUMED). -/
def Obligations.DigitZoneGlyphs : Prop :=
  ∀ s : State, configOk s.config = true →
    (∀ d, d ≤ 9 → exec (.digzone d .none) s = .next (s.withResult (.char (BitVec.ofNat 7 (48 + d))))) ∧
    (∀ d : Fin 10,
      exec (.digzone d.val .plus) s = .next (s.withResult (.char s.config.zonePlus[d])) ∧
      exec (.digzone d.val .minus) s = .next (s.withResult (.char s.config.zoneMinus[d])) ∧
      isDigitChar s.config.zonePlus[d] = false ∧ isDigitChar s.config.zoneMinus[d] = false) ∧
    (∀ d e : Fin 10, s.config.zonePlus[d] ≠ s.config.zoneMinus[e] ∧
      (d ≠ e → s.config.zonePlus[d] ≠ s.config.zonePlus[e] ∧ s.config.zoneMinus[d] ≠ s.config.zoneMinus[e])) ∧
    exec (.digzone 0 .plus) s = .next (s.withResult (.char 63#7)) ∧
    exec (.digzone 0 .minus) s = .next (s.withResult (.char 33#7)) ∧
    (∀ d z, 9 < d ∨ z = .notAZone → exec (.digzone d z) s = .next (s.withRefusal .contractViolation))

/-- 41_charcodec.md R92: overprinting: the mask of a zoned digit is the digit's mask with row 12 or row 11 set,
and PUNCH2CH reads the combined column back as the zoned glyph. The spec marks this law as derived from
10_state.md R20 condition 4, its own decision D13. -/
def Obligations.OverprintMasks : Prop :=
  ∀ (s : State) (d : Nat), configOk s.config = true → d ≤ 9 →
    ∃ g gp gm m, exec (.digzone d .none) s = .next (s.withResult (.char g)) ∧
      exec (.digzone d .plus) s = .next (s.withResult (.char gp)) ∧
      exec (.digzone d .minus) s = .next (s.withResult (.char gm)) ∧
      exec (.ch2punch g) s = .next (s.withResult (.mask m)) ∧
      exec (.ch2punch gp) s = .next (s.withResult (.mask (m ||| 0x800#16))) ∧
      exec (.ch2punch gm) s = .next (s.withResult (.mask (m ||| 0x400#16))) ∧
      exec (.punch2ch (m ||| 0x800#16)) s = .next (s.withResult (.char gp)) ∧
      exec (.punch2ch (m ||| 0x400#16)) s = .next (s.withResult (.char gm))

/-! ### InstructionCodec -/

/-- 42_instructioncodec.md R102: DISASM gives the three fields, whatever the sign, and the mnemonic of the table
entry with that opcode, or the raw opcode where there is none; STATUS stays Ok. -/
def Obligations.DisassembleGivesFields : Prop :=
  ∀ (s : State) (w : Word), configOk s.config = true → w.WellFormed →
    (∀ e ∈ s.config.mnemonics, e.opcode = w.mag / 10 ^ 8 →
      exec (.disasm w) s = .next (s.withResult (.disassembled
        ⟨.known e.mnemonic, w.mag / 10 ^ 8, w.mag / 10 ^ 4 % 10 ^ 4, w.mag % 10 ^ 4⟩))) ∧
    ((∀ e ∈ s.config.mnemonics, e.opcode ≠ w.mag / 10 ^ 8) →
      exec (.disasm w) s = .next (s.withResult (.disassembled
        ⟨.unknown (w.mag / 10 ^ 8), w.mag / 10 ^ 8, w.mag / 10 ^ 4 % 10 ^ 4, w.mag % 10 ^ 4⟩)))

/-- 42_instructioncodec.md R103: ASM packs the opcode of the mnemonic's entry with the addresses reduced, and
raises `UnknownMnemonic` (STATUS 0x02) where there is no entry (ERRNAME stays: log entry 15). -/
def Obligations.AssembleByMnemonic : Prop :=
  ∀ (s : State) (da ia : Nat) (sg : Sign), configOk s.config = true →
    (∀ e ∈ s.config.mnemonics, exec (.asm e.mnemonic da ia sg) s = .next (s.withResult (.word
      ⟨sg, e.opcode * 10 ^ 8 + da % 10000 * 10 ^ 4 + ia % 10000⟩))) ∧
    (∀ name : Text, (∀ e ∈ s.config.mnemonics, e.mnemonic ≠ name) →
      exec (.asm name da ia sg) s = .next (s.withError 0x02#8 (.unknownMnemonic name)))

/-- 42_instructioncodec.md R112: for every table mnemonic, DISASM of ASM gives the mnemonic, its opcode and the
addresses, which for values of 10000 or more are taken modulo 10000. -/
def Obligations.AssembleDisassembleRoundTrip : Prop :=
  ∀ (s : State) (da ia : Nat) (sg : Sign) (e : MnemonicEntry), configOk s.config = true →
    e ∈ s.config.mnemonics →
    ∃ w : Word, w = ⟨sg, e.opcode * 10 ^ 8 + da % 10000 * 10 ^ 4 + ia % 10000⟩ ∧
      exec (.asm e.mnemonic da ia sg) s = .next (s.withResult (.word w)) ∧
      exec (.disasm w) s = .next (s.withResult (.disassembled
        ⟨.known e.mnemonic, e.opcode, da % 10000, ia % 10000⟩)) ∧
      (da ≤ 9999 → da % 10000 = da) ∧ (ia ≤ 9999 → ia % 10000 = ia)

/-- 42_instructioncodec.md R104, 30_encoding.md R65: READSOP gives the entry's flag, (Unknown, false) where there is
no entry, and is refused for an operand of 100 to 127 (log entry 2). -/
def Obligations.ReadsOperandByTable : Prop :=
  ∀ s : State, configOk s.config = true →
    (∀ e ∈ s.config.mnemonics,
      exec (.readsop e.opcode) s = .next (s.withResult (.operandFlag true e.readsOperand))) ∧
    (∀ op, op < 100 → (∀ e ∈ s.config.mnemonics, e.opcode ≠ op) →
      exec (.readsop op) s = .next (s.withResult (.operandFlag false false))) ∧
    (∀ op, 100 ≤ op → exec (.readsop op) s = .next (s.withRefusal .notAValue))

/-- 42_instructioncodec.md R105, R106, R109: in numeric mode PARSEW is PARSE and FMTW is FORMAT; mode 3 is refused (log
entry 2). -/
def Obligations.NumericFormIsWordCodec : Prop :=
  ∀ (s : State) (t : Text) (w : Word),
    exec (.parsew t .numeric) s = exec (.parse t) s ∧ exec (.fmtw w .numeric) s = exec (.format w) s ∧
    (∃ v, exec (.parsew t .numeric) s = .next (s.withResult (.word v))) ∧
    (∃ u, exec (.fmtw w .numeric) s = .next (s.withResult (.text u))) ∧
    exec (.parsew t .reserved) s = .next (s.withRefusal .reservedForm) ∧
    exec (.fmtw w .reserved) s = .next (s.withRefusal .reservedForm)

/-- 42_instructioncodec.md R110: a word whose opcode has an entry is listed as mnemonic, two four-digit fields and
the sign, and that text parses back to the word. -/
def Obligations.MnemonicFormRoundTrip : Prop :=
  ∀ (s : State) (w : Word) (e : MnemonicEntry), configOk s.config = true → w.WellFormed →
    e ∈ s.config.mnemonics → e.opcode = w.mag / 10 ^ 8 →
    exec (.fmtw w .mnemonic) s = .next (s.withResult (.text (e.mnemonic ++ [32#7]
      ++ renderDigits 4 (w.mag / 10 ^ 4 % 10 ^ 4) ++ [32#7] ++ renderDigits 4 (w.mag % 10 ^ 4)
      ++ [if w.sign = .pos then 43#7 else 45#7]))) ∧
    exec (.parsew (e.mnemonic ++ [32#7] ++ renderDigits 4 (w.mag / 10 ^ 4 % 10 ^ 4) ++ [32#7]
      ++ renderDigits 4 (w.mag % 10 ^ 4) ++ [if w.sign = .pos then 43#7 else 45#7]) .mnemonic) s
      = .next (s.withResult (.word w))

/-- 42_instructioncodec.md R110, 60_exceptions.md R149: a word whose opcode has no entry is listed as
`unknown opcode NN dddd iiii` and the sign, with STATUS Ok; that text does not parse back. -/
def Obligations.UnknownOpcodeListing : Prop :=
  ∀ (s : State) (w : Word), configOk s.config = true → w.WellFormed →
    (∀ e ∈ s.config.mnemonics, e.opcode ≠ w.mag / 10 ^ 8) →
    ∃ t : Text, exec (.fmtw w .mnemonic) s = .next (s.withResult (.text t)) ∧
      t = unknownOpcodeText ++ renderDigits 2 (w.mag / 10 ^ 8) ++ [32#7]
        ++ renderDigits 4 (w.mag / 10 ^ 4 % 10 ^ 4) ++ [32#7] ++ renderDigits 4 (w.mag % 10 ^ 4)
        ++ [if w.sign = .pos then 43#7 else 45#7] ∧
      exec (.parsew t .mnemonic) s = .next (s.withError 0x02#8 (.unknownMnemonic
        [ch 'u', ch 'n', ch 'k', ch 'n', ch 'o', ch 'w', ch 'n']))

/-- 42_instructioncodec.md R107 with 30_encoding.md R56, R57: PARSEW in mnemonic mode reads spaces, an optional
marker, a table mnemonic, none, one or two digit fields keeping their last four digits (a missing one is 0), an
optional marker, then anything (without a trailing marker, anything that ends the scan, and no letter right
after the mnemonic; a digit after both fields and a space ends it); a name with no entry, the empty one too,
raises `UnknownMnemonic`. -/
def Obligations.MnemonicTextAssembles : Prop :=
  (∀ (s : State) (e : MnemonicEntry) (a b p q r : Nat) (front back : Option Sign) (ds es rest : Text),
    configOk s.config = true → e ∈ s.config.mnemonics →
    (ds ≠ [] → 0 < p) → (∀ x ∈ ds, isDigitChar x = true) →
    (es ≠ [] → ds ≠ [] ∧ 0 < q) → (∀ x ∈ es, isDigitChar x = true) →
    (back = none → endsScan (es ≠ [] ∧ 0 < r) rest ∧ (p = 0 → q = 0 → r = 0 → scanName rest = [])) →
    exec (.parsew (List.replicate a space ++ markText front ++ List.replicate b space ++ e.mnemonic
      ++ List.replicate p space ++ ds ++ List.replicate q space ++ es
      ++ List.replicate r space ++ markText back ++ rest) .mnemonic) s =
      .next (s.withResult (.word ⟨lastMark front back,
        e.opcode * 10 ^ 8 + digitsValue ds % 10 ^ 4 * 10 ^ 4 + digitsValue es % 10 ^ 4⟩))) ∧
  (∀ (s : State) (a b : Nat) (front : Option Sign) (name rest : Text),
    (∀ x ∈ name, isLetterOrDigit x = true) → (∀ x ∈ rest.head?, isLetterOrDigit x = false) →
    (name = [] → ∀ x ∈ rest.head?, x ≠ space ∧ (front = none → x ≠ plusCh ∧ x ≠ minusCh)) →
    (∀ e ∈ s.config.mnemonics, e.mnemonic ≠ name) →
    exec (.parsew (List.replicate a space ++ markText front ++ List.replicate b space ++ name ++ rest) .mnemonic) s
      = .next (s.withError 0x02#8 (.unknownMnemonic name)))

/-- 42_instructioncodec.md R108: PARSEW in character mode packs the codes of the first five characters, the first
one leftmost, code 0 for a missing one, sign Pos. -/
def Obligations.CharacterTextPacks : Prop :=
  ∀ (s : State) (t : Text), ∃ k : Nat → Nat,
    (∀ i, i < 5 → ∀ x, t[i]? = some x → exec (.ch2code x) s = .next (s.withResult (.code (k i)))) ∧
    (∀ i, i < 5 → t[i]? = none → k i = 0) ∧
    exec (.parsew t .character) s = .next (s.withResult (.word
      ⟨.pos, k 0 * 10 ^ 8 + k 1 * 10 ^ 6 + k 2 * 10 ^ 4 + k 3 * 10 ^ 2 + k 4⟩))

/-- 42_instructioncodec.md R113: character texts in the repertoire come back upper-cased and padded to five;
a word comes back Pos, with each code that is the least of its character kept and each code that prints
as the placeholder 0. The spec marks this law as derived from R108, R111 and 41_charcodec.md R88. -/
def Obligations.CharacterFormRoundTrip : Prop :=
  ∀ s : State, configOk s.config = true →
    (∀ t : Text, t.length ≤ 5 → (∀ x ∈ t, inRepertoire s.config (fold x) = true) →
      ∃ w : Word, exec (.parsew t .character) s = .next (s.withResult (.word w)) ∧
        exec (.fmtw w .character) s
          = .next (s.withResult (.text (t.map fold ++ List.replicate (5 - t.length) 32#7)))) ∧
    (∀ w : Word, w.WellFormed → ∃ (u : Text) (m : Nat),
      exec (.fmtw w .character) s = .next (s.withResult (.text u)) ∧ u.length = 5 ∧
      (∀ i, i < 5 → u[i]? = some (codeAt s.config (w.mag / 100 ^ (4 - i) % 100))) ∧
      exec (.parsew u .character) s = .next (s.withResult (.word ⟨.pos, m⟩)) ∧
      (∀ i, i < 5 → codeAt s.config (w.mag / 100 ^ i % 100) = placeholder → m / 100 ^ i % 100 = 0) ∧
      ((∀ i, i < 5 → codeAt s.config (w.mag / 100 ^ i % 100) ≠ placeholder ∧
          ∀ j, j < w.mag / 100 ^ i % 100 → codeAt s.config j ≠ codeAt s.config (w.mag / 100 ^ i % 100)) →
        m = w.mag))

/-! ### Target words -/

/-- 30_encoding.md R64 with 42_instructioncodec.md R102, R104; the model's choice of log entry 1: presenting a
target word of a table row gives its disassembly and its reads-operand flag, and executes nothing. -/
def Obligations.TargetWordsTranslated : Prop :=
  ∀ (s : State) (sg : Sign) (da ia : Nat), da < 10000 → ia < 10000 →
    ∀ p ∈ ([(0, Instr.noop sg da ia), (1, .stop sg da ia), (10, .au sg da ia), (11, .su sg da ia),
        (14, .div sg da ia), (15, .al sg da ia), (16, .sl sg da ia), (17, .aabl sg da ia),
        (18, .sabl sg da ia), (19, .mult sg da ia), (20, .stl sg da ia), (21, .stu sg da ia),
        (22, .stda sg da ia), (23, .stia sg da ia), (24, .std sg da ia), (30, .srt sg da ia),
        (31, .srd sg da ia), (35, .slt sg da ia), (36, .sct sg da ia), (44, .brnzu sg da ia),
        (45, .brnz sg da ia), (46, .brmin sg da ia), (47, .brov sg da ia), (60, .rau sg da ia),
        (61, .rsu sg da ia), (64, .divru sg da ia), (65, .ral sg da ia), (66, .rsl sg da ia),
        (67, .raabl sg da ia), (68, .rsabl sg da ia), (69, .ld sg da ia), (70, .rd sg da ia),
        (71, .pch sg da ia), (84, .tlu sg da ia), (90, .brd10 sg da ia), (91, .brd1 sg da ia),
        (92, .brd2 sg da ia), (93, .brd3 sg da ia), (94, .brd4 sg da ia), (95, .brd5 sg da ia),
        (96, .brd6 sg da ia), (97, .brd7 sg da ia), (98, .brd8 sg da ia), (99, .brd9 sg da ia)]
        : List (Nat × Instr)),
      exec p.2 s = .next (s.withResult (.translated ⟨lookupTag s.config p.1, p.1, da, ia⟩
        (readsOperandOf s.config p.1)))

/-- 30_encoding.md R47, R65 with 42_instructioncodec.md R102, R104; the model's choice of log entry 1: every target
word with ten decimal digits is translated, one whose opcode has no row of the table too ("data, not an error"). -/
def Obligations.EveryTargetWordTranslates : Prop :=
  ∀ (s : State) (rest : List Request) (w : Word), w.WellFormed →
    s.pending = .target (encodeWord w) :: rest →
    step s = .next (State.withResult { s with pending := rest } (.translated
      ⟨lookupTag s.config (w.mag / 10 ^ 8), w.mag / 10 ^ 8, w.mag / 10 ^ 4 % 10 ^ 4, w.mag % 10 ^ 4⟩
      (readsOperandOf s.config (w.mag / 10 ^ 8))))

/-! ### DeckStore -/

/-- 43_deckstore.md R121: DRESET empties the store and writes nothing else but STATUS and the ports. -/
def Obligations.DeckResetEmptiesStore : Prop :=
  ∀ s : State, exec .dreset s = .next { s with
    count := 0#14, idx := 0#14, mode := .raw, phase := .empty, status := 0x00#8, out := .completed }

/-- 20_memory.md R32, R33: a card stored whole is read back whole, every other populated card as before, and no
card at or above COUNT is readable. -/
def Obligations.StoredCardReadsBack : Prop :=
  ∀ (s : State) (r : Row), s.count.toNat < deckCapacity →
    (s.putCard r.toList).count.toNat = s.count.toNat + 1 ∧
    (s.putCard r.toList).readCard s.count.toNat = some r ∧
    (∀ i, i < s.count.toNat → (s.putCard r.toList).readCard i = s.readCard i) ∧
    (∀ i, s.count.toNat < i → (s.putCard r.toList).readCard i = none)

/-- 43_deckstore.md R122: LOAD in Raw mode of a source the collaborators hold, with room for it, into an Empty
store or after Raw cards: each row is the next card bit for bit, the cards and cells before and after are as
before, COUNT, IDX, MODE, PHASE, CNT[0] and STATUS are written, and nothing else of the block. -/
def Obligations.LoadRawStoresRows : Prop :=
  ∀ (s : State) (name : Text) (rows : List Row),
    s.openHandles = [] → (s.phase = .empty ∨ s.mode = .raw) → s.collab.script = [] →
    s.collab.fileOf name = some rows → s.count.toNat + rows.length ≤ 10000 →
    ∃ t : State, exec (.load name .raw) s = .next t ∧
      t = { s with deck := t.deck, count := t.count, phase := .loaded, mode := .raw, idx := t.count,
                   status := 0x00#8, out := .completed,
                   cnt := setCntList s.cnt 0 (BitVec.ofNat 14 rows.length), collab := t.collab } ∧
      t.count.toNat = s.count.toNat + rows.length ∧
      (∀ j, j < rows.length → t.readCard (s.count.toNat + j) = rows[j]?) ∧
      (∀ a, a < 80 * s.count.toNat ∨ 80 * (s.count.toNat + rows.length) ≤ a →
        Memory.read t.deck a = Memory.read s.deck a) ∧
      t.collab.files = s.collab.files ∧
      t.collab.trace = s.collab.trace ++ sourceCalls name s.collab.nextHandle rows.length

/-- 43_deckstore.md R122, 20_memory.md R31: LOAD in Translated mode stores each row's characters, zero-extended,
where every column of every row has one. -/
def Obligations.LoadTranslatedStoresCharacters : Prop :=
  ∀ (s : State) (name : Text) (rows : List Row) (texts : List (Vector Ch 80)),
    s.openHandles = [] → (s.phase = .empty ∨ s.mode = .translated) → s.collab.script = [] →
    s.collab.fileOf name = some rows → s.count.toNat + rows.length ≤ 10000 →
    rows.length = texts.length →
    (∀ (j : Nat) (r : Row) (x : Vector Ch 80), rows[j]? = some r → texts[j]? = some x → translatesTo s.config r x) →
    ∃ t : State, exec (.load name .translated) s = .next t ∧
      t = { s with deck := t.deck, count := t.count, phase := .loaded, mode := .translated, idx := t.count,
                   status := 0x00#8, out := .completed,
                   cnt := setCntList s.cnt 0 (BitVec.ofNat 14 rows.length), collab := t.collab } ∧
      t.count.toNat = s.count.toNat + rows.length ∧
      (∀ (j : Nat) (x : Vector Ch 80), texts[j]? = some x → ∀ k : Fin 80,
        t.readCell (s.count.toNat + j) k.val = some (x[k].setWidth 16)) ∧
      (∀ a, a < 80 * s.count.toNat ∨ 80 * (s.count.toNat + rows.length) ≤ a →
        Memory.read t.deck a = Memory.read s.deck a) ∧
      t.collab.files = s.collab.files ∧
      t.collab.trace = s.collab.trace ++ sourceCalls name s.collab.nextHandle rows.length

/-- 43_deckstore.md R132, 60_exceptions.md R151, R158: the capacity of 10000 cards. With the usual collaborators a
Raw LOAD succeeds if and only if its rows fit; otherwise it raises `DeckTooLarge` (STATUS 0x05) with ERRNAME the
source and ERRIDX 10000, after one read more than there was room for, the handle is released and the store is
reset. So do SPLIT of more than 10000 rows, JOIN at the source with which the running total passes 10000 (the
sources after it are not opened), and PRINT, which prints nothing; no destination is opened and no file changes.
Where the rows fit they succeed: SplitPartitionsDeck, JoinConcatenatesDecks, PrintEmitsEveryCard. -/
def Obligations.DeckCapacityBoundary : Prop :=
  (∀ (s : State) (name : Text) (rows : List Row),
    s.openHandles = [] → (s.phase = .empty ∨ s.mode = .raw) → s.count.toNat ≤ 10000 →
    s.collab.script = [] → s.collab.fileOf name = some rows →
    ∃ t : State, exec (.load name .raw) s = .next t ∧ t.openHandles = [] ∧
      (t.status = 0x00#8 ↔ s.count.toNat + rows.length ≤ 10000) ∧
      (10000 < s.count.toNat + rows.length →
        t = { s with deck := t.deck, count := 0#14, idx := 0#14, mode := .raw, phase := .empty,
                     status := 0x05#8, out := .failed .deckTooLarge, errName := name, errIdx := 10000#14,
                     collab := t.collab } ∧
        t.collab.files = s.collab.files ∧
        t.collab.trace = s.collab.trace ++ (.openRead name, true) ::
          (List.replicate (10001 - s.count.toNat) (.read s.collab.nextHandle, true)
            ++ [(.release s.collab.nextHandle, true)]))) ∧
  (∀ (s : State) (tail : Bool) (n : Nat) (source dest1 dest2 : Text) (quiet : Bool) (rows : List Row),
    s.openHandles = [] → dest1 ≠ dest2 → s.collab.script = [] → s.collab.fileOf source = some rows →
    10000 < rows.length →
    ∃ t : State, exec (.split tail n source dest1 dest2 quiet) s = .next t ∧
      t = { s with deck := t.deck, count := 0#14, idx := 0#14, mode := .raw, phase := .empty,
                   status := 0x05#8, out := .failed .deckTooLarge, errName := source, errIdx := 10000#14,
                   collab := t.collab } ∧
      t.collab.files = s.collab.files ∧
      t.collab.trace = s.collab.trace ++ (.openRead source, true) ::
        (List.replicate 10001 (.read s.collab.nextHandle, true) ++ [(.release s.collab.nextHandle, true)])) ∧
  (∀ (s : State) (before after : List Text) (source dest : Text) (quiet : Bool) (decks : List (List Row))
      (rows : List Row),
    s.openHandles = [] → s.collab.script = [] → before.map s.collab.fileOf = decks.map some →
    s.collab.fileOf source = some rows → decks.flatten.length ≤ 10000 →
    10000 < decks.flatten.length + rows.length →
    ∃ t : State, exec (.join (before ++ source :: after) dest quiet) s = .next t ∧
      t = { s with deck := t.deck, count := 0#14, idx := 0#14, mode := .raw, phase := .empty,
                   status := 0x05#8, out := .failed .deckTooLarge, errName := source, errIdx := 10000#14,
                   cnt := t.cnt, collab := t.collab } ∧
      (∀ j d, decks[j]? = some d → (t.getCnt (1 + j)).toNat = d.length) ∧
      (∀ i, decks.length < i → t.getCnt i = s.getCnt i) ∧
      t.collab.files = s.collab.files ∧
      t.collab.trace = s.collab.trace ++ sourcesCalls s.collab.nextHandle (before.zip decks) ++
        (.openRead source, true) ::
          (List.replicate (10001 - decks.flatten.length) (.read (s.collab.nextHandle + before.length), true)
            ++ [(.release (s.collab.nextHandle + before.length), true)])) ∧
  (∀ (s : State) (source : Text) (quiet sink2 : Bool) (rows : List Row),
    s.openHandles = [] → s.collab.script = [] → s.collab.fileOf source = some rows → 10000 < rows.length →
    (∀ r ∈ rows.take 10000, ∀ k : Fin 80, (punchToChar s.config r[k]).isSome = true) →
    ∃ t : State, exec (.print source quiet sink2) s = .next t ∧
      t = { s with deck := t.deck, count := 0#14, idx := 0#14, mode := .raw, phase := .empty,
                   status := 0x05#8, out := .failed .deckTooLarge, errName := source, errIdx := 10000#14,
                   collab := t.collab } ∧
      t.collab.files = s.collab.files ∧
      t.collab.trace = s.collab.trace ++ (.openRead source, true) ::
        (List.replicate 10001 (.read s.collab.nextHandle, true) ++ [(.release s.collab.nextHandle, true)]))

/-- 43_deckstore.md R122, 60_exceptions.md R154, R158: a Translated LOAD that meets an undecodable column raises
`InvalidPunch` (STATUS 0x08) at the first bad card and its lowest bad column; the store is reset. -/
def Obligations.LoadInvalidPunchAborts : Prop :=
  ∀ (s : State) (name : Text) (good : List Row) (bad : Row) (rest : List Row) (k : Fin 80),
    s.openHandles = [] → (s.phase = .empty ∨ s.mode = .translated) → s.collab.script = [] →
    s.collab.fileOf name = some (good ++ bad :: rest) → s.count.toNat + good.length < 10000 →
    (∀ r ∈ good, ∀ j : Fin 80, (punchToChar s.config r[j]).isSome = true) →
    (∀ j : Fin 80, j < k → (punchToChar s.config bad[j]).isSome = true) →
    punchToChar s.config bad[k] = none →
    ∃ t : State, exec (.load name .translated) s = .next t ∧
      t = { s with deck := t.deck, count := 0#14, idx := 0#14, mode := .raw, phase := .empty,
                   status := 0x08#8, out := .failed (.invalidPunch bad[k] (some k.val)), errName := name,
                   errIdx := BitVec.ofNat 14 (s.count.toNat + good.length), collab := t.collab }

/-- 60_exceptions.md R146, R153, R158: a LOAD whose open is answered with an error has the STATUS of that answer, the
name recorded and no card index (ERRIDX stays: log entry 20); nothing was read and the store is reset. That a live
attached unit of that name is still attached is the model's choice of log entry 27. -/
def Obligations.LoadOpenErrorAborts : Prop :=
  ∀ (s : State) (name : Text) (m : Mode) (e : CollabErr) (rest : List Reply),
    s.openHandles = [] → (s.phase = .loaded → m = s.mode) → s.collab.script = .error e :: rest →
    exec (.load name m) s = .next { s with
      count := 0#14, idx := 0#14, mode := .raw, phase := .empty,
      status := (match e with
        | .nxdev => 0x17#8
        | .nxun => 0x27#8
        | .notatt => 0x37#8
        | .other _ => 0x47#8),
      out := .failed (.ioError .opening e), errName := name,
      collab := { s.collab with
        script := rest, trace := s.collab.trace ++ [(.openRead name, false)] } }

/-- 60_exceptions.md R153, R157, R158: the read of card k answered with an error raises `IOError` Read (STATUS 0x57)
with that card index, also where the read is the one after card 9999; the source is released and the store
reset. -/
def Obligations.LoadReadErrorAborts : Prop :=
  ∀ (s : State) (name : Text) (rows : List Row) (k : Nat) (e : CollabErr) (rest : List Reply),
    s.openHandles = [] → (s.phase = .empty ∨ s.mode = .raw) →
    s.collab.script = List.replicate (1 + k) .usual ++ .error e :: rest → rest.head? ≠ some .silent →
    s.collab.fileOf name = some rows → k ≤ rows.length → s.count.toNat + k ≤ 10000 →
    ∃ t : State, exec (.load name .raw) s = .next t ∧
      t = { s with deck := t.deck, count := 0#14, idx := 0#14, mode := .raw, phase := .empty,
                   status := 0x57#8, out := .failed (.ioError .reading e), errName := name,
                   errIdx := BitVec.ofNat 14 (s.count.toNat + k), collab := t.collab } ∧
      t.collab.files = s.collab.files

/-- 43_deckstore.md R122, R123, R125, 60_exceptions.md R155: LOAD appending in the other mode, SAVE of a Translated
buffer and SPLIT to one name twice are refused, with nothing of the block changed but STATUS and the ports (log entry 2). -/
def Obligations.DeckRefusals : Prop :=
  ∀ s : State,
    (∀ name m, s.phase = .loaded → m ≠ s.mode → exec (.load name m) s = .next (s.withRefusal .modeMismatch)) ∧
    (∀ name start n, s.count ≠ 0#14 → s.mode = .translated →
      exec (.save name start n) s = .next (s.withRefusal .notRaw)) ∧
    (∀ tail n source dest quiet, exec (.split tail n source dest dest quiet) s
      = .next (s.withRefusal .sameDestination))

/-- 43_deckstore.md R123: SAVE of a range of a populated Raw buffer to the usual collaborators writes exactly those
rows in order to the destination, created or truncated, and of the block changes IDX, CNT[0], STATUS and the
ports alone. -/
def Obligations.SaveWritesRange : Prop :=
  ∀ (s : State) (name : Text) (start n : Nat),
    s.openHandles = [] → s.Populated → s.count.toNat ≤ 10000 → (s.count = 0#14 ∨ s.mode = .raw) →
    s.collab.script = [] → start + n ≤ s.count.toNat →
    ∃ (t : State) (rows : List Row), exec (.save name start n) s = .next t ∧
      rows.length = n ∧ (∀ j, j < n → s.readCard (start + j) = rows[j]?) ∧
      t = { s with idx := (if n = 0 then s.idx else BitVec.ofNat 14 (start + n - 1)), status := 0x00#8,
                   out := .completed, cnt := setCntList s.cnt 0 (BitVec.ofNat 14 n), collab := t.collab } ∧
      t.collab.fileOf name = some rows ∧
      (∀ other, other ≠ name → t.collab.fileOf other = s.collab.fileOf other) ∧
      t.collab.trace = s.collab.trace ++ destCalls name s.collab.nextHandle rows

/-- 60_exceptions.md R152, R158, 43_deckstore.md R123: SAVE out of range raises `OutOfRange` (STATUS 0x06) with the
name recorded (ERRIDX stays: log entry 20): no handle is opened and the buffer, COUNT, MODE, PHASE and IDX
stay. -/
def Obligations.SaveOutOfRangeKeepsBuffer : Prop :=
  ∀ (s : State) (name : Text) (start n : Nat),
    s.openHandles = [] → (s.count = 0#14 ∨ s.mode = .raw) → s.count.toNat < start + n →
    exec (.save name start n) s = .next { s with
      status := 0x06#8, out := .failed .outOfRange, errName := name }

/-- 60_exceptions.md R153, R158, 70_reset_and_hazards.md R173: the write of the k-th row of a SAVE answered with an
error raises `IOError` Write (STATUS 0x67) with that card's index; the rows before it stay written, the handle
is released and the store is reset. -/
def Obligations.SaveWriteErrorKeepsPartialOutput : Prop :=
  ∀ (s : State) (name : Text) (start n k : Nat) (e : CollabErr) (rest : List Reply),
    s.openHandles = [] → s.Populated → s.count.toNat ≤ 10000 → s.mode = .raw →
    s.collab.script = List.replicate (1 + k) .usual ++ .error e :: rest → rest.head? ≠ some .silent →
    start + n ≤ s.count.toNat → k < n →
    ∃ (t : State) (rows : List Row), exec (.save name start n) s = .next t ∧
      rows.length = k ∧ (∀ j, j < k → s.readCard (start + j) = rows[j]?) ∧
      t = { s with count := 0#14, idx := 0#14, mode := .raw, phase := .empty, status := 0x67#8,
                   out := .failed (.ioError .writing e), errName := name,
                   errIdx := BitVec.ofNat 14 (start + k), collab := t.collab } ∧
      t.collab.fileOf name = some rows

/-- 43_deckstore.md R124: the partition arithmetic of SPLIT. -/
def Obligations.SplitCountsPartition : Prop :=
  ∀ n total : Nat,
    splitCounts false n total = (min n total, total - min n total) ∧
    splitCounts true n total = (total - min n total, min n total) ∧
    (∀ tail, (splitCounts tail n total).1 + (splitCounts tail n total).2 = total) ∧
    splitCounts false 0 total = (0, total) ∧ splitCounts true 0 total = (total, 0)

/-- 43_deckstore.md R125, R130, 20_memory.md R41, R43: SPLIT of a source the usual collaborators hold, which may be
named as a destination too: dest1 receives the first run and dest2 the second, bit for bit and in order, as the
source was before; the calls are the source's, then dest1's, then dest2's, then the count message unless quiet;
the store is reset and CNT holds the two counts. The spec marks R130 as derived from R122 to R125. -/
def Obligations.SplitPartitionsDeck : Prop :=
  ∀ (s : State) (tail : Bool) (n : Nat) (source dest1 dest2 : Text) (quiet : Bool) (rows : List Row),
    s.openHandles = [] → dest1 ≠ dest2 → s.collab.script = [] → s.collab.fileOf source = some rows →
    rows.length ≤ 10000 →
    ∃ t : State, exec (.split tail n source dest1 dest2 quiet) s = .next t ∧
      (let n1 := (splitCounts tail n rows.length).1
       let n2 := (splitCounts tail n rows.length).2
       t = { s with deck := t.deck, count := 0#14, idx := 0#14, mode := .raw, phase := .empty,
                    status := 0x00#8, out := .completed,
                    cnt := setCntList (setCntList s.cnt 0 (BitVec.ofNat 14 n1)) 1 (BitVec.ofNat 14 n2),
                    collab := t.collab } ∧
       (∀ a, 80 * rows.length ≤ a → Memory.read t.deck a = Memory.read s.deck a) ∧
       t.collab.fileOf dest1 = some (rows.take n1) ∧ t.collab.fileOf dest2 = some (rows.drop n1) ∧
       rows.take n1 ++ rows.drop n1 = rows ∧ (rows.take n1).length = n1 ∧ (rows.drop n1).length = n2 ∧
       (∀ other, other ≠ dest1 → other ≠ dest2 → t.collab.fileOf other = s.collab.fileOf other) ∧
       t.collab.trace = s.collab.trace ++ (sourceCalls source s.collab.nextHandle rows.length
         ++ destCalls dest1 (s.collab.nextHandle + 1) (rows.take n1)
         ++ destCalls dest2 (s.collab.nextHandle + 2) (rows.drop n1)
         ++ (if quiet then [] else [(.message .split [n1, n2], true)])))

/-- 43_deckstore.md R126, R131: JOIN of sources the usual collaborators hold, any of which may be the destination:
the destination receives their concatenation in order, bit for bit, as they were before; CNT holds the total and
each source's count; every other file and the rest of the block are as before; the store is reset. The spec marks
R131 as derived from R122, R123, R126 and 20_memory.md R41. -/
def Obligations.JoinConcatenatesDecks : Prop :=
  ∀ (s : State) (sources : List Text) (dest : Text) (quiet : Bool) (decks : List (List Row)),
    s.openHandles = [] → sources ≠ [] → s.collab.script = [] →
    sources.map s.collab.fileOf = decks.map some → decks.flatten.length ≤ 10000 →
    ∃ t : State, exec (.join sources dest quiet) s = .next t ∧
      t = { s with deck := t.deck, count := 0#14, idx := 0#14, mode := .raw, phase := .empty,
                   status := 0x00#8, out := .completed, cnt := t.cnt, collab := t.collab } ∧
      (t.getCnt 0).toNat = decks.flatten.length ∧
      (∀ j d, decks[j]? = some d → (t.getCnt (1 + j)).toNat = d.length) ∧
      (∀ i, decks.length < i → t.getCnt i = s.getCnt i) ∧
      (∀ a, 80 * decks.flatten.length ≤ a → Memory.read t.deck a = Memory.read s.deck a) ∧
      t.collab.fileOf dest = some decks.flatten ∧
      (∀ other, other ≠ dest → t.collab.fileOf other = s.collab.fileOf other) ∧
      t.collab.trace = s.collab.trace ++ (sourcesCalls s.collab.nextHandle (sources.zip decks)
        ++ destCalls dest (s.collab.nextHandle + sources.length) decks.flatten
        ++ (if quiet then []
            else [(.message .join (decks.map List.length ++ [decks.flatten.length]), true)]))

/-- 43_deckstore.md R128, 20_memory.md R37: PRINT of a translatable source the usual collaborators hold emits one
sanitized line per card in order, console first, then the secondary sink with the line terminator where one is
attached, then the count message unless quiet; no file changes; the store is reset and CNT[0] is the count. -/
def Obligations.PrintEmitsEveryCard : Prop :=
  ∀ (s : State) (source : Text) (quiet sink2 : Bool) (rows : List Row) (texts : List (Vector Ch 80)),
    s.openHandles = [] → s.collab.script = [] → s.collab.fileOf source = some rows → rows.length ≤ 10000 →
    rows.length = texts.length →
    (∀ (j : Nat) (r : Row) (x : Vector Ch 80), rows[j]? = some r → texts[j]? = some x → translatesTo s.config r x) →
    ∃ t : State, exec (.print source quiet sink2) s = .next t ∧
      t = { s with deck := t.deck, count := 0#14, idx := 0#14, mode := .raw, phase := .empty,
                   status := 0x00#8, out := .completed,
                   cnt := setCntList s.cnt 0 (BitVec.ofNat 14 rows.length), collab := t.collab } ∧
      (∀ a, 80 * rows.length ≤ a → Memory.read t.deck a = Memory.read s.deck a) ∧
      t.collab.files = s.collab.files ∧
      t.collab.trace = s.collab.trace ++ (sourceCalls source s.collab.nextHandle rows.length
        ++ texts.flatMap (fun x =>
            let line := printRow s.config (Vector.ofFn fun k : Fin 80 => x[k].setWidth 16)
            (Call.console line, true) :: (if sink2 then [(Call.sink2 (line ++ s.config.lineTerm), true)] else []))
        ++ (if quiet then [] else [(.message .print [rows.length], true)]))

/-- 43_deckstore.md R127: a printed line is the row's characters upper-cased, `?` and `!` as `0`, characters outside
the repertoire as spaces, up to the last one that is no space. -/
def Obligations.PrintRowSanitizes : Prop :=
  ∀ (cfg : Config) (r : Row), configOk cfg = true →
    (printRow cfg r).length ≤ 80 ∧ (printRow cfg r).getLast? ≠ some 32#7 ∧
    (∀ k : Fin 80, (printRow cfg r).getD k.val 32#7 =
      (let x := fold (r[k].setWidth 7)
       if x = 63#7 ∨ x = 33#7 then 48#7 else if inRepertoire cfg x then x else 32#7))

/-! ### Errors, the command line, reset -/

/-- 70_reset_and_hazards.md R175, 93_implementation_defined.md U11 (the model's choice of log entry 8): a collaborator
that never answers its first call stops LOAD and SAVE with no next state. -/
def Obligations.SilentCollaboratorStops : Prop :=
  ∀ (s : State) (name : Text) (rest : List Reply), s.collab.script = .silent :: rest →
    (∀ m, (s.phase = .loaded → m = s.mode) → exec (.load name m) s = .fault .collaboratorSilent) ∧
    (∀ start n, s.mode = .raw → start + n ≤ s.count.toNat →
      exec (.save name start n) s = .fault .collaboratorSilent)

/-- 60_exceptions.md R146: the exit status of each outcome. `InvalidPunch`, which PRINT can raise, is an I/O error
status; that it carries no collaborator's value is the model's reading of log entry 22. -/
def Obligations.ExitStatusMapping : Prop :=
  (∀ out, exitStatusOf 0x00#8 out = .success) ∧ (∀ out, exitStatusOf 0x01#8 out = .arg) ∧
  (∀ out, exitStatusOf 0x05#8 out = .ierr) ∧ (∀ out, exitStatusOf 0x06#8 out = .ierr) ∧
  (∀ out, exitStatusOf 0x0F#8 out = .ierr) ∧ (∀ out, exitStatusOf 0x17#8 out = .nxdev) ∧
  (∀ out, exitStatusOf 0x27#8 out = .nxun) ∧ (∀ out, exitStatusOf 0x37#8 out = .notatt) ∧
  (∀ stage e, ErrorReport.status (.ioError stage e) = 0x47#8 ∨ ErrorReport.status (.ioError stage e) = 0x57#8 ∨
      ErrorReport.status (.ioError stage e) = 0x67#8 ∨ ErrorReport.status (.ioError stage e) = 0x77#8 →
    exitStatusOf (ErrorReport.status (.ioError stage e)) (.failed (.ioError stage e)) = .io (some e)) ∧
  (∀ m col, exitStatusOf 0x08#8 (.failed (.invalidPunch m col)) = .io none)

/-- 43_deckstore.md R126, 60_exceptions.md R158: a JOIN with no source raises `MalformedArgument` (STATUS 0x01):
the store is reset, and nothing else of the block changes but the result port. 60_exceptions.md R147: a command
line that does not fit the grammar writes STATUS 0x01 and gives the exit status `ARG`, and the store and all else
but the result port stay (which of the two rules holds where: log entry 10; the line as a request: log entry 11). -/
def Obligations.MalformedArgumentOutcome : Prop :=
  (∀ (s : State) (dest : Text) (quiet : Bool), s.openHandles = [] →
    exec (.join [] dest quiet) s = .next { s with
      count := 0#14, idx := 0#14, mode := .raw, phase := .empty,
      status := 0x01#8, out := .failed .malformedArgument }) ∧
  (∀ (s : State) (l : Text) (sink2 : Bool) (rest : List Request), s.pending = .line l sink2 :: rest →
    decodeLine l sink2 = .error .malformedLine →
    step s = .next { s with
      pending := rest, status := 0x01#8, out := .failed .malformedArgument, exit := .arg })

/-- 30_encoding.md R63, 60_exceptions.md R147: the words of a line are separated by runs of spaces; with or without
a first `-Q`, the three commands decode to their operations (names of at most 80 characters: log entry 11), and
these lines are malformed: no verb; a verb that is none of the three; SPLIT with not four arguments, or with a count
that is not an optional `-` and one to nine digits; JOIN whose arguments are not one source or more, `AS`, and a
destination that is not `AS`; PRINT with not one argument. -/
def Obligations.CommandLinesDecode : Prop :=
  ∀ (quiet sink2 : Bool) (l : Text),
    let q : List Text := if quiet then [[ch '-', ch 'Q']] else []
    let split : Text := [ch 'S', ch 'P', ch 'L', ch 'I', ch 'T']
    let join : Text := [ch 'J', ch 'O', ch 'I', ch 'N']
    let print : Text := [ch 'P', ch 'R', ch 'I', ch 'N', ch 'T']
    let as : Text := [ch 'A', ch 'S']
    (∀ (tail : Bool) (ds n1 n2 n3 : Text), 1 ≤ ds.length → ds.length ≤ 9 → (∀ x ∈ ds, isDigitChar x = true) →
      (∀ n ∈ [n1, n2, n3], n.length ≤ 80) →
      lineOf (q ++ [split, (if tail then [ch '-'] else []) ++ ds, n1, n2, n3]) l →
      decodeLine l sink2 = .ok (.split tail (digitsValue ds) n1 n2 n3 quiet)) ∧
    (∀ (sources : List Text) (dest : Text), sources ≠ [] → dest ≠ as → (∀ n ∈ dest :: sources, n.length ≤ 80) →
      lineOf (q ++ join :: (sources ++ [as, dest])) l → decodeLine l sink2 = .ok (.join sources dest quiet)) ∧
    (∀ n : Text, n.length ≤ 80 → lineOf (q ++ [print, n]) l → decodeLine l sink2 = .ok (.print n quiet sink2)) ∧
    (lineOf q l → decodeLine l sink2 = .error .malformedLine) ∧
    (∀ (verb : Text) (args : List Text), verb ≠ split → verb ≠ join → verb ≠ print →
      (quiet = false → verb ≠ [ch '-', ch 'Q']) → lineOf (q ++ verb :: args) l →
      decodeLine l sink2 = .error .malformedLine) ∧
    (∀ args : List Text, args.length ≠ 4 → lineOf (q ++ split :: args) l →
      decodeLine l sink2 = .error .malformedLine) ∧
    (∀ count n1 n2 n3 : Text,
      (∀ (tail : Bool) (ds : Text), count = (if tail then [ch '-'] else []) ++ ds → 1 ≤ ds.length → ds.length ≤ 9 →
        ∃ x ∈ ds, isDigitChar x = false) →
      lineOf (q ++ [split, count, n1, n2, n3]) l → decodeLine l sink2 = .error .malformedLine) ∧
    (∀ args : List Text,
      (∀ (sources : List Text) (dest : Text), args = sources ++ [as, dest] → sources = [] ∨ dest = as) →
      lineOf (q ++ join :: args) l → decodeLine l sink2 = .error .malformedLine) ∧
    (∀ args : List Text, args.length ≠ 1 → lineOf (q ++ print :: args) l →
      decodeLine l sink2 = .error .malformedLine)

/-- 10_state.md R27, 70_reset_and_hazards.md R165: after reset PHASE is Empty, COUNT and IDX are 0, MODE is Raw, STATUS
is Ok, no handle is open and the tables are the configured ones; the same holds of the step that serves a hardware
reset, which calls no collaborator. -/
def Obligations.ResetRegisters : Prop :=
  (∀ cfg : Config, (State.resetWith cfg).storeEmpty ∧ (State.resetWith cfg).status = 0x00#8 ∧
    (State.resetWith cfg).openHandles = [] ∧ (State.resetWith cfg).config = cfg) ∧
  (∀ (s : State) (rest : List Request), s.pending = .reset :: rest → ∃ t : State, step s = .next t ∧
    t.storeEmpty ∧ t.status = 0x00#8 ∧ t.openHandles = [] ∧ t.config = s.config ∧ t.collab = s.collab ∧
    t.pending = rest)

/-! ### The whole machine -/

/-- The invariant holds after reset, whatever the tables (10_state.md R27). -/
def Obligations.InvariantAtReset : Prop := ∀ cfg : Config, (State.resetWith cfg).Inv

/-- 10_state.md R22, R23, R25, 20_memory.md R30 to R33: every step keeps the invariant of the block between
operations, whatever is presented and whatever the collaborators answer. -/
def Obligations.StepKeepsInvariant : Prop := ∀ s t : State, s.Inv → step s = .next t → t.Inv

/-- 70_reset_and_hazards.md R170, 60_exceptions.md R158: no handle is open after any operation, whatever the
outcome and whatever the collaborators answer. -/
def Obligations.HandlesReleasedOnEveryPath : Prop :=
  ∀ (i : Instr) (s t : State), s.openHandles = [] → exec i s = .next t → t.openHandles = []

/-- 20_memory.md R41, 70_reset_and_hazards.md R168: in every operation, whatever the collaborators answer, before a
destination is opened every handle opened so far is released, each after its last read, and after it no source
is opened or read. The spec marks R41's rule as derived from its source's two sentences. -/
def Obligations.SourcesReadBeforeDestinations : Prop :=
  ∀ (i : Instr) (s t : State), exec i s = .next t →
    ∃ calls, t.collab.trace = s.collab.trace ++ calls ∧ sourcesFirst calls

/-- 00_scope.md R8, 10_state.md R16, 60_exceptions.md R163: every pure operation completes, whatever the state;
it changes STATUS and the ports alone (with the model's own record of a refusal, log entry 2), and its STATUS
and result depend on its operands and the tables alone. -/
def Obligations.PureOperationsArePure : Prop :=
  ∀ i : Instr, isDeckOp i = false →
    (∀ s : State, ∃ t : State, exec i s = .next t ∧
      t = { s with status := t.status, out := t.out, launchFault := t.launchFault }) ∧
    (∀ s1 s2 t1 t2 : State, s1.config = s2.config → exec i s1 = .next t1 → exec i s2 = .next t2 →
      t1.status = t2.status ∧ t1.out = t2.out)

/-- 60_exceptions.md R145, R146, R149, R150: every operation that answers a next state writes STATUS with one of the
kinds 0, 1, 2, 5, 6, 7, 8, 15, never `UnknownOpcode` or `FieldOverflow`, and a sub-kind only with `IOError`; the
model's sticky record of a refusal (log entry 2) is set by kind 15 alone, and never cleared. -/
def Obligations.StatusKindsWritten : Prop :=
  ∀ (i : Instr) (s t : State), exec i s = .next t →
    statusKind t.status ∈ [0, 1, 2, 5, 6, 7, 8, 15] ∧
    (statusKind t.status = 7 → 1 ≤ statusSub t.status ∧ statusSub t.status ≤ 7) ∧
    (statusKind t.status ≠ 7 → statusSub t.status = 0) ∧
    (t.Safe ↔ s.Safe ∧ t.status ≠ 0x0F#8)
end

