-- ==== Sys2Proof/Laws/State.lean ====
section
/-! SUPPORT. One lemma per field per update of State, true by rfl, so that no proof unfolds a record update. -/

namespace Sys2Proof.Machine

@[simp] theorem State.setPhase_deck (s : State) (p : Phase) : (s.setPhase p).deck = s.deck := rfl
@[simp] theorem State.setPhase_count (s : State) (p : Phase) : (s.setPhase p).count = s.count := rfl
@[simp] theorem State.setPhase_phase (s : State) (p : Phase) : (s.setPhase p).phase = p := rfl
@[simp] theorem State.setPhase_mode (s : State) (p : Phase) : (s.setPhase p).mode = s.mode := rfl
@[simp] theorem State.setPhase_idx (s : State) (p : Phase) : (s.setPhase p).idx = s.idx := rfl
@[simp] theorem State.setPhase_status (s : State) (p : Phase) : (s.setPhase p).status = s.status := rfl
@[simp] theorem State.setPhase_errIdx (s : State) (p : Phase) : (s.setPhase p).errIdx = s.errIdx := rfl
@[simp] theorem State.setPhase_errName (s : State) (p : Phase) : (s.setPhase p).errName = s.errName := rfl
@[simp] theorem State.setPhase_cnt (s : State) (p : Phase) : (s.setPhase p).cnt = s.cnt := rfl
@[simp] theorem State.setPhase_openHandles (s : State) (p : Phase) : (s.setPhase p).openHandles = s.openHandles := rfl
@[simp] theorem State.setPhase_config (s : State) (p : Phase) : (s.setPhase p).config = s.config := rfl
@[simp] theorem State.setPhase_pending (s : State) (p : Phase) : (s.setPhase p).pending = s.pending := rfl
@[simp] theorem State.setPhase_out (s : State) (p : Phase) : (s.setPhase p).out = s.out := rfl
@[simp] theorem State.setPhase_exit (s : State) (p : Phase) : (s.setPhase p).exit = s.exit := rfl
@[simp] theorem State.setPhase_launchFault (s : State) (p : Phase) : (s.setPhase p).launchFault = s.launchFault := rfl
@[simp] theorem State.setPhase_freeCounter (s : State) (p : Phase) : (s.setPhase p).freeCounter = s.freeCounter := rfl
@[simp] theorem State.setPhase_collab (s : State) (p : Phase) : (s.setPhase p).collab = s.collab := rfl

@[simp] theorem State.setMode_deck (s : State) (m : Mode) : (s.setMode m).deck = s.deck := rfl
@[simp] theorem State.setMode_count (s : State) (m : Mode) : (s.setMode m).count = s.count := rfl
@[simp] theorem State.setMode_phase (s : State) (m : Mode) : (s.setMode m).phase = s.phase := rfl
@[simp] theorem State.setMode_mode (s : State) (m : Mode) : (s.setMode m).mode = m := rfl
@[simp] theorem State.setMode_idx (s : State) (m : Mode) : (s.setMode m).idx = s.idx := rfl
@[simp] theorem State.setMode_status (s : State) (m : Mode) : (s.setMode m).status = s.status := rfl
@[simp] theorem State.setMode_errIdx (s : State) (m : Mode) : (s.setMode m).errIdx = s.errIdx := rfl
@[simp] theorem State.setMode_errName (s : State) (m : Mode) : (s.setMode m).errName = s.errName := rfl
@[simp] theorem State.setMode_cnt (s : State) (m : Mode) : (s.setMode m).cnt = s.cnt := rfl
@[simp] theorem State.setMode_openHandles (s : State) (m : Mode) : (s.setMode m).openHandles = s.openHandles := rfl
@[simp] theorem State.setMode_config (s : State) (m : Mode) : (s.setMode m).config = s.config := rfl
@[simp] theorem State.setMode_pending (s : State) (m : Mode) : (s.setMode m).pending = s.pending := rfl
@[simp] theorem State.setMode_out (s : State) (m : Mode) : (s.setMode m).out = s.out := rfl
@[simp] theorem State.setMode_exit (s : State) (m : Mode) : (s.setMode m).exit = s.exit := rfl
@[simp] theorem State.setMode_launchFault (s : State) (m : Mode) : (s.setMode m).launchFault = s.launchFault := rfl
@[simp] theorem State.setMode_freeCounter (s : State) (m : Mode) : (s.setMode m).freeCounter = s.freeCounter := rfl
@[simp] theorem State.setMode_collab (s : State) (m : Mode) : (s.setMode m).collab = s.collab := rfl

@[simp] theorem State.setIdx_deck (s : State) (i : BitVec 14) : (s.setIdx i).deck = s.deck := rfl
@[simp] theorem State.setIdx_count (s : State) (i : BitVec 14) : (s.setIdx i).count = s.count := rfl
@[simp] theorem State.setIdx_phase (s : State) (i : BitVec 14) : (s.setIdx i).phase = s.phase := rfl
@[simp] theorem State.setIdx_mode (s : State) (i : BitVec 14) : (s.setIdx i).mode = s.mode := rfl
@[simp] theorem State.setIdx_idx (s : State) (i : BitVec 14) : (s.setIdx i).idx = i := rfl
@[simp] theorem State.setIdx_status (s : State) (i : BitVec 14) : (s.setIdx i).status = s.status := rfl
@[simp] theorem State.setIdx_errIdx (s : State) (i : BitVec 14) : (s.setIdx i).errIdx = s.errIdx := rfl
@[simp] theorem State.setIdx_errName (s : State) (i : BitVec 14) : (s.setIdx i).errName = s.errName := rfl
@[simp] theorem State.setIdx_cnt (s : State) (i : BitVec 14) : (s.setIdx i).cnt = s.cnt := rfl
@[simp] theorem State.setIdx_openHandles (s : State) (i : BitVec 14) : (s.setIdx i).openHandles = s.openHandles := rfl
@[simp] theorem State.setIdx_config (s : State) (i : BitVec 14) : (s.setIdx i).config = s.config := rfl
@[simp] theorem State.setIdx_pending (s : State) (i : BitVec 14) : (s.setIdx i).pending = s.pending := rfl
@[simp] theorem State.setIdx_out (s : State) (i : BitVec 14) : (s.setIdx i).out = s.out := rfl
@[simp] theorem State.setIdx_exit (s : State) (i : BitVec 14) : (s.setIdx i).exit = s.exit := rfl
@[simp] theorem State.setIdx_launchFault (s : State) (i : BitVec 14) : (s.setIdx i).launchFault = s.launchFault := rfl
@[simp] theorem State.setIdx_freeCounter (s : State) (i : BitVec 14) : (s.setIdx i).freeCounter = s.freeCounter := rfl
@[simp] theorem State.setIdx_collab (s : State) (i : BitVec 14) : (s.setIdx i).collab = s.collab := rfl

@[simp] theorem State.setCnt_deck (s : State) (i : Nat) (v : BitVec 14) : (s.setCnt i v).deck = s.deck := rfl
@[simp] theorem State.setCnt_count (s : State) (i : Nat) (v : BitVec 14) : (s.setCnt i v).count = s.count := rfl
@[simp] theorem State.setCnt_phase (s : State) (i : Nat) (v : BitVec 14) : (s.setCnt i v).phase = s.phase := rfl
@[simp] theorem State.setCnt_mode (s : State) (i : Nat) (v : BitVec 14) : (s.setCnt i v).mode = s.mode := rfl
@[simp] theorem State.setCnt_idx (s : State) (i : Nat) (v : BitVec 14) : (s.setCnt i v).idx = s.idx := rfl
@[simp] theorem State.setCnt_status (s : State) (i : Nat) (v : BitVec 14) : (s.setCnt i v).status = s.status := rfl
@[simp] theorem State.setCnt_errIdx (s : State) (i : Nat) (v : BitVec 14) : (s.setCnt i v).errIdx = s.errIdx := rfl
@[simp] theorem State.setCnt_errName (s : State) (i : Nat) (v : BitVec 14) : (s.setCnt i v).errName = s.errName := rfl
@[simp] theorem State.setCnt_cnt (s : State) (i : Nat) (v : BitVec 14) : (s.setCnt i v).cnt = setCntList s.cnt i v := rfl
@[simp] theorem State.setCnt_openHandles (s : State) (i : Nat) (v : BitVec 14) : (s.setCnt i v).openHandles = s.openHandles := rfl
@[simp] theorem State.setCnt_config (s : State) (i : Nat) (v : BitVec 14) : (s.setCnt i v).config = s.config := rfl
@[simp] theorem State.setCnt_pending (s : State) (i : Nat) (v : BitVec 14) : (s.setCnt i v).pending = s.pending := rfl
@[simp] theorem State.setCnt_out (s : State) (i : Nat) (v : BitVec 14) : (s.setCnt i v).out = s.out := rfl
@[simp] theorem State.setCnt_exit (s : State) (i : Nat) (v : BitVec 14) : (s.setCnt i v).exit = s.exit := rfl
@[simp] theorem State.setCnt_launchFault (s : State) (i : Nat) (v : BitVec 14) : (s.setCnt i v).launchFault = s.launchFault := rfl
@[simp] theorem State.setCnt_freeCounter (s : State) (i : Nat) (v : BitVec 14) : (s.setCnt i v).freeCounter = s.freeCounter := rfl
@[simp] theorem State.setCnt_collab (s : State) (i : Nat) (v : BitVec 14) : (s.setCnt i v).collab = s.collab := rfl

@[simp] theorem State.setCollab_deck (s : State) (c : Collab) : (s.setCollab c).deck = s.deck := rfl
@[simp] theorem State.setCollab_count (s : State) (c : Collab) : (s.setCollab c).count = s.count := rfl
@[simp] theorem State.setCollab_phase (s : State) (c : Collab) : (s.setCollab c).phase = s.phase := rfl
@[simp] theorem State.setCollab_mode (s : State) (c : Collab) : (s.setCollab c).mode = s.mode := rfl
@[simp] theorem State.setCollab_idx (s : State) (c : Collab) : (s.setCollab c).idx = s.idx := rfl
@[simp] theorem State.setCollab_status (s : State) (c : Collab) : (s.setCollab c).status = s.status := rfl
@[simp] theorem State.setCollab_errIdx (s : State) (c : Collab) : (s.setCollab c).errIdx = s.errIdx := rfl
@[simp] theorem State.setCollab_errName (s : State) (c : Collab) : (s.setCollab c).errName = s.errName := rfl
@[simp] theorem State.setCollab_cnt (s : State) (c : Collab) : (s.setCollab c).cnt = s.cnt := rfl
@[simp] theorem State.setCollab_openHandles (s : State) (c : Collab) : (s.setCollab c).openHandles = s.openHandles := rfl
@[simp] theorem State.setCollab_config (s : State) (c : Collab) : (s.setCollab c).config = s.config := rfl
@[simp] theorem State.setCollab_pending (s : State) (c : Collab) : (s.setCollab c).pending = s.pending := rfl
@[simp] theorem State.setCollab_out (s : State) (c : Collab) : (s.setCollab c).out = s.out := rfl
@[simp] theorem State.setCollab_exit (s : State) (c : Collab) : (s.setCollab c).exit = s.exit := rfl
@[simp] theorem State.setCollab_launchFault (s : State) (c : Collab) : (s.setCollab c).launchFault = s.launchFault := rfl
@[simp] theorem State.setCollab_freeCounter (s : State) (c : Collab) : (s.setCollab c).freeCounter = s.freeCounter := rfl
@[simp] theorem State.setCollab_collab (s : State) (c : Collab) : (s.setCollab c).collab = c := rfl

@[simp] theorem State.addHandle_deck (s : State) (h : Nat) : (s.addHandle h).deck = s.deck := rfl
@[simp] theorem State.addHandle_count (s : State) (h : Nat) : (s.addHandle h).count = s.count := rfl
@[simp] theorem State.addHandle_phase (s : State) (h : Nat) : (s.addHandle h).phase = s.phase := rfl
@[simp] theorem State.addHandle_mode (s : State) (h : Nat) : (s.addHandle h).mode = s.mode := rfl
@[simp] theorem State.addHandle_idx (s : State) (h : Nat) : (s.addHandle h).idx = s.idx := rfl
@[simp] theorem State.addHandle_status (s : State) (h : Nat) : (s.addHandle h).status = s.status := rfl
@[simp] theorem State.addHandle_errIdx (s : State) (h : Nat) : (s.addHandle h).errIdx = s.errIdx := rfl
@[simp] theorem State.addHandle_errName (s : State) (h : Nat) : (s.addHandle h).errName = s.errName := rfl
@[simp] theorem State.addHandle_cnt (s : State) (h : Nat) : (s.addHandle h).cnt = s.cnt := rfl
@[simp] theorem State.addHandle_openHandles (s : State) (h : Nat) : (s.addHandle h).openHandles = s.openHandles ++ [h] := rfl
@[simp] theorem State.addHandle_config (s : State) (h : Nat) : (s.addHandle h).config = s.config := rfl
@[simp] theorem State.addHandle_pending (s : State) (h : Nat) : (s.addHandle h).pending = s.pending := rfl
@[simp] theorem State.addHandle_out (s : State) (h : Nat) : (s.addHandle h).out = s.out := rfl
@[simp] theorem State.addHandle_exit (s : State) (h : Nat) : (s.addHandle h).exit = s.exit := rfl
@[simp] theorem State.addHandle_launchFault (s : State) (h : Nat) : (s.addHandle h).launchFault = s.launchFault := rfl
@[simp] theorem State.addHandle_freeCounter (s : State) (h : Nat) : (s.addHandle h).freeCounter = s.freeCounter := rfl
@[simp] theorem State.addHandle_collab (s : State) (h : Nat) : (s.addHandle h).collab = s.collab := rfl

@[simp] theorem State.dropHandle_deck (s : State) (h : Nat) : (s.dropHandle h).deck = s.deck := rfl
@[simp] theorem State.dropHandle_count (s : State) (h : Nat) : (s.dropHandle h).count = s.count := rfl
@[simp] theorem State.dropHandle_phase (s : State) (h : Nat) : (s.dropHandle h).phase = s.phase := rfl
@[simp] theorem State.dropHandle_mode (s : State) (h : Nat) : (s.dropHandle h).mode = s.mode := rfl
@[simp] theorem State.dropHandle_idx (s : State) (h : Nat) : (s.dropHandle h).idx = s.idx := rfl
@[simp] theorem State.dropHandle_status (s : State) (h : Nat) : (s.dropHandle h).status = s.status := rfl
@[simp] theorem State.dropHandle_errIdx (s : State) (h : Nat) : (s.dropHandle h).errIdx = s.errIdx := rfl
@[simp] theorem State.dropHandle_errName (s : State) (h : Nat) : (s.dropHandle h).errName = s.errName := rfl
@[simp] theorem State.dropHandle_cnt (s : State) (h : Nat) : (s.dropHandle h).cnt = s.cnt := rfl
@[simp] theorem State.dropHandle_openHandles (s : State) (h : Nat) : (s.dropHandle h).openHandles = s.openHandles.filter (fun x => x != h) := rfl
@[simp] theorem State.dropHandle_config (s : State) (h : Nat) : (s.dropHandle h).config = s.config := rfl
@[simp] theorem State.dropHandle_pending (s : State) (h : Nat) : (s.dropHandle h).pending = s.pending := rfl
@[simp] theorem State.dropHandle_out (s : State) (h : Nat) : (s.dropHandle h).out = s.out := rfl
@[simp] theorem State.dropHandle_exit (s : State) (h : Nat) : (s.dropHandle h).exit = s.exit := rfl
@[simp] theorem State.dropHandle_launchFault (s : State) (h : Nat) : (s.dropHandle h).launchFault = s.launchFault := rfl
@[simp] theorem State.dropHandle_freeCounter (s : State) (h : Nat) : (s.dropHandle h).freeCounter = s.freeCounter := rfl
@[simp] theorem State.dropHandle_collab (s : State) (h : Nat) : (s.dropHandle h).collab = s.collab := rfl

@[simp] theorem State.storeReset_deck (s : State) : (s.storeReset).deck = s.deck := rfl
@[simp] theorem State.storeReset_count (s : State) : (s.storeReset).count = 0#14 := rfl
@[simp] theorem State.storeReset_phase (s : State) : (s.storeReset).phase = .empty := rfl
@[simp] theorem State.storeReset_mode (s : State) : (s.storeReset).mode = .raw := rfl
@[simp] theorem State.storeReset_idx (s : State) : (s.storeReset).idx = 0#14 := rfl
@[simp] theorem State.storeReset_status (s : State) : (s.storeReset).status = s.status := rfl
@[simp] theorem State.storeReset_errIdx (s : State) : (s.storeReset).errIdx = s.errIdx := rfl
@[simp] theorem State.storeReset_errName (s : State) : (s.storeReset).errName = s.errName := rfl
@[simp] theorem State.storeReset_cnt (s : State) : (s.storeReset).cnt = s.cnt := rfl
@[simp] theorem State.storeReset_openHandles (s : State) : (s.storeReset).openHandles = s.openHandles := rfl
@[simp] theorem State.storeReset_config (s : State) : (s.storeReset).config = s.config := rfl
@[simp] theorem State.storeReset_pending (s : State) : (s.storeReset).pending = s.pending := rfl
@[simp] theorem State.storeReset_out (s : State) : (s.storeReset).out = s.out := rfl
@[simp] theorem State.storeReset_exit (s : State) : (s.storeReset).exit = s.exit := rfl
@[simp] theorem State.storeReset_launchFault (s : State) : (s.storeReset).launchFault = s.launchFault := rfl
@[simp] theorem State.storeReset_freeCounter (s : State) : (s.storeReset).freeCounter = s.freeCounter := rfl
@[simp] theorem State.storeReset_collab (s : State) : (s.storeReset).collab = s.collab := rfl

@[simp] theorem State.finish_deck (s : State) (st : BitVec 8) (o : Port) : (s.finish st o).deck = s.deck := rfl
@[simp] theorem State.finish_count (s : State) (st : BitVec 8) (o : Port) : (s.finish st o).count = s.count := rfl
@[simp] theorem State.finish_phase (s : State) (st : BitVec 8) (o : Port) : (s.finish st o).phase = s.phase := rfl
@[simp] theorem State.finish_mode (s : State) (st : BitVec 8) (o : Port) : (s.finish st o).mode = s.mode := rfl
@[simp] theorem State.finish_idx (s : State) (st : BitVec 8) (o : Port) : (s.finish st o).idx = s.idx := rfl
@[simp] theorem State.finish_status (s : State) (st : BitVec 8) (o : Port) : (s.finish st o).status = st := rfl
@[simp] theorem State.finish_errIdx (s : State) (st : BitVec 8) (o : Port) : (s.finish st o).errIdx = s.errIdx := rfl
@[simp] theorem State.finish_errName (s : State) (st : BitVec 8) (o : Port) : (s.finish st o).errName = s.errName := rfl
@[simp] theorem State.finish_cnt (s : State) (st : BitVec 8) (o : Port) : (s.finish st o).cnt = s.cnt := rfl
@[simp] theorem State.finish_openHandles (s : State) (st : BitVec 8) (o : Port) : (s.finish st o).openHandles = s.openHandles := rfl
@[simp] theorem State.finish_config (s : State) (st : BitVec 8) (o : Port) : (s.finish st o).config = s.config := rfl
@[simp] theorem State.finish_pending (s : State) (st : BitVec 8) (o : Port) : (s.finish st o).pending = s.pending := rfl
@[simp] theorem State.finish_out (s : State) (st : BitVec 8) (o : Port) : (s.finish st o).out = o := rfl
@[simp] theorem State.finish_exit (s : State) (st : BitVec 8) (o : Port) : (s.finish st o).exit = s.exit := rfl
@[simp] theorem State.finish_launchFault (s : State) (st : BitVec 8) (o : Port) : (s.finish st o).launchFault = s.launchFault := rfl
@[simp] theorem State.finish_freeCounter (s : State) (st : BitVec 8) (o : Port) : (s.finish st o).freeCounter = s.freeCounter := rfl
@[simp] theorem State.finish_collab (s : State) (st : BitVec 8) (o : Port) : (s.finish st o).collab = s.collab := rfl

@[simp] theorem State.recordError_deck (s : State) (n : Option Text) (i : Option (BitVec 14)) : (s.recordError n i).deck = s.deck := rfl
@[simp] theorem State.recordError_count (s : State) (n : Option Text) (i : Option (BitVec 14)) : (s.recordError n i).count = s.count := rfl
@[simp] theorem State.recordError_phase (s : State) (n : Option Text) (i : Option (BitVec 14)) : (s.recordError n i).phase = s.phase := rfl
@[simp] theorem State.recordError_mode (s : State) (n : Option Text) (i : Option (BitVec 14)) : (s.recordError n i).mode = s.mode := rfl
@[simp] theorem State.recordError_idx (s : State) (n : Option Text) (i : Option (BitVec 14)) : (s.recordError n i).idx = s.idx := rfl
@[simp] theorem State.recordError_status (s : State) (n : Option Text) (i : Option (BitVec 14)) : (s.recordError n i).status = s.status := rfl
@[simp] theorem State.recordError_errIdx (s : State) (n : Option Text) (i : Option (BitVec 14)) : (s.recordError n i).errIdx = i.getD s.errIdx := rfl
@[simp] theorem State.recordError_errName (s : State) (n : Option Text) (i : Option (BitVec 14)) : (s.recordError n i).errName = n.getD s.errName := rfl
@[simp] theorem State.recordError_cnt (s : State) (n : Option Text) (i : Option (BitVec 14)) : (s.recordError n i).cnt = s.cnt := rfl
@[simp] theorem State.recordError_openHandles (s : State) (n : Option Text) (i : Option (BitVec 14)) : (s.recordError n i).openHandles = s.openHandles := rfl
@[simp] theorem State.recordError_config (s : State) (n : Option Text) (i : Option (BitVec 14)) : (s.recordError n i).config = s.config := rfl
@[simp] theorem State.recordError_pending (s : State) (n : Option Text) (i : Option (BitVec 14)) : (s.recordError n i).pending = s.pending := rfl
@[simp] theorem State.recordError_out (s : State) (n : Option Text) (i : Option (BitVec 14)) : (s.recordError n i).out = s.out := rfl
@[simp] theorem State.recordError_exit (s : State) (n : Option Text) (i : Option (BitVec 14)) : (s.recordError n i).exit = s.exit := rfl
@[simp] theorem State.recordError_launchFault (s : State) (n : Option Text) (i : Option (BitVec 14)) : (s.recordError n i).launchFault = s.launchFault := rfl
@[simp] theorem State.recordError_freeCounter (s : State) (n : Option Text) (i : Option (BitVec 14)) : (s.recordError n i).freeCounter = s.freeCounter := rfl
@[simp] theorem State.recordError_collab (s : State) (n : Option Text) (i : Option (BitVec 14)) : (s.recordError n i).collab = s.collab := rfl

@[simp] theorem State.putCard_deck (s : State) (cells : List Cell) : (s.putCard cells).deck = Memory.writeCells s.deck (cellAddr s.count.toNat 0) cells := rfl
@[simp] theorem State.putCard_count (s : State) (cells : List Cell) : (s.putCard cells).count = s.count + 1#14 := rfl
@[simp] theorem State.putCard_phase (s : State) (cells : List Cell) : (s.putCard cells).phase = s.phase := rfl
@[simp] theorem State.putCard_mode (s : State) (cells : List Cell) : (s.putCard cells).mode = s.mode := rfl
@[simp] theorem State.putCard_idx (s : State) (cells : List Cell) : (s.putCard cells).idx = s.idx := rfl
@[simp] theorem State.putCard_status (s : State) (cells : List Cell) : (s.putCard cells).status = s.status := rfl
@[simp] theorem State.putCard_errIdx (s : State) (cells : List Cell) : (s.putCard cells).errIdx = s.errIdx := rfl
@[simp] theorem State.putCard_errName (s : State) (cells : List Cell) : (s.putCard cells).errName = s.errName := rfl
@[simp] theorem State.putCard_cnt (s : State) (cells : List Cell) : (s.putCard cells).cnt = s.cnt := rfl
@[simp] theorem State.putCard_openHandles (s : State) (cells : List Cell) : (s.putCard cells).openHandles = s.openHandles := rfl
@[simp] theorem State.putCard_config (s : State) (cells : List Cell) : (s.putCard cells).config = s.config := rfl
@[simp] theorem State.putCard_pending (s : State) (cells : List Cell) : (s.putCard cells).pending = s.pending := rfl
@[simp] theorem State.putCard_out (s : State) (cells : List Cell) : (s.putCard cells).out = s.out := rfl
@[simp] theorem State.putCard_exit (s : State) (cells : List Cell) : (s.putCard cells).exit = s.exit := rfl
@[simp] theorem State.putCard_launchFault (s : State) (cells : List Cell) : (s.putCard cells).launchFault = s.launchFault := rfl
@[simp] theorem State.putCard_freeCounter (s : State) (cells : List Cell) : (s.putCard cells).freeCounter = s.freeCounter := rfl
@[simp] theorem State.putCard_collab (s : State) (cells : List Cell) : (s.putCard cells).collab = s.collab := rfl

@[simp] theorem State.takeRequest_deck (s : State) : (s.takeRequest).deck = s.deck := rfl
@[simp] theorem State.takeRequest_count (s : State) : (s.takeRequest).count = s.count := rfl
@[simp] theorem State.takeRequest_phase (s : State) : (s.takeRequest).phase = s.phase := rfl
@[simp] theorem State.takeRequest_mode (s : State) : (s.takeRequest).mode = s.mode := rfl
@[simp] theorem State.takeRequest_idx (s : State) : (s.takeRequest).idx = s.idx := rfl
@[simp] theorem State.takeRequest_status (s : State) : (s.takeRequest).status = s.status := rfl
@[simp] theorem State.takeRequest_errIdx (s : State) : (s.takeRequest).errIdx = s.errIdx := rfl
@[simp] theorem State.takeRequest_errName (s : State) : (s.takeRequest).errName = s.errName := rfl
@[simp] theorem State.takeRequest_cnt (s : State) : (s.takeRequest).cnt = s.cnt := rfl
@[simp] theorem State.takeRequest_openHandles (s : State) : (s.takeRequest).openHandles = s.openHandles := rfl
@[simp] theorem State.takeRequest_config (s : State) : (s.takeRequest).config = s.config := rfl
@[simp] theorem State.takeRequest_pending (s : State) : (s.takeRequest).pending = s.pending.tail := rfl
@[simp] theorem State.takeRequest_out (s : State) : (s.takeRequest).out = s.out := rfl
@[simp] theorem State.takeRequest_exit (s : State) : (s.takeRequest).exit = s.exit := rfl
@[simp] theorem State.takeRequest_launchFault (s : State) : (s.takeRequest).launchFault = s.launchFault := rfl
@[simp] theorem State.takeRequest_freeCounter (s : State) : (s.takeRequest).freeCounter = s.freeCounter := rfl
@[simp] theorem State.takeRequest_collab (s : State) : (s.takeRequest).collab = s.collab := rfl

end Sys2Proof.Machine
end

