-- ==== Sys2Proof/Laws/Memory.lean ====
section
/-! SUPPORT. Read after write, and that every memory operation keeps the canonical form and the address
space (spec/20_memory.md R30 to R33). -/

namespace Sys2Proof.Machine

@[simp] theorem Memory.read_nil (k : Nat) : Memory.read [] k = none := rfl

theorem Memory.read_cons (a k : Nat) (v : Cell) (m : Memory) :
    Memory.read ((a, v) :: m) k = if a = k then some v else Memory.read m k := rfl

@[simp] theorem Memory.read_write_same (m : Memory) (k : Nat) (v : Cell) :
    Memory.read (Memory.write m k v) k = some v := by
  induction m with
  | nil => simp [Memory.write, Memory.read_cons]
  | cons p m ih =>
    obtain ⟨a, w⟩ := p
    unfold Memory.write
    split
    · simp [Memory.read_cons]
    · split
      · simp [Memory.read_cons]
      · rename_i _ h
        simp only [Memory.read_cons, if_neg (Ne.symm h), ih]

theorem Memory.read_write_other (m : Memory) (k a : Nat) (v : Cell) (h : a ≠ k) :
    Memory.read (Memory.write m k v) a = Memory.read m a := by
  induction m with
  | nil => simp [Memory.write, Memory.read_cons, Ne.symm h]
  | cons p m ih =>
    obtain ⟨b, w⟩ := p
    unfold Memory.write
    split
    · simp [Memory.read_cons, Ne.symm h]
    · split
      · rename_i _ e
        subst e
        simp [Memory.read_cons, Ne.symm h]
      · simp only [Memory.read_cons, ih]

/-- A cell written in a run of cells reads as written; every other cell reads as before. -/
theorem Memory.read_writeCells (vs : List Cell) (m : Memory) (k a : Nat) :
    Memory.read (Memory.writeCells m k vs) a =
      if k ≤ a ∧ a < k + vs.length then vs[a - k]? else Memory.read m a := by
  induction vs generalizing m k with
  | nil =>
    have : ¬ (k ≤ a ∧ a < k + ([] : List Cell).length) := by simp only [List.length_nil]; omega
    rw [if_neg this]; rfl
  | cons v vs ih =>
    simp only [Memory.writeCells, ih, List.length_cons]
    by_cases h1 : k + 1 ≤ a ∧ a < k + 1 + vs.length
    · rw [if_pos h1, if_pos (by omega), show a - k = (a - (k + 1)) + 1 by omega, List.getElem?_cons_succ]
    · rw [if_neg h1]
      by_cases h2 : a = k
      · subst h2; rw [if_pos (by omega)]; simp
      · rw [if_neg (by omega), Memory.read_write_other _ _ _ _ h2]

theorem Memory.mem_write (m : Memory) (k : Nat) (v : Cell) (p : Nat × Cell) :
    p ∈ Memory.write m k v → p = (k, v) ∨ p ∈ m := by
  induction m with
  | nil => simp [Memory.write]
  | cons q m ih =>
    obtain ⟨a, w⟩ := q
    unfold Memory.write
    split
    · simp
    · split
      · intro h
        rcases List.mem_cons.mp h with h | h
        · exact .inl h
        · exact .inr (List.mem_cons_of_mem _ h)
      · intro h
        rcases List.mem_cons.mp h with h | h
        · exact .inr (by simp [h])
        · rcases ih h with h | h
          · exact .inl h
          · exact .inr (List.mem_cons_of_mem _ h)

/-- A write keeps the canonical form. -/
theorem Memory.wf_write (m : Memory) (k : Nat) (v : Cell) (h : Memory.wf m) : Memory.wf (Memory.write m k v) := by
  induction m with
  | nil => simp [Memory.write, Memory.wf]
  | cons p m ih =>
    obtain ⟨a, w⟩ := p
    obtain ⟨h1, h2⟩ := List.pairwise_cons.mp h
    unfold Memory.write
    split
    · rename_i hk
      refine List.pairwise_cons.mpr ⟨fun q hq => ?_, h⟩
      rcases List.mem_cons.mp hq with hq | hq
      · simpa [hq] using hk
      · exact Nat.lt_trans hk (h1 q hq)
    · split
      · rename_i _ e
        subst e
        exact List.pairwise_cons.mpr ⟨h1, h2⟩
      · rename_i hk hne
        refine List.pairwise_cons.mpr ⟨fun q hq => ?_, ih h2⟩
        rcases Memory.mem_write _ _ _ _ hq with hq | hq
        · subst hq; show a < k; omega
        · exact h1 q hq

/-- A run of writes keeps the canonical form. -/
theorem Memory.wf_writeCells (vs : List Cell) (m : Memory) (k : Nat) (h : Memory.wf m) :
    Memory.wf (Memory.writeCells m k vs) := by
  induction vs generalizing m k with
  | nil => exact h
  | cons v vs ih => exact ih _ _ (Memory.wf_write m k v h)

/-- A run of writes inside the address space keeps every listed address inside it. -/
theorem Memory.range_writeCells (vs : List Cell) (m : Memory) (k n : Nat) (h : ∀ p ∈ m, p.1 < n)
    (hk : k + vs.length ≤ n) : ∀ p ∈ Memory.writeCells m k vs, p.1 < n := by
  induction vs generalizing m k with
  | nil => exact h
  | cons v vs ih =>
    simp only [List.length_cons] at hk
    refine ih _ _ (fun p hp => ?_) (by omega)
    rcases Memory.mem_write _ _ _ _ hp with hp | hp
    · subst hp; show k < n; omega
    · exact h p hp

/-- The memory at reset has the canonical form. -/
theorem reset_memory_wf : Memory.wf State.reset.deck := List.Pairwise.nil

/-- A cell of a card: the 80 cells of a card do not overlap another card's. -/
theorem read_putCard (s : State) (cells : List Cell) (hl : cells.length = cardColumns) (card col : Nat)
    (hc : col < cardColumns) :
    Memory.read (s.putCard cells).deck (cellAddr card col) =
      if card = s.count.toNat then cells[col]? else Memory.read s.deck (cellAddr card col) := by
  simp only [State.putCard_deck, Memory.read_writeCells, hl, cellAddr, cardColumns] at *
  by_cases h : card = s.count.toNat
  · subst h
    rw [if_pos (by omega), if_pos rfl]
    congr 1; omega
  · rw [if_neg (by omega), if_neg h]

end Sys2Proof.Machine
end

