-- ==== Sys2Proof/Laws/Collab.lean ====
section
/-! SUPPORT. What a call to a collaborator can answer, and what the usual collaborators (an exhausted script)
answer (spec/20_memory.md R35 to R38). -/

namespace Sys2Proof.Machine

section Keys
variable {α β : Type} [DecidableEq α]

@[simp] theorem lookupKey_setKey_same (k : α) (v : β) (m : List (α × β)) :
    lookupKey k (setKey k v m) = some v := by
  induction m with
  | nil => simp [setKey, lookupKey]
  | cons p m ih =>
    obtain ⟨a, b⟩ := p
    unfold setKey
    split
    · simp [lookupKey]
    · rename_i h; simp [lookupKey, h, ih]

theorem lookupKey_setKey_other (k k' : α) (v : β) (m : List (α × β)) (h : k' ≠ k) :
    lookupKey k' (setKey k v m) = lookupKey k' m := by
  induction m with
  | nil => simp [setKey, lookupKey, Ne.symm h]
  | cons p m ih =>
    obtain ⟨a, b⟩ := p
    unfold setKey
    split
    · rename_i e; subst e; simp [lookupKey, Ne.symm h]
    · simp [lookupKey, ih]

@[simp] theorem setKey_setKey (k : α) (v w : β) (m : List (α × β)) :
    setKey k v (setKey k w m) = setKey k v m := by
  induction m with
  | nil => simp [setKey]
  | cons p m ih =>
    obtain ⟨a, b⟩ := p
    simp only [setKey]
    split
    · simp [setKey]
    · rename_i h; simp [setKey, h, ih]

/-- Setting a key to the value it has changes nothing. -/
theorem setKey_of_lookupKey (k : α) (v : β) (m : List (α × β)) (h : lookupKey k m = some v) :
    setKey k v m = m := by
  induction m with
  | nil => simp [lookupKey] at h
  | cons p m ih =>
    obtain ⟨a, b⟩ := p
    simp only [lookupKey] at h
    simp only [setKey]
    split
    · rename_i e; simp only [if_pos e, Option.some.injEq] at h; rw [h, e]
    · rename_i e; rw [if_neg e] at h; rw [ih h]

end Keys

@[simp] theorem Collab.nextReply_nil (c : Collab) (h : c.script = []) : c.nextReply = .usual := by
  simp [Collab.nextReply, h]

/-- Everything a call can do to the collaborators' trace: it is noted once, at the end. -/
theorem Collab.openRead_trace (c : Collab) (name : Text) :
    match c.openRead name with
    | .ok _ c' => c'.trace = c.trace ++ [(.openRead name, true)]
    | .error _ c' => c'.trace = c.trace ++ [(.openRead name, false)]
    | .silent => True := by
  unfold Collab.openRead
  cases c.nextReply <;> cases c.fileOf name <;> simp [Collab.note, Collab.grantReader]

theorem Collab.read_trace (c : Collab) (h : Nat) :
    match c.read h with
    | .ok _ c' => c'.trace = c.trace ++ [(.read h, true)]
    | .error _ c' => c'.trace = c.trace ++ [(.read h, false)]
    | .silent => True := by
  unfold Collab.read
  cases c.nextReply <;> simp only [Collab.note] <;> try trivial
  all_goals
    rcases lookupKey h c.readers with _ | (_ | ⟨r, rs⟩) <;> rfl

theorem Collab.openWrite_trace (c : Collab) (name : Text) :
    match c.openWrite name with
    | .ok _ c' => c'.trace = c.trace ++ [(.openWrite name, true)]
    | .error _ c' => c'.trace = c.trace ++ [(.openWrite name, false)]
    | .silent => True := by
  unfold Collab.openWrite
  cases c.nextReply <;> simp [Collab.note, Collab.grantWriter]

@[simp] theorem Collab.append_trace (c : Collab) (h : Nat) (row : Row) : (c.append h row).trace = c.trace := by
  unfold Collab.append
  cases lookupKey h c.writers <;> rfl

theorem Collab.write_trace (c : Collab) (h : Nat) (row : Row) :
    match c.write h row with
    | .ok _ c' => c'.trace = c.trace ++ [(.write h row, true)]
    | .error _ c' => c'.trace = c.trace ++ [(.write h row, false)]
    | .silent => True := by
  unfold Collab.write
  cases c.nextReply <;> simp [Collab.note]

theorem Collab.release_trace (c : Collab) (h : Nat) :
    match c.release h with
    | .ok _ c' => c'.trace = c.trace ++ [(.release h, true)]
    | .error _ c' => c'.trace = c.trace ++ [(.release h, false)]
    | .silent => True := by
  unfold Collab.release
  cases c.nextReply <;> simp [Collab.note, Collab.close]

theorem Collab.tell_trace (c : Collab) (call : Call) :
    match c.tell call with
    | .ok _ c' => c'.trace = c.trace ++ [(call, true)]
    | .error _ c' => c'.trace = c.trace ++ [(call, false)]
    | .silent => True := by
  unfold Collab.tell
  cases c.nextReply <;> simp [Collab.note]

/-! ### The usual collaborators -/

/-- The usual collaborators open a source they hold. -/
theorem Collab.openRead_usual (c : Collab) (name : Text) (rows : List Row) (hs : c.script = [])
    (hf : c.fileOf name = some rows) :
    c.openRead name = .ok c.nextHandle ((c.note (.openRead name) true).grantReader name rows) := by
  simp [Collab.openRead, Collab.nextReply_nil c hs, hf]

/-- The usual collaborators answer an open of a name they hold no file of with their error for it. -/
theorem Collab.openRead_missing (c : Collab) (name : Text) (hs : c.script = []) (hf : c.fileOf name = none) :
    c.openRead name = .error c.missing (c.note (.openRead name) false) := by
  simp [Collab.openRead, Collab.nextReply_nil c hs, hf]

/-- The usual collaborators deliver the next row of an open source. -/
theorem Collab.read_usual_row (c : Collab) (h : Nat) (r : Row) (rs : List Row) (hs : c.script = [])
    (hr : lookupKey h c.readers = some (r :: rs)) :
    c.read h = .ok (some r) { c.note (.read h) true with readers := setKey h rs c.readers } := by
  simp [Collab.read, Collab.nextReply_nil c hs, hr]

/-- The usual collaborators answer the end of an open source whose rows are all delivered. -/
theorem Collab.read_usual_end (c : Collab) (h : Nat) (hs : c.script = []) (hr : lookupKey h c.readers = some []) :
    c.read h = .ok none (c.note (.read h) true) := by
  simp [Collab.read, Collab.nextReply_nil c hs, hr]

/-- The usual collaborators open any destination. -/
theorem Collab.openWrite_usual (c : Collab) (name : Text) (hs : c.script = []) :
    c.openWrite name = .ok c.nextHandle ((c.note (.openWrite name) true).grantWriter name) := by
  simp [Collab.openWrite, Collab.nextReply_nil c hs]

/-- The usual collaborators take every row. -/
theorem Collab.write_usual (c : Collab) (h : Nat) (row : Row) (hs : c.script = []) :
    c.write h row = .ok () ((c.note (.write h row) true).append h row) := by
  simp [Collab.write, Collab.nextReply_nil c hs]

/-- The usual collaborators release every handle. -/
theorem Collab.release_usual (c : Collab) (h : Nat) (hs : c.script = []) :
    c.release h = .ok () ((c.note (.release h) true).close h) := by
  simp [Collab.release, Collab.nextReply_nil c hs]

/-- The usual sinks take every line. -/
theorem Collab.tell_usual (c : Collab) (call : Call) (hs : c.script = []) :
    c.tell call = .ok () (c.note call true) := by
  simp [Collab.tell, Collab.nextReply_nil c hs]

end Sys2Proof.Machine
end

