-- ==== Sys2Proof/Laws/Cards.lean ====
section
/-! SUPPORT. Reading card images (spec/20_memory.md R32, R33), and what storing a run of cards does. -/

namespace Sys2Proof.Machine

theorem readCell_of_lt (s : State) (card col : Nat) (h : card < s.count.toNat) (hc : col < cardColumns) :
    s.readCell card col = Memory.read s.deck (cellAddr card col) := by
  simp only [State.readCell]; rw [if_pos ⟨h, hc⟩]

/-- No card at or above COUNT is readable (20_memory.md R32). -/
theorem readCell_unpopulated (s : State) (card col : Nat) (h : s.count.toNat ≤ card) : s.readCell card col = none := by
  simp only [State.readCell]; rw [if_neg (by omega)]

theorem readCard_unpopulated (s : State) (i : Nat) (h : s.count.toNat ≤ i) : s.readCard i = none := by
  simp only [State.readCard, readCell_unpopulated s i _ h]
  rfl

/-- A card whose eighty cells read as a row's cells reads as that row. -/
theorem readCard_eq (s : State) (i : Nat) (r : Row) (h : ∀ c : Fin 80, s.readCell i c.val = some r[c]) :
    s.readCard i = some r := by
  have h1 : (List.range cardColumns).all (fun c => (s.readCell i c).isSome) = true := by
    simp only [List.all_eq_true, List.mem_range]
    intro c hc
    rw [h ⟨c, hc⟩]; rfl
  simp only [State.readCard]
  rw [if_pos h1]
  refine congrArg some (Vector.ext fun c hc => ?_)
  rw [Vector.getElem_ofFn, h ⟨c, hc⟩]
  rfl

/-- What a readable card holds: its cells, each listed. -/
theorem readCell_of_readCard (s : State) (i : Nat) (r : Row) (h : s.readCard i = some r) (c : Fin 80) :
    s.readCell i c.val = some r[c] := by
  simp only [State.readCard] at h
  split at h
  · rename_i ha
    simp only [List.all_eq_true, List.mem_range] at ha
    obtain ⟨v, hv⟩ := Option.isSome_iff_exists.mp (ha c.val c.isLt)
    simp only [Option.some.injEq] at h
    subst h
    simp [hv]
  · cases h

/-- A populated card is readable (20_memory.md R32). -/
theorem readCard_populated (s : State) (hp : s.Populated) (i : Nat) (h : i < s.count.toNat) :
    ∃ r, s.readCard i = some r := by
  have h1 : (List.range cardColumns).all (fun c => (s.readCell i c).isSome) = true := by
    simp only [List.all_eq_true, List.mem_range]
    intro c hc
    rw [readCell_of_lt s i c h hc]
    exact hp i c h hc
  simp only [State.readCard]
  rw [if_pos h1]
  exact ⟨_, rfl⟩

/-- The store with card images appended in order. -/
def State.storeCards (s : State) (cards : List (List Cell)) : State := cards.foldl State.putCard s

@[simp] theorem State.storeCards_nil (s : State) : s.storeCards [] = s := rfl

@[simp] theorem State.storeCards_cons (s : State) (c : List Cell) (cs : List (List Cell)) :
    s.storeCards (c :: cs) = (s.putCard c).storeCards cs := rfl

/-- Storing cards changes the buffer and COUNT alone. -/
theorem State.storeCards_eq (cards : List (List Cell)) (s : State) :
    s.storeCards cards = { s with deck := (s.storeCards cards).deck, count := (s.storeCards cards).count } := by
  induction cards generalizing s with
  | nil => rfl
  | cons c cs ih => rw [State.storeCards_cons, ih (s.putCard c)]; rfl

/-- Storing cards reads the buffer and COUNT alone. -/
theorem State.storeCards_congr (cards : List (List Cell)) (s t : State) (hd : t.deck = s.deck)
    (hn : t.count = s.count) :
    t.storeCards cards = { t with deck := (s.storeCards cards).deck, count := (s.storeCards cards).count } := by
  induction cards generalizing s t with
  | nil => cases t; simp only at hd hn; subst hd hn; rfl
  | cons c cs ih =>
    rw [State.storeCards_cons, State.storeCards_cons, ih (s.putCard c) (t.putCard c) (by simp [hd, hn]) (by simp [hn])]
    rfl

/-- COUNT counts the cards stored, as long as they fit. -/
theorem State.storeCards_count (cards : List (List Cell)) (s : State)
    (h : s.count.toNat + cards.length ≤ deckCapacity) :
    (s.storeCards cards).count.toNat = s.count.toNat + cards.length := by
  induction cards generalizing s with
  | nil => rfl
  | cons c cs ih =>
    simp only [List.length_cons, deckCapacity] at h
    have h1 : (s.putCard c).count.toNat = s.count.toNat + 1 := by
      simp only [State.putCard_count, BitVec.toNat_add, BitVec.toNat_ofNat]; omega
    rw [State.storeCards_cons, ih _ (by rw [h1]; simp only [deckCapacity]; omega), h1, List.length_cons]
    omega

/-- The cells of the buffer after cards are stored: the new cards from the old COUNT on, and every other cell
as before. -/
theorem State.read_storeCards (cards : List (List Cell)) (s : State)
    (h : s.count.toNat + cards.length ≤ deckCapacity) (hl : ∀ c ∈ cards, c.length = cardColumns) (a : Nat) :
    Memory.read (s.storeCards cards).deck a =
      if cardColumns * s.count.toNat ≤ a ∧ a < cardColumns * (s.count.toNat + cards.length) then
        (cards[a / cardColumns - s.count.toNat]?).bind (fun img => img[a % cardColumns]?)
      else Memory.read s.deck a := by
  induction cards generalizing s with
  | nil => rw [if_neg (by simp only [List.length_nil, Nat.add_zero]; omega)]; rfl
  | cons c cs ih =>
    simp only [List.length_cons, deckCapacity] at h
    have h1 : (s.putCard c).count.toNat = s.count.toNat + 1 := by
      simp only [State.putCard_count, BitVec.toNat_add, BitVec.toNat_ofNat]; omega
    have hc : c.length = cardColumns := hl c (by simp)
    rw [State.storeCards_cons, ih _ (by rw [h1]; simp only [deckCapacity]; omega)
      (fun x hx => hl x (List.mem_cons_of_mem _ hx)), h1]
    simp only [List.length_cons, State.putCard_deck, Memory.read_writeCells, hc, cellAddr, cardColumns,
      Nat.add_zero]
    by_cases hA : 80 * (s.count.toNat + 1) ≤ a ∧ a < 80 * (s.count.toNat + 1 + cs.length)
    · rw [if_pos hA, if_pos (by omega),
        show a / 80 - s.count.toNat = (a / 80 - (s.count.toNat + 1)) + 1 by omega, List.getElem?_cons_succ]
    · rw [if_neg hA]
      by_cases hB : 80 * s.count.toNat ≤ a ∧ a < 80 * s.count.toNat + 80
      · rw [if_pos hB, if_pos (by omega), show a / 80 - s.count.toNat = 0 by omega]
        simp only [List.getElem?_cons_zero, Option.bind_some]
        congr 1; omega
      · rw [if_neg hB, if_neg (by omega)]

/-- The cards stored are read back whole. -/
theorem State.readCard_storeCards (cards : List (List Cell)) (s : State)
    (h : s.count.toNat + cards.length ≤ deckCapacity) (hl : ∀ c ∈ cards, c.length = cardColumns)
    (j : Nat) (r : Row) (hr : cards[j]? = some r.toList) :
    (s.storeCards cards).readCard (s.count.toNat + j) = some r := by
  have hj : j < cards.length := (List.getElem?_eq_some_iff.mp hr).1
  refine readCard_eq _ _ _ (fun c => ?_)
  have hcount := State.storeCards_count cards s h
  rw [readCell_of_lt _ _ _ (by omega) c.isLt, State.read_storeCards cards s h hl]
  have hc := c.isLt
  simp only [cellAddr, cardColumns] at *
  rw [if_pos (by omega), show (80 * (s.count.toNat + j) + c.val) / 80 - s.count.toNat = j by omega, hr,
    show (80 * (s.count.toNat + j) + c.val) % 80 = c.val by omega]
  simp

/-- The cards that were there are read as before. -/
theorem State.readCard_storeCards_old (cards : List (List Cell)) (s : State)
    (h : s.count.toNat + cards.length ≤ deckCapacity) (hl : ∀ c ∈ cards, c.length = cardColumns)
    (i : Nat) (hi : i < s.count.toNat) : (s.storeCards cards).readCard i = s.readCard i := by
  have hcell : ∀ c, c < cardColumns → (s.storeCards cards).readCell i c = s.readCell i c := by
    intro c hc
    have hcount := State.storeCards_count cards s h
    rw [readCell_of_lt _ _ _ (by omega) hc, readCell_of_lt _ _ _ hi hc, State.read_storeCards cards s h hl]
    simp only [cellAddr, cardColumns] at *
    rw [if_neg (by omega)]
  simp only [State.readCard]
  have : (List.range cardColumns).all (fun c => ((s.storeCards cards).readCell i c).isSome)
      = (List.range cardColumns).all (fun c => (s.readCell i c).isSome) := by
    refine Bool.eq_iff_iff.mpr ?_
    simp only [List.all_eq_true, List.mem_range]
    exact ⟨fun h c hc => by rw [← hcell c hc]; exact h c hc, fun h c hc => by rw [hcell c hc]; exact h c hc⟩
  rw [this]
  split
  · refine congrArg some (Vector.ext fun c hc => ?_)
    rw [Vector.getElem_ofFn, Vector.getElem_ofFn, hcell c hc]
  · rfl

end Sys2Proof.Machine
end

