-- ==== Sys2Proof/Laws/Run.lean ====
section
/-! SUPPORT. What each shared operation of Machine/Ops.lean can do, said once: how an operation ends, the parts
of a run, the calls to collaborators, the abort sequence (spec/60_exceptions.md R158), loading and saving
(spec/43_deckstore.md R122, R123). -/

namespace Sys2Proof.Machine

/-! ### Ends -/

@[simp] theorem complete_eq (out : Port) (s : State) : complete out s = .next (s.finish statusOk out) := rfl

theorem complete_next_iff {out : Port} {s t : State} : complete out s = .next t ↔ t = s.finish statusOk out := by
  simp [eq_comm]

@[simp] theorem refuse_eq (why : RefuseReason) (s : State) :
    refuse why s = .next { s with status := statusRefused, out := .refused why, launchFault := true } := rfl

@[simp] theorem raisePlain_eq (e : ErrorReport) (s : State) :
    raisePlain e s = .next { s with status := e.status, out := .failed e } := rfl

/-- If the abort sequence answers a next state, every handle was released, ERRNAME and ERRIDX are recorded,
the store is reset but for `OutOfRange`, and STATUS and the port carry the error. -/
theorem abort_next {e : Raised} {s t : State} (h : abort e s = .next t) :
    ∃ c, s.collab.releaseAll s.openHandles = some c ∧
      t = (if e.report = .outOfRange then
            (State.recordError { s with collab := c, openHandles := [] } e.name e.index)
           else (State.recordError { s with collab := c, openHandles := [] } e.name e.index).storeReset).finish
            e.report.status (.failed e.report) := by
  unfold abort at h
  cases hc : s.collab.releaseAll s.openHandles with
  | none => rw [hc] at h; cases h
  | some c =>
    rw [hc] at h
    refine ⟨c, rfl, ?_⟩
    injection h with h
    exact h.symm

/-- The abort sequence with no handle open. -/
theorem abort_no_handle (e : Raised) (s : State) (h : s.openHandles = []) (hr : e.report ≠ .outOfRange) :
    abort e s = .next (((s.recordError e.name e.index).storeReset).finish e.report.status (.failed e.report)) := by
  cases s
  simp only at h
  subst h
  simp [abort, Collab.releaseAll, if_neg hr, State.recordError]

/-- `MalformedArgument` of a DeckStore operation, before it has opened a handle: the store is reset
(43_deckstore.md R126, 60_exceptions.md R158). -/
theorem abort_malformedArgument (s : State) (h : s.openHandles = []) :
    abort ⟨.malformedArgument, none, none⟩ s =
      .next { s.storeReset with status := 0x01#8, out := .failed .malformedArgument } :=
  abort_no_handle _ s h (by simp)

/-- `OutOfRange` with no handle open: STATUS, ERRNAME and the port are written, nothing else. -/
theorem abort_outOfRange (name : Option Text) (i : Option (BitVec 14)) (s : State) (h : s.openHandles = []) :
    abort ⟨.outOfRange, name, i⟩ s =
      .next ((s.recordError name i).finish (ErrorReport.status .outOfRange) (.failed .outOfRange)) := by
  cases s
  simp only at h
  subst h
  simp [abort, Collab.releaseAll, State.recordError]

/-- If an operation's run concludes in a next state, it completed or the abort sequence ran. -/
theorem conclude_next {r : Run Unit} {t : State} (h : r.conclude = .next t) :
    (∃ s, r = .done () s ∧ t = s.finish statusOk .completed) ∨ (∃ e s, r = .raised e s ∧ abort e s = .next t) := by
  cases r with
  | done a s => exact .inl ⟨s, rfl, complete_next_iff.mp h⟩
  | raised e s => exact .inr ⟨e, s, rfl, h⟩
  | halted f => cases h

@[simp] theorem conclude_done (s : State) : (Run.done () s).conclude = .next (s.finish statusOk .completed) := rfl

@[simp] theorem conclude_raised (e : Raised) (s : State) : (Run.raised e s : Run Unit).conclude = abort e s := rfl

@[simp] theorem conclude_halted (f : Fault) : (Run.halted f : Run Unit).conclude = .fault f := rfl

/-! ### Runs -/

@[simp] theorem Run.bind_done {α β : Type} (a : α) (s : State) (k : α → State → Run β) :
    (Run.done a s).bind k = k a s := rfl

@[simp] theorem Run.bind_raised {α β : Type} (e : Raised) (s : State) (k : α → State → Run β) :
    (Run.raised e s).bind k = .raised e s := rfl

@[simp] theorem Run.bind_halted {α β : Type} (f : Fault) (k : α → State → Run β) :
    (Run.halted f).bind k = .halted f := rfl

/-- A run of two parts that is done is done in both. -/
theorem Run.bind_eq_done {α β : Type} {r : Run α} {k : α → State → Run β} {b : β} {t : State} :
    r.bind k = .done b t ↔ ∃ a s, r = .done a s ∧ k a s = .done b t := by
  cases r <;> simp

/-- A run of two parts that raises an error raises it in one of them. -/
theorem Run.bind_eq_raised {α β : Type} {r : Run α} {k : α → State → Run β} {e : Raised} {t : State} :
    r.bind k = .raised e t ↔ r = .raised e t ∨ ∃ a s, r = .done a s ∧ k a s = .raised e t := by
  cases r <;> simp

/-- A property of the state where a run leaves it, done or with an error raised. -/
def Run.Holds {α : Type} (P : State → Prop) : Run α → Prop
  | .done _ s => P s
  | .raised _ s => P s
  | .halted _ => True

/-- A property every part of a run keeps holds where the run leaves the state. -/
theorem Run.Holds.bind {α β : Type} {P : State → Prop} {r : Run α} {k : α → State → Run β} (hr : r.Holds P)
    (hk : ∀ a s, r = .done a s → P s → (k a s).Holds P) : (r.bind k).Holds P := by
  cases r with
  | done a s => exact hk a s rfl hr
  | raised e s => exact hr
  | halted f => trivial

/-! ### Calls -/

theorem toRun_done {α : Type} {a : Answer α} {s t : State} {stage : IoStage} {name : Text}
    {i : Option (BitVec 14)} {v : α} :
    a.toRun s stage name i = .done v t ↔ ∃ c, a = .ok v c ∧ t = s.setCollab c := by
  cases a <;> simp [Answer.toRun, eq_comm]

theorem toRun_raised {α : Type} {a : Answer α} {s t : State} {stage : IoStage} {name : Text}
    {i : Option (BitVec 14)} {e : Raised} :
    a.toRun s stage name i = .raised e t ↔
      ∃ x c, a = .error x c ∧ e = ⟨.ioError stage x, some name, i⟩ ∧ t = s.setCollab c := by
  cases a with
  | ok v c => simp [Answer.toRun]
  | error x c =>
    simp only [Answer.toRun, Run.raised.injEq, Answer.error.injEq]
    constructor
    · rintro ⟨rfl, rfl⟩; exact ⟨x, c, ⟨rfl, rfl⟩, rfl, rfl⟩
    · rintro ⟨x', c', ⟨rfl, rfl⟩, rfl, rfl⟩; exact ⟨rfl, rfl⟩
  | silent => simp [Answer.toRun]

/-- A call leaves every field but `collab` as it was. -/
theorem toRun_holds {α : Type} (a : Answer α) (s : State) (stage : IoStage) (name : Text)
    (i : Option (BitVec 14)) {P : State → Prop} (h : ∀ c, P (s.setCollab c)) :
    (a.toRun s stage name i).Holds P := by
  cases a with
  | ok v c => exact h c
  | error x c => exact h c
  | silent => trivial

/-- `open_read` with the usual collaborators: the handle is added to OPEN_HANDLES. -/
theorem openRead_usual (name : Text) (s : State) (rows : List Row) (hs : s.collab.script = [])
    (hf : s.collab.fileOf name = some rows) :
    openRead name s = .done s.collab.nextHandle
      ((s.setCollab ((s.collab.note (.openRead name) true).grantReader name rows)).addHandle s.collab.nextHandle) := by
  simp [openRead, Collab.openRead_usual _ _ _ hs hf, Answer.toRun]

/-- `open_write` with the usual collaborators. -/
theorem openWrite_usual (name : Text) (s : State) (hs : s.collab.script = []) :
    openWrite name s = .done s.collab.nextHandle
      ((s.setCollab ((s.collab.note (.openWrite name) true).grantWriter name)).addHandle s.collab.nextHandle) := by
  simp [openWrite, Collab.openWrite_usual _ _ hs, Answer.toRun]

/-- `release` with the usual collaborators. -/
theorem releaseHandle_usual (h : Nat) (name : Text) (s : State) (hs : s.collab.script = []) :
    releaseHandle h name s = .done () ((s.dropHandle h).setCollab ((s.collab.note (.release h) true).close h)) := by
  simp [releaseHandle, Collab.release_usual _ _ hs, Answer.toRun]

/-! ### Loading -/

theorem State.storeCards_setIdx (cards : List (List Cell)) (s : State) (i : BitVec 14) :
    (s.setIdx i).storeCards cards = (s.storeCards cards).setIdx i := by
  induction cards generalizing s with
  | nil => rfl
  | cons c cs ih => exact ih (s.putCard c)

theorem State.storeCards_setCollab (cards : List (List Cell)) (s : State) (c : Collab) :
    (s.setCollab c).storeCards cards = (s.storeCards cards).setCollab c := by
  induction cards generalizing s with
  | nil => rfl
  | cons x xs ih => exact ih (s.putCard x)

/-- The collaborators after `n` reads of a handle whose source is at its end. -/
def Collab.readOut (c : Collab) (h n : Nat) : Collab :=
  { c with readers := setKey h [] c.readers, trace := c.trace ++ List.replicate n (.read h, true) }

/-- One row of an open source, from the usual collaborators, in the state LOAD reads it in. -/
theorem readRow_usual_row (h : Nat) (name : Text) (r : Row) (rs : List Row) (s : State)
    (hs : s.collab.script = []) (hr : lookupKey h s.collab.readers = some (r :: rs)) :
    readRow h name (s.setIdx s.count) = .done (some r) ((s.setIdx s.count).setCollab
      { s.collab.note (.read h) true with readers := setKey h rs s.collab.readers }) := by
  simp [readRow, Collab.read_usual_row _ _ _ _ hs hr, Answer.toRun]

theorem Collab.readOut_step (c : Collab) (h n : Nat) (rs : List Row) (hs : c.script = []) :
    Collab.readOut { c.note (.read h) true with readers := setKey h rs c.readers } h n = c.readOut h (n + 1) := by
  simp [Collab.readOut, Collab.note, hs, List.replicate_succ]

/-- Loading rows from the usual collaborators to the end of the source (43_deckstore.md R122): every row's
card is stored in order, IDX is COUNT, and one read more than there are rows was made. -/
theorem loadRows_usual (h : Nat) (name : Text) (rows : List Row) (cards : List (List Cell)) (room : Nat) (s : State)
    (hs : s.collab.script = []) (hr : lookupKey h s.collab.readers = some rows)
    (hc : rows.map (storedCells s.config s.mode) = cards.map .ok) (hroom : rows.length ≤ room) :
    loadRows h name room s = .done () (((s.storeCards cards).setIdx (s.storeCards cards).count).setCollab
      (s.collab.readOut h (rows.length + 1))) := by
  induction rows generalizing room s cards with
  | nil =>
    have hcards : cards = [] := by simpa using hc.symm
    subst hcards
    have e : readRow h name (s.setIdx s.count)
        = .done none ((s.setIdx s.count).setCollab (s.collab.readOut h 1)) := by
      simp only [readRow, State.setIdx_collab, Collab.read_usual_end _ _ hs hr, Answer.toRun]
      simp only [Collab.readOut, Collab.note, setKey_of_lookupKey _ _ _ hr, hs]
      congr
    cases room <;> simp [loadRows, e]
  | cons r rs ih =>
    cases room with
    | zero => simp at hroom
    | succ room =>
      obtain ⟨cells, cards, rfl⟩ : ∃ x xs, cards = x :: xs := by
        cases cards with
        | nil => simp at hc
        | cons x xs => exact ⟨x, xs, rfl⟩
      simp only [List.map_cons, List.cons.injEq] at hc
      have hlen : rs.length ≤ room := by simpa using hroom
      simp only [loadRows, readRow_usual_row h name r rs s hs hr, Run.bind_done, storeRow, State.setCollab_config,
        State.setIdx_config, State.setCollab_mode, State.setIdx_mode, hc.1]
      rw [ih cards room _ (by simp [Collab.note, hs]) (by simp) (by simpa using hc.2) hlen]
      have e1 : ((s.setIdx s.count).setCollab
            { s.collab.note (.read h) true with readers := setKey h rs s.collab.readers }).putCard cells
          = ((s.putCard cells).setIdx s.count).setCollab
            { s.collab.note (.read h) true with readers := setKey h rs s.collab.readers } := rfl
      rw [e1, State.storeCards_setCollab, State.storeCards_setIdx]
      simp only [State.storeCards_cons, List.length_cons, State.setCollab_collab, Collab.readOut_step _ _ _ _ hs]
      rfl

/-- A row delivered when there is no room left raises `DeckTooLarge` with IDX = COUNT, the cards that had room
stored (43_deckstore.md R122, R132): one read more than there was room for. -/
theorem loadRows_usual_tooLarge (h : Nat) (name : Text) (rows : List Row) (cards : List (List Cell)) (room : Nat)
    (s : State) (hs : s.collab.script = []) (hr : lookupKey h s.collab.readers = some rows)
    (hc : (rows.take room).map (storedCells s.config s.mode) = cards.map .ok) (hroom : room < rows.length) :
    ∃ c, loadRows h name room s = .raised ⟨.deckTooLarge, some name, some (s.storeCards cards).count⟩
        (((s.storeCards cards).setIdx (s.storeCards cards).count).setCollab c) ∧
      c.script = [] ∧ c.files = s.collab.files ∧
      c.trace = s.collab.trace ++ List.replicate (room + 1) (.read h, true) := by
  induction room generalizing rows s cards with
  | zero =>
    have hcards : cards = [] := by simpa using hc.symm
    subst hcards
    obtain ⟨r, rs, rfl⟩ : ∃ r rs, rows = r :: rs := by
      cases rows with
      | nil => simp at hroom
      | cons r rs => exact ⟨r, rs, rfl⟩
    refine ⟨_, by simp only [loadRows, readRow_usual_row h name r rs s hs hr, Run.bind_done]; rfl, ?_, ?_, ?_⟩ <;>
      simp [Collab.note, hs]
  | succ room ih =>
    obtain ⟨r, rs, rfl⟩ : ∃ r rs, rows = r :: rs := by
      cases rows with
      | nil => simp at hroom
      | cons r rs => exact ⟨r, rs, rfl⟩
    obtain ⟨cells, cards, rfl⟩ : ∃ x xs, cards = x :: xs := by
      cases cards with
      | nil => simp at hc
      | cons x xs => exact ⟨x, xs, rfl⟩
    simp only [List.take_succ_cons, List.map_cons, List.cons.injEq] at hc
    have hlen : room < rs.length := by simpa using hroom
    have e1 : ((s.setIdx s.count).setCollab
          { s.collab.note (.read h) true with readers := setKey h rs s.collab.readers }).putCard cells
        = ((s.putCard cells).setIdx s.count).setCollab
          { s.collab.note (.read h) true with readers := setKey h rs s.collab.readers } := rfl
    obtain ⟨c, h1, h2, h3, h4⟩ := ih rs cards (((s.putCard cells).setIdx s.count).setCollab
        { s.collab.note (.read h) true with readers := setKey h rs s.collab.readers })
      (by simp [Collab.note, hs]) (by simp) (by simpa using hc.2) hlen
    refine ⟨c, ?_, h2, h3, ?_⟩
    · simp only [loadRows, readRow_usual_row h name r rs s hs hr, Run.bind_done, storeRow, State.setCollab_config,
        State.setIdx_config, State.setCollab_mode, State.setIdx_mode, hc.1, e1, h1]
      rw [State.storeCards_setCollab, State.storeCards_setIdx]
      rfl
    · rw [h4]
      simp [Collab.note, List.replicate_succ]

/-! ### Writing and printing -/

@[simp] theorem readCard_setIdx (s : State) (i : BitVec 14) (k : Nat) : (s.setIdx i).readCard k = s.readCard k := rfl

@[simp] theorem readCard_setCollab (s : State) (c : Collab) (k : Nat) : (s.setCollab c).readCard k = s.readCard k := rfl

/-- IDX after a loop over `left` cards from card `i` on. -/
def State.idxAfter (s : State) (left i : Nat) : BitVec 14 :=
  if left = 0 then s.idx else BitVec.ofNat 14 (i + left - 1)

/-- The collaborators after rows are written to an open writer of a file. -/
def Collab.wrote (c : Collab) (h : Nat) (name : Text) (rows : List Row) : Collab :=
  { c with files := (if rows = [] then c.files else setKey name ((c.fileOf name).getD [] ++ rows) c.files),
           trace := c.trace ++ rows.map (fun r => (Call.write h r, true)) }

/-- Writing readable cards to the usual collaborators (43_deckstore.md R123): the rows go out in order, IDX is
the last card's index, and nothing else changes. -/
theorem writeCards_usual (h : Nat) (name : Text) (rows : List Row) (i : Nat) (s : State)
    (hs : s.collab.script = []) (hw : lookupKey h s.collab.writers = some name)
    (hr : ∀ j, j < rows.length → s.readCard (i + j) = rows[j]?) :
    writeCards h name rows.length i s =
      .done () ((s.setIdx (s.idxAfter rows.length i)).setCollab (s.collab.wrote h name rows)) := by
  induction rows generalizing i s with
  | nil =>
    simp only [List.length_nil, writeCards, State.idxAfter, Collab.wrote, if_true, List.map_nil, List.append_nil]
    rfl
  | cons r rs ih =>
    have h0 : s.readCard i = some r := by have := hr 0 (by simp); simpa using this
    simp only [List.length_cons, writeCards, readCard_setIdx, h0, writeRow, State.setIdx_collab,
      Collab.write_usual _ _ _ hs, Answer.toRun, Run.bind_done]
    have hcol : (s.collab.note (.write h r) true).append h r =
        { s.collab.note (.write h r) true with
          files := setKey name ((s.collab.fileOf name).getD [] ++ [r]) s.collab.files } := by
      simp only [Collab.append, Collab.note, hw]; rfl
    rw [hcol, ih (i + 1) _ (by simp [Collab.note, hs]) (by simpa [Collab.note] using hw) (fun j hj => by
      have := hr (j + 1) (by simp; omega)
      simp only [readCard_setCollab, readCard_setIdx]
      rw [show i + 1 + j = i + (j + 1) by omega, this]; simp)]
    congr 1
    have e2 : Collab.wrote { s.collab.note (.write h r) true with
          files := setKey name ((s.collab.fileOf name).getD [] ++ [r]) s.collab.files } h name rs
        = s.collab.wrote h name (r :: rs) := by
      by_cases hrs : rs = []
      · subst hrs; simp [Collab.wrote, Collab.note, hs]
      · simp [Collab.wrote, Collab.note, Collab.fileOf, hs, hrs]
    simp only [State.setCollab_collab, e2]
    have e3 : State.idxAfter ((s.setIdx (BitVec.ofNat 14 i)).setCollab { s.collab.note (.write h r) true with
          files := setKey name ((s.collab.fileOf name).getD [] ++ [r]) s.collab.files }) rs.length (i + 1)
        = s.idxAfter (rs.length + 1) i := by
      simp only [State.idxAfter, State.setCollab_idx, State.setIdx_idx]
      split
      · rename_i h0; rw [h0]; simp
      · rw [if_neg (by omega)]; congr 1; omega
    rw [e3]
    rfl

/-- The calls of printing cards: the console, then the secondary sink where one is attached
(43_deckstore.md R128, 20_memory.md R37). -/
def printCalls (cfg : Config) (sink2 : Bool) (rows : List Row) : List (Call × Bool) :=
  rows.flatMap fun r =>
    (Call.console (printRow cfg r), true) ::
      (if sink2 then [(Call.sink2 (printRow cfg r ++ cfg.lineTerm), true)] else [])

/-- Printing readable cards to the usual collaborators (43_deckstore.md R128). -/
theorem printCards_usual (sink2 : Bool) (rows : List Row) (i : Nat) (s : State) (hs : s.collab.script = [])
    (hr : ∀ j, j < rows.length → s.readCard (i + j) = rows[j]?) :
    printCards sink2 rows.length i s =
      .done () ((s.setIdx (s.idxAfter rows.length i)).setCollab
        { s.collab with trace := s.collab.trace ++ printCalls s.config sink2 rows }) := by
  induction rows generalizing i s with
  | nil =>
    simp only [List.length_nil, printCards, State.idxAfter, printCalls, if_true, List.flatMap_nil, List.append_nil]
    rfl
  | cons r rs ih =>
    have h0 : s.readCard i = some r := by have := hr 0 (by simp); simpa using this
    have hrest : ∀ (c : Collab) (j : Nat), j < rs.length →
        ((s.setIdx (BitVec.ofNat 14 i)).setCollab c).readCard (i + 1 + j) = rs[j]? := by
      intro c j hj
      have := hr (j + 1) (by simp; omega)
      simp only [readCard_setCollab, readCard_setIdx]
      rw [show i + 1 + j = i + (j + 1) by omega, this]; simp
    have hidx : ∀ c : Collab, State.idxAfter ((s.setIdx (BitVec.ofNat 14 i)).setCollab c) rs.length (i + 1)
        = s.idxAfter (rs.length + 1) i := by
      intro c
      simp only [State.idxAfter, State.setCollab_idx, State.setIdx_idx]
      split
      · rename_i h0; rw [h0]; simp
      · rw [if_neg (by omega)]; congr 1; omega
    have hnote : ∀ call, (s.collab.note call true).script = [] := by intro call; simp [Collab.note, hs]
    simp only [List.length_cons, printCards, readCard_setIdx, h0, consoleWrite, State.setIdx_collab,
      Collab.tell_usual _ _ hs, Answer.toRun, Run.bind_done]
    cases sink2 with
    | true =>
      have e : ∀ c : Collab, ((s.setIdx (BitVec.ofNat 14 i)).setCollab (s.collab.note (.console (printRow s.config r)) true)).setCollab c
          = (s.setIdx (BitVec.ofNat 14 i)).setCollab c := fun c => rfl
      simp only [if_true, sink2Write, State.setCollab_collab, State.setCollab_config, State.setIdx_config,
        Collab.tell_usual _ _ (hnote _), Answer.toRun, Run.bind_done, e]
      rw [ih (i + 1) _ (by simp [Collab.note, hs]) (hrest _), hidx]
      congr 1
      simp only [State.setCollab_collab, State.setCollab_config, State.setIdx_config]
      have : printCalls s.config true (r :: rs) = (Call.console (printRow s.config r), true) ::
          (Call.sink2 (printRow s.config r ++ s.config.lineTerm), true) :: printCalls s.config true rs := rfl
      rw [this]
      simp [Collab.note, hs, State.setCollab, State.setIdx]
    | false =>
      simp only [Bool.false_eq_true, if_false]
      rw [ih (i + 1) _ (by simp [Collab.note, hs]) (hrest _), hidx]
      congr 1
      simp only [State.setCollab_collab, State.setCollab_config, State.setIdx_config]
      have : printCalls s.config false (r :: rs) = (Call.console (printRow s.config r), true) ::
          printCalls s.config false rs := rfl
      rw [this]
      simp [Collab.note, hs, State.setCollab, State.setIdx]

end Sys2Proof.Machine
end

