-- ==== Sys2Proof/Laws/Codec.lean ====
section
/-! SUPPORT. What the shared operand functions compute, said once: digit groups (spec/40_wordcodec.md R70, R71),
ports (spec/30_encoding.md R46, R52), table lookups (spec/41_charcodec.md R86, R90, R94,
spec/42_instructioncodec.md R100, R101). -/

namespace Sys2Proof.Machine

/-! ### Digit groups -/

/-- The closed form of `takeLeadingDigits` (40_wordcodec.md R70). -/
theorem takeLeadingDigits_eq (m k : Nat) (hm : m < wordMod) (hk : k ≤ 9) :
    takeLeadingDigits m k = (m / 10 ^ (10 - k), m % 10 ^ (10 - k) * 10 ^ k) := by
  unfold wordMod at hm
  interval_cases k <;> simp only [takeLeadingDigits, takeLeadingFrom, Prod.mk.injEq] <;> norm_num <;>
    constructor <;> omega

theorem extractDigits_leading (w : Word) (k : Nat) (hw : w.WellFormed) (h1 : 1 ≤ k) (h9 : k ≤ 9) :
    extractDigits w (k : Int) = (w.mag / 10 ^ (10 - k), ⟨w.sign, w.mag % 10 ^ (10 - k) * 10 ^ k⟩) := by
  unfold extractDigits
  rw [if_pos (by omega : (0 : Int) < k), Int.toNat_natCast, takeLeadingDigits_eq w.mag k hw h9]

theorem extractDigits_trailing (w : Word) (k : Nat) (h1 : 1 ≤ k) :
    extractDigits w (-(k : Int)) = (w.mag % 10 ^ k, ⟨w.sign, w.mag / 10 ^ k⟩) := by
  unfold extractDigits
  rw [if_neg (by omega : ¬ (0 : Int) < -(k : Int)), if_pos (by omega : -(k : Int) < 0), Int.neg_neg,
    Int.toNat_natCast]
  rfl

@[simp] theorem extractDigits_zero (w : Word) : extractDigits w 0 = (0, w) := by simp [extractDigits]

/-- DISASM's three extractions give the three fields (42_instructioncodec.md R102). -/
theorem disassemble_eq (cfg : Config) (w : Word) (hw : w.WellFormed) :
    disassemble cfg w = ⟨lookupTag cfg (w.mag / 10 ^ 8), w.mag / 10 ^ 8, w.mag / 10 ^ 4 % 10 ^ 4, w.mag % 10 ^ 4⟩ := by
  have hw' : w.mag < 10000000000 := hw
  have a := extractDigits_leading w 2 hw (by norm_num) (by norm_num)
  have hb : Word.WellFormed ⟨w.sign, w.mag % 10 ^ 8 * 10 ^ 2⟩ := by
    show w.mag % 10 ^ 8 * 10 ^ 2 < 10000000000; omega
  have b := extractDigits_leading _ 4 hb (by norm_num) (by norm_num)
  have hc : Word.WellFormed ⟨w.sign, (w.mag % 10 ^ 8 * 10 ^ 2) % 10 ^ 6 * 10 ^ 4⟩ := by
    show (w.mag % 10 ^ 8 * 10 ^ 2) % 10 ^ 6 * 10 ^ 4 < 10000000000; omega
  have c := extractDigits_leading _ 4 hc (by norm_num) (by norm_num)
  norm_num at a b c
  simp only [disassemble, a, b, c]
  norm_num
  constructor <;> omega

/-! ### Ports -/

theorem decodeBcd_encodeBcd (k m : Nat) (h : m < 10 ^ k) : decodeBcd k (encodeBcd k m) = some m := by
  induction k generalizing m with
  | zero => simp [decodeBcd]; omega
  | succ k ih =>
    have h1 : m / 10 < 10 ^ k := by rw [Nat.pow_succ] at h; omega
    have h2 : (m % 10 + 16 * encodeBcd k (m / 10)) % 16 = m % 10 := by omega
    have h3 : (m % 10 + 16 * encodeBcd k (m / 10)) / 16 = encodeBcd k (m / 10) := by omega
    simp only [encodeBcd, decodeBcd, h2, h3, ih _ h1]
    rw [if_pos (by omega)]
    simp only [Option.map_some, Option.some.injEq]
    omega

theorem encodeBcd_lt (k m : Nat) : encodeBcd k m < 16 ^ k := by
  induction k generalizing m with
  | zero => simp [encodeBcd]
  | succ k ih =>
    have := ih (m / 10)
    simp only [encodeBcd, Nat.pow_succ]
    omega

theorem wordPort_toNat (a b : Nat) (ha : a < 1099511627776) (hb : b < 2) :
    (BitVec.ofNat 41 (a + b * 1099511627776)).toNat = a + b * 1099511627776 := by
  rw [BitVec.toNat_ofNat]
  apply Nat.mod_eq_of_lt
  norm_num
  omega

/-- A sign and ten BCD digits on a word port (30_encoding.md R46). -/
theorem decodeWord_of_bcd (b : Nat) (s : Sign) (m : Nat) (hb : b < 1099511627776)
    (hd : decodeBcd 10 b = some m) :
    decodeWord (BitVec.ofNat 41 (b + (encodeSign s).toNat * 1099511627776)) = .ok ⟨s, m⟩ := by
  have h2 := (encodeSign s).isLt
  rw [decodeWord, wordPort_toNat b _ hb (by omega), show (2 : Nat) ^ 40 = 1099511627776 by norm_num,
    show (b + (encodeSign s).toNat * 1099511627776) % 1099511627776 = b by omega,
    show (b + (encodeSign s).toNat * 1099511627776) / 1099511627776 = (encodeSign s).toNat by omega, hd]
  cases s <;> rfl

/-- A word on its port reads back (30_encoding.md R46). -/
theorem decodeWord_encodeWord (w : Word) (h : w.WellFormed) : decodeWord (encodeWord w) = .ok w := by
  obtain ⟨s, m⟩ := w
  have hm : m < 10 ^ 10 := by have : m < 10000000000 := h; omega
  have hb : encodeBcd 10 m < 1099511627776 := by have := encodeBcd_lt 10 m; norm_num at this; exact this
  have := decodeWord_of_bcd (encodeBcd 10 m) s m hb (decodeBcd_encodeBcd 10 m hm)
  rw [encodeWord, show (2 : Nat) ^ 40 = 1099511627776 by norm_num]
  exact this

/-- A text on its port reads back (30_encoding.md R52). -/
theorem decodeText_encodeText (t : Text) (h : Text.fits t = true) : decodeText (encodeText t) = .ok t := by
  have hl : t.length ≤ 80 := by simpa [Text.fits, textMax] using h
  have h7 : (BitVec.ofNat 7 t.length).toNat = t.length := by simp only [BitVec.toNat_ofNat]; omega
  unfold decodeText encodeText
  simp only [h7, textMax]
  rw [if_pos hl]
  congr 1
  apply List.ext_getElem
  · simp; omega
  · intro i h1 h2
    simp [h2]

/-! ### Tables -/

theorem mem_printables (c : Ch) : c ∈ printables ↔ isPrintable c = true := by
  revert c; decide +kernel

/-- The character `punchToChar` gives is printable and has the mask (41_charcodec.md R90). -/
theorem punchToChar_some (cfg : Config) (m : Cell) (c : Ch) (h : punchToChar cfg m = some c) :
    isPrintable c = true ∧ holAt cfg c = m := by
  unfold punchToChar at h
  exact ⟨(mem_printables c).mp (List.mem_of_find?_eq_some h), by simpa using List.find?_some h⟩

/-- `punchToChar` gives none exactly for the masks no printable character has (41_charcodec.md R90). -/
theorem punchToChar_none (cfg : Config) (m : Cell) :
    punchToChar cfg m = none ↔ ∀ c : Ch, isPrintable c = true → holAt cfg c ≠ m := by
  unfold punchToChar
  rw [List.find?_eq_none]
  constructor
  · intro h c hc; simpa using h c ((mem_printables c).mpr hc)
  · intro h c hc; simpa using h c ((mem_printables c).mp hc)

/-- The masks of the printable characters differ in a well-formed table (10_state.md R19 condition 2). -/
theorem holAt_injective (cfg : Config) (h : configOk cfg = true) (c d : Ch) (hc : isPrintable c = true)
    (hd : isPrintable d = true) (e : holAt cfg c = holAt cfg d) : c = d := by
  have hn : (printables.map (holAt cfg)).Nodup := by
    simp only [configOk, holTableOk, Bool.and_eq_true, decide_eq_true_eq] at h
    exact h.1.1.2.1.1.1.2
  exact List.inj_on_of_nodup_map hn ((mem_printables c).mpr hc) ((mem_printables d).mpr hd) e

/-- `codeOf` gives the least code of a character (41_charcodec.md R86). -/
theorem codeOf_some (cfg : Config) (c : Ch) (k : Nat) (h : codeOf cfg c = some k) :
    k < 100 ∧ codeAt cfg k = c ∧ ∀ j, j < k → codeAt cfg j ≠ c := by
  unfold codeOf at h
  obtain ⟨hk, as, bs, e, hno⟩ := List.find?_eq_some_iff_append.mp h
  have hlen : as.length = k ∧ k < 100 := by
    have h1 : (List.range 100)[as.length]? = some k := by rw [e]; simp
    rw [List.getElem?_eq_some_iff] at h1
    obtain ⟨h1, h2⟩ := h1
    simp only [List.getElem_range, List.length_range] at h1 h2
    omega
  refine ⟨hlen.2, by simpa using hk, fun j hj => ?_⟩
  have hmem : j ∈ as := by
    have h1 : (List.range 100)[j]? = as[j]? := by rw [e, List.getElem?_append_left (by omega)]
    have h2 : (List.range 100)[j]? = some j := List.getElem?_range (by omega)
    rw [h2] at h1
    exact List.mem_of_getElem? h1.symm
  simpa using hno j hmem

theorem codeOf_none (cfg : Config) (c : Ch) : codeOf cfg c = none ↔ ∀ j, j < 100 → codeAt cfg j ≠ c := by
  simp [codeOf]

/-- The repertoire: the characters of `CODE_TABLE` that are not the placeholder (41_charcodec.md R94). -/
theorem inRepertoire_iff (cfg : Config) (c : Ch) :
    inRepertoire cfg c = true ↔ c ≠ placeholder ∧ ∃ k, k < 100 ∧ codeAt cfg k = c := by
  unfold inRepertoire
  rw [Bool.and_eq_true, Option.isSome_iff_exists]
  constructor
  · rintro ⟨h, k, hk⟩
    exact ⟨by simpa using h, k, (codeOf_some cfg c k hk).1, (codeOf_some cfg c k hk).2.1⟩
  · rintro ⟨h, k, hk, e⟩
    refine ⟨by simpa using h, ?_⟩
    cases hc : codeOf cfg c with
    | some j => exact ⟨j, rfl⟩
    | none => exact absurd e ((codeOf_none cfg c).mp hc k hk)

/-- The entry `lookupOpcode` gives is in the table and has the opcode (42_instructioncodec.md R100). -/
theorem lookupOpcode_some (cfg : Config) (op : Nat) (e : MnemonicEntry) (h : lookupOpcode cfg op = some e) :
    e ∈ cfg.mnemonics ∧ e.opcode = op :=
  ⟨List.mem_of_find?_eq_some h, by simpa using List.find?_some h⟩

/-- A table entry is the one its opcode looks up (10_state.md R21 condition 2). -/
theorem lookupOpcode_of_mem (cfg : Config) (h : configOk cfg = true) (e : MnemonicEntry) (he : e ∈ cfg.mnemonics) :
    lookupOpcode cfg e.opcode = some e := by
  have hn : (cfg.mnemonics.map (·.opcode)).Nodup := by
    simp only [configOk, mnemonicTableOk, Bool.and_eq_true, decide_eq_true_eq] at h
    exact h.2.1.2
  cases hl : lookupOpcode cfg e.opcode with
  | none => simp only [lookupOpcode, List.find?_eq_none] at hl; exact absurd (by simp) (hl e he)
  | some d =>
    obtain ⟨hd, ho⟩ := lookupOpcode_some cfg _ _ hl
    rw [List.inj_on_of_nodup_map hn hd he ho]

/-- A table entry is the one its mnemonic looks up (10_state.md R21 condition 2). -/
theorem lookupMnemonic_of_mem (cfg : Config) (h : configOk cfg = true) (e : MnemonicEntry)
    (he : e ∈ cfg.mnemonics) : lookupMnemonic cfg e.mnemonic = some e := by
  have hn : (cfg.mnemonics.map (·.mnemonic)).Nodup := by
    simp only [configOk, mnemonicTableOk, Bool.and_eq_true, decide_eq_true_eq] at h
    exact h.2.2
  cases hl : lookupMnemonic cfg e.mnemonic with
  | none => simp only [lookupMnemonic, List.find?_eq_none] at hl; exact absurd (by simp) (hl e he)
  | some d =>
    have hd := List.mem_of_find?_eq_some hl
    have ho : d.mnemonic = e.mnemonic := by simpa using List.find?_some hl
    rw [List.inj_on_of_nodup_map hn hd he ho]

end Sys2Proof.Machine
end

