-- ==== Sys2Proof/Laws/Deck.lean ====
section
/-! SUPPORT. Loading a whole source and saving a whole destination with collaborators that answer as usual
(spec/43_deckstore.md R122, R123): what each leaves, said once for LOAD, SAVE, SPLIT, JOIN and PRINT. -/

namespace Sys2Proof.Machine

/-- The collaborators after a source of `rows` was opened, read to its end and released. -/
def Collab.afterSource (c : Collab) (name : Text) (rows : List Row) : Collab :=
  (Collab.note (Collab.readOut ((c.note (.openRead name) true).grantReader name rows) c.nextHandle (rows.length + 1))
    (.release c.nextHandle) true).close c.nextHandle

@[simp] theorem Collab.afterSource_script (c : Collab) (name : Text) (rows : List Row) (h : c.script = []) :
    (c.afterSource name rows).script = [] := by
  simp [Collab.afterSource, Collab.close, Collab.note, Collab.readOut, Collab.grantReader, h]

@[simp] theorem Collab.afterSource_files (c : Collab) (name : Text) (rows : List Row) :
    (c.afterSource name rows).files = c.files := rfl

@[simp] theorem Collab.afterSource_fileOf (c : Collab) (name : Text) (rows : List Row) (other : Text) :
    (c.afterSource name rows).fileOf other = c.fileOf other := rfl

@[simp] theorem Collab.afterSource_nextHandle (c : Collab) (name : Text) (rows : List Row) :
    (c.afterSource name rows).nextHandle = c.nextHandle + 1 := rfl

@[simp] theorem Collab.afterSource_trace (c : Collab) (name : Text) (rows : List Row) :
    (c.afterSource name rows).trace = c.trace ++ sourceCalls name c.nextHandle rows.length := by
  simp [Collab.afterSource, Collab.close, Collab.note, Collab.readOut, Collab.grantReader, sourceCalls]

/-- LOAD of a source the usual collaborators hold, with room for it (43_deckstore.md R122). -/
theorem loadDeck_usual (name : Text) (mode : Mode) (s : State) (rows : List Row) (cards : List (List Cell))
    (hh : s.openHandles = []) (hs : s.collab.script = []) (hf : s.collab.fileOf name = some rows)
    (hc : rows.map (storedCells s.config (beginLoad mode s).mode) = cards.map .ok)
    (hcap : s.count.toNat + rows.length ≤ deckCapacity) :
    loadDeck name mode s = .done () { s with
      deck := (s.storeCards cards).deck, count := (s.storeCards cards).count, phase := .loaded,
      mode := (beginLoad mode s).mode, idx := (s.storeCards cards).count,
      cnt := setCntList s.cnt 0 ((s.storeCards cards).count - s.count),
      collab := s.collab.afterSource name rows } := by
  have hb : beginLoad mode s = { s with mode := (beginLoad mode s).mode, phase := .loading } := by
    unfold beginLoad; split <;> rfl
  generalize (beginLoad mode s).mode = m at *
  have ho : openRead name (beginLoad mode s) = .done s.collab.nextHandle
      (((beginLoad mode s).setCollab ((s.collab.note (.openRead name) true).grantReader name rows)).addHandle
        s.collab.nextHandle) := by
    have := openRead_usual name (beginLoad mode s) rows (by rw [hb]; exact hs) (by rw [hb]; exact hf)
    rw [this, hb]
  have hr : lookupKey s.collab.nextHandle ((s.collab.note (.openRead name) true).grantReader name rows).readers
      = some rows := lookupKey_setKey_same _ _ _
  have hl := loadRows_usual s.collab.nextHandle name rows cards (deckCapacity - s.count.toNat)
    (((beginLoad mode s).setCollab ((s.collab.note (.openRead name) true).grantReader name rows)).addHandle
      s.collab.nextHandle)
    (by simp [Collab.grantReader, Collab.note, hs]) hr (by rw [hb]; exact hc) (by omega)
  have hcount : (((beginLoad mode s).setCollab ((s.collab.note (.openRead name) true).grantReader name rows)).addHandle
      s.collab.nextHandle).count = s.count := by rw [hb]; rfl
  rw [State.storeCards_congr cards s _ (by rw [hb]; rfl) hcount] at hl
  rw [loadDeck, ho, Run.bind_done, hcount, hl, Run.bind_done,
    releaseHandle_usual _ _ _ (by simp [Collab.readOut, Collab.grantReader, Collab.note, hs]), Run.bind_done, hb]
  simp only [State.setIdx, State.setCollab, State.dropHandle, State.setPhase, State.setCnt, State.addHandle, hh,
    List.nil_append, Collab.afterSource]
  simp

/-- The collaborators after a destination was opened, written and released. -/
def Collab.afterDest (c : Collab) (name : Text) (rows : List Row) : Collab :=
  (Collab.note (Collab.wrote ((c.note (.openWrite name) true).grantWriter name) c.nextHandle name rows)
    (.release c.nextHandle) true).close c.nextHandle

@[simp] theorem Collab.afterDest_script (c : Collab) (name : Text) (rows : List Row) (h : c.script = []) :
    (c.afterDest name rows).script = [] := by
  simp [Collab.afterDest, Collab.close, Collab.note, Collab.wrote, Collab.grantWriter, h]

/-- The destination holds exactly the rows written (20_memory.md R38: it is created or truncated). -/
@[simp] theorem Collab.afterDest_fileOf_same (c : Collab) (name : Text) (rows : List Row) :
    (c.afterDest name rows).fileOf name = some rows := by
  cases rows <;> simp [Collab.afterDest, Collab.close, Collab.note, Collab.wrote, Collab.grantWriter, Collab.fileOf]

theorem Collab.afterDest_fileOf_other (c : Collab) (name : Text) (rows : List Row) (other : Text)
    (h : other ≠ name) : (c.afterDest name rows).fileOf other = c.fileOf other := by
  cases rows <;> simp [Collab.afterDest, Collab.close, Collab.note, Collab.wrote, Collab.grantWriter, Collab.fileOf,
    lookupKey_setKey_other _ _ _ _ h]

@[simp] theorem Collab.afterDest_nextHandle (c : Collab) (name : Text) (rows : List Row) :
    (c.afterDest name rows).nextHandle = c.nextHandle + 1 := rfl

@[simp] theorem Collab.afterDest_trace (c : Collab) (name : Text) (rows : List Row) :
    (c.afterDest name rows).trace = c.trace ++ destCalls name c.nextHandle rows := by
  simp [Collab.afterDest, Collab.close, Collab.note, Collab.wrote, Collab.grantWriter, destCalls]

/-- Saving readable cards to the usual collaborators (43_deckstore.md R123). -/
theorem saveDeck_usual (name : Text) (start : Nat) (s : State) (rows : List Row)
    (hh : s.openHandles = []) (hs : s.collab.script = []) (hrange : start + rows.length ≤ s.count.toNat)
    (hr : ∀ j, j < rows.length → s.readCard (start + j) = rows[j]?) :
    saveDeck name start rows.length s = .done () { s with
      idx := s.idxAfter rows.length start, collab := s.collab.afterDest name rows } := by
  have hw : lookupKey s.collab.nextHandle ((s.collab.note (.openWrite name) true).grantWriter name).writers
      = some name := lookupKey_setKey_same _ _ _
  have hr' : ∀ j, j < rows.length → ((s.setCollab ((s.collab.note (.openWrite name) true).grantWriter name)).addHandle
      s.collab.nextHandle).readCard (start + j) = rows[j]? := hr
  rw [saveDeck, openWrite_usual name s hs, Run.bind_done, saveRows, if_neg (by simp; omega),
    writeCards_usual s.collab.nextHandle name rows start _ (by simp [Collab.grantWriter, Collab.note, hs]) hw hr',
    Run.bind_done,
    releaseHandle_usual _ _ _ (by simp [Collab.wrote, Collab.grantWriter, Collab.note, hs])]
  simp only [State.setIdx, State.setCollab, State.dropHandle, State.addHandle, hh, List.nil_append,
    Collab.afterDest, State.idxAfter]
  simp

/-! ### What rows are stored as -/

/-- Rows are stored bit for bit in Raw mode (20_memory.md R31). -/
theorem storedCells_raw (cfg : Config) (rows : List Row) :
    rows.map (storedCells cfg .raw) = (rows.map Vector.toList).map .ok := by
  simp [storedCells]

theorem translateCells_ok (cfg : Config) (cells : List Cell) (chars : List Ch) (n : Nat)
    (hl : cells.length = chars.length)
    (h : ∀ (i : Nat) (a : Cell) (b : Ch), cells[i]? = some a → chars[i]? = some b → punchToChar cfg a = some b) :
    translateCells cfg n cells = .ok (chars.map (BitVec.setWidth 16)) := by
  induction cells generalizing chars n with
  | nil => cases chars with
    | nil => rfl
    | cons => simp at hl
  | cons a l ih =>
    cases chars with
    | nil => simp at hl
    | cons b chars =>
      simp only [translateCells, h 0 a b rfl rfl]
      rw [ih chars (n + 1) (by simpa using hl)
        (fun i x y hx hy => h (i + 1) x y (by simpa using hx) (by simpa using hy))]
      rfl

/-- A row whose every column has a character is stored as those characters (43_deckstore.md R122). -/
theorem storedCells_translated (cfg : Config) (r : Row) (x : Vector Ch 80) (h : translatesTo cfg r x) :
    storedCells cfg .translated r = .ok (x.toList.map (BitVec.setWidth 16)) := by
  apply translateCells_ok
  · simp
  · intro i a b ha hb
    have hi : i < 80 := by simpa using (List.getElem?_eq_some_iff.mp ha).1
    have := h ⟨i, hi⟩
    simp [hi] at ha hb
    rw [← ha, ← hb]; exact this

/-- The same of a list of rows. -/
theorem storedCells_translated_rows (cfg : Config) (rows : List Row) (texts : List (Vector Ch 80))
    (hl : rows.length = texts.length)
    (h : ∀ (j : Nat) (r : Row) (x : Vector Ch 80), rows[j]? = some r → texts[j]? = some x → translatesTo cfg r x) :
    rows.map (storedCells cfg .translated)
      = (texts.map (fun x => x.toList.map (BitVec.setWidth 16))).map .ok := by
  induction rows generalizing texts with
  | nil => cases texts with
    | nil => rfl
    | cons => simp at hl
  | cons r rows ih =>
    cases texts with
    | nil => simp at hl
    | cons x texts =>
      simp only [List.map_cons, storedCells_translated cfg r x (h 0 r x rfl rfl)]
      rw [ih texts (by simpa using hl)
        (fun j r x hr hx => h (j + 1) r x (by simpa using hr) (by simpa using hx))]

/-- The cards LOAD counts (43_deckstore.md R122). -/
theorem storeCards_count_sub (s : State) (cards : List (List Cell))
    (h : s.count.toNat + cards.length ≤ deckCapacity) :
    (s.storeCards cards).count - s.count = BitVec.ofNat 14 cards.length := by
  have := s.storeCards_count cards h
  unfold deckCapacity at h
  apply BitVec.eq_of_toNat_eq
  rw [BitVec.toNat_sub, this, BitVec.toNat_ofNat]
  have := s.count.isLt
  omega

/-- A Raw LOAD into a Raw buffer (43_deckstore.md R122, R125, R126). -/
theorem loadDeck_raw (name : Text) (s : State) (rows : List Row) (hh : s.openHandles = [])
    (hs : s.collab.script = []) (hf : s.collab.fileOf name = some rows) (hm : s.mode = .raw)
    (hcap : s.count.toNat + rows.length ≤ deckCapacity) :
    loadDeck name .raw s = .done () { s with
      deck := (s.storeCards (rows.map Vector.toList)).deck,
      count := (s.storeCards (rows.map Vector.toList)).count, phase := .loaded, mode := .raw,
      idx := (s.storeCards (rows.map Vector.toList)).count,
      cnt := setCntList s.cnt 0 (BitVec.ofNat 14 rows.length),
      collab := s.collab.afterSource name rows } := by
  have hmode : (beginLoad .raw s).mode = .raw := by
    unfold beginLoad; split <;> simp [hm]
  have hl := loadDeck_usual name .raw s rows (rows.map Vector.toList) hh hs hf
    (by rw [hmode]; exact storedCells_raw _ _) hcap
  rw [hl, storeCards_count_sub s _ (by simpa using hcap), hmode, List.length_map]

/-- LOAD of a source the usual collaborators hold, with more rows than there is room for, and the abort sequence
after it (43_deckstore.md R122, R132). -/
theorem loadDeck_tooLarge (name : Text) (mode : Mode) (s : State) (rows : List Row) (cards : List (List Cell))
    (hh : s.openHandles = []) (hs : s.collab.script = []) (hf : s.collab.fileOf name = some rows)
    (hc : (rows.take (deckCapacity - s.count.toNat)).map (storedCells s.config (beginLoad mode s).mode)
      = cards.map .ok)
    (hcount : s.count.toNat ≤ deckCapacity) (hlen : deckCapacity < s.count.toNat + rows.length) :
    ∃ e t u, loadDeck name mode s = .raised e t ∧ abort e t = .next u ∧
      u = { s with deck := u.deck, count := 0#14, idx := 0#14, mode := .raw, phase := .empty,
                   status := 0x05#8, out := .failed .deckTooLarge, errName := name, errIdx := 10000#14,
                   collab := u.collab } ∧
      u.collab.files = s.collab.files ∧
      u.collab.trace = s.collab.trace ++ (.openRead name, true) ::
        (List.replicate (deckCapacity + 1 - s.count.toNat) (.read s.collab.nextHandle, true)
          ++ [(.release s.collab.nextHandle, true)]) := by
  have hb : beginLoad mode s = { s with mode := (beginLoad mode s).mode, phase := .loading } := by
    unfold beginLoad; split <;> rfl
  generalize (beginLoad mode s).mode = m at *
  have ho : openRead name (beginLoad mode s) = .done s.collab.nextHandle
      (((beginLoad mode s).setCollab ((s.collab.note (.openRead name) true).grantReader name rows)).addHandle
        s.collab.nextHandle) := by
    have := openRead_usual name (beginLoad mode s) rows (by rw [hb]; exact hs) (by rw [hb]; exact hf)
    rw [this, hb]
  have hr : lookupKey s.collab.nextHandle ((s.collab.note (.openRead name) true).grantReader name rows).readers
      = some rows := lookupKey_setKey_same _ _ _
  have hcount' : (((beginLoad mode s).setCollab ((s.collab.note (.openRead name) true).grantReader name rows)).addHandle
      s.collab.nextHandle).count = s.count := by rw [hb]; rfl
  obtain ⟨c, h1, h2, h3, h4⟩ := loadRows_usual_tooLarge s.collab.nextHandle name rows cards
    (deckCapacity - s.count.toNat)
    (((beginLoad mode s).setCollab ((s.collab.note (.openRead name) true).grantReader name rows)).addHandle
      s.collab.nextHandle)
    (by simp [Collab.grantReader, Collab.note, hs]) hr (by rw [hb]; exact hc) (by omega)
  have hcl : cards.length = deckCapacity - s.count.toNat := by
    have := congrArg List.length hc
    simp only [List.length_map, List.length_take] at this
    omega
  have hidx : (s.storeCards cards).count = 10000#14 := by
    apply BitVec.eq_of_toNat_eq
    rw [s.storeCards_count cards (by omega), hcl]
    show _ = deckCapacity
    omega
  rw [State.storeCards_congr cards s _ (by rw [hb]; rfl) hcount', hidx] at h1
  have hrel : c.releaseAll [s.collab.nextHandle]
      = some ((c.note (.release s.collab.nextHandle) true).close s.collab.nextHandle) := by
    simp [Collab.releaseAll, Collab.release_usual _ _ h2]
  rw [hb] at h1
  refine ⟨_, _, { s with
      deck := (s.storeCards cards).deck, count := 0#14, idx := 0#14, mode := .raw, phase := .empty, status := 0x05#8,
      out := .failed .deckTooLarge, errName := name, errIdx := 10000#14,
      collab := (c.note (.release s.collab.nextHandle) true).close s.collab.nextHandle },
    by rw [loadDeck, ho, Run.bind_done, hcount', hb, h1]; rfl, ?_, rfl, h3, ?_⟩
  · rw [abort]
    simp only [State.setCollab, State.setIdx, State.addHandle, hh, List.nil_append, hrel]
    rfl
  · show c.trace ++ [(.release s.collab.nextHandle, true)] = _
    rw [h4, show deckCapacity + 1 - s.count.toNat = deckCapacity - s.count.toNat + 1 by omega, hb]
    simp [State.addHandle, State.setCollab, Collab.grantReader, Collab.note]

/-! ### The count registers -/

/-- Writing one CNT register leaves every other as it was (10_state.md R22). -/
theorem setCntList_getD (l : List (BitVec 14)) (i j : Nat) (v : BitVec 14) :
    (setCntList l i v).getD j 0#14 = if i = j then v else l.getD j 0#14 := by
  induction l generalizing i j with
  | nil =>
    induction i generalizing j with
    | zero => cases j <;> simp [setCntList]
    | succ i ih =>
      cases j with
      | zero => simp [setCntList]
      | succ j => simp only [setCntList, List.getD_cons_succ]; rw [ih]; simp
  | cons x l ih =>
    cases i with
    | zero => cases j <;> simp [setCntList]
    | succ i =>
      cases j with
      | zero => simp [setCntList]
      | succ j => simp only [setCntList, List.getD_cons_succ]; rw [ih]; simp

/-! ### The sources of JOIN (43_deckstore.md R126) -/

/-- The collaborators after several sources were read one after the other. -/
def sourcesRead (c : Collab) : List (Text × List Row) → Collab
  | [] => c
  | p :: ps => sourcesRead (c.afterSource p.1 p.2) ps

theorem sourcesRead_spec (ps : List (Text × List Row)) (c : Collab) :
    (c.script = [] → (sourcesRead c ps).script = []) ∧ (sourcesRead c ps).files = c.files ∧
      (sourcesRead c ps).nextHandle = c.nextHandle + ps.length ∧
      (sourcesRead c ps).trace = c.trace ++ sourcesCalls c.nextHandle ps := by
  induction ps generalizing c with
  | nil => simp [sourcesRead, sourcesCalls]
  | cons p ps ih =>
    obtain ⟨h1, h2, h3, h4⟩ := ih (c.afterSource p.1 p.2)
    refine ⟨fun h => h1 (Collab.afterSource_script _ _ _ h), h2, ?_, ?_⟩
    · rw [sourcesRead, h3, Collab.afterSource_nextHandle, List.length_cons]; omega
    · rw [sourcesRead, h4, Collab.afterSource_trace, Collab.afterSource_nextHandle, sourcesCalls]; simp

/-- The loads of JOIN from the usual collaborators: the cards of every source in order, and each source's count in
its own register (43_deckstore.md R126). -/
theorem loadSources_usual (names : List Text) (decks : List (List Row)) (j : Nat) (s : State) (hm : s.mode = .raw) (hh : s.openHandles = []) (hs : s.collab.script = [])
   (hf : names.map s.collab.fileOf = decks.map some) (hcap : s.count.toNat + decks.flatten.length ≤ deckCapacity) :
   ∃ cnt' ph idx', loadSources j names s = .done () { s with deck := (s.storeCards (decks.flatten.map Vector.toList)).deck, count := (s.storeCards (decks.flatten.map Vector.toList)).count, phase := ph, idx := idx', cnt := cnt', collab := sourcesRead s.collab (names.zip decks) } ∧
     (∀ i d, decks[i]? = some d → cnt'.getD (1 + j + i) 0#14 = BitVec.ofNat 14 d.length) ∧
     (∀ i, i ≠ 0 → (i < 1 + j ∨ 1 + j + decks.length ≤ i) → cnt'.getD i 0#14 = s.cnt.getD i 0#14) := by
  induction names generalizing decks j s with
  | nil =>
    have : decks = [] := by simpa using hf.symm
    subst this
    exact ⟨s.cnt, s.phase, s.idx, rfl, by simp, by simp⟩
  | cons name names ih =>
    obtain ⟨d, decks, rfl⟩ : ∃ d ds, decks = d :: ds := by
      cases decks with
      | nil => simp at hf
      | cons d ds => exact ⟨d, ds, rfl⟩
    simp only [List.map_cons, List.cons.injEq] at hf
    simp only [List.flatten_cons, List.length_append] at hcap
    have hl := loadDeck_raw name s d hh hs hf.1 hm (by omega)
    have hcd : (s.storeCards (d.map Vector.toList)).count.toNat = s.count.toNat + d.length := by
      rw [s.storeCards_count _ (by simp only [List.length_map]; omega), List.length_map]
    obtain ⟨cnt', ph, idx', h1, h2, h3⟩ := ih decks (j + 1) (State.setCnt { s with
      deck := (s.storeCards (d.map Vector.toList)).deck, count := (s.storeCards (d.map Vector.toList)).count, phase := .loaded,
      mode := .raw, idx := (s.storeCards (d.map Vector.toList)).count,
      cnt := setCntList s.cnt 0 (BitVec.ofNat 14 d.length),
      collab := s.collab.afterSource name d } (1 + j) (BitVec.ofNat 14 d.length)) rfl hh (Collab.afterSource_script _ _ _ hs) hf.2 (by
        show (s.storeCards (d.map Vector.toList)).count.toNat + _ ≤ _; omega)
    have hg : State.getCnt { s with
      deck := (s.storeCards (d.map Vector.toList)).deck, count := (s.storeCards (d.map Vector.toList)).count, phase := .loaded,
      mode := .raw, idx := (s.storeCards (d.map Vector.toList)).count,
      cnt := setCntList s.cnt 0 (BitVec.ofNat 14 d.length),
      collab := s.collab.afterSource name d } 0 = BitVec.ofNat 14 d.length := by
      simp only [State.getCnt, setCntList_getD]; rfl
    refine ⟨cnt', ph, idx', ?_, ?_, ?_⟩
    · rw [loadSources, hl, Run.bind_done, hg, h1]
      have e : (s.storeCards ((d :: decks).flatten.map Vector.toList)) = (s.storeCards (d.map Vector.toList)).storeCards (decks.flatten.map Vector.toList) := by
        simp [State.storeCards, List.foldl_append]
      have hcg : ∀ T : State, T.deck = (s.storeCards (d.map Vector.toList)).deck → T.count = (s.storeCards (d.map Vector.toList)).count → (T.storeCards (decks.flatten.map Vector.toList)).deck = ((s.storeCards (d.map Vector.toList)).storeCards (decks.flatten.map Vector.toList)).deck ∧ (T.storeCards (decks.flatten.map Vector.toList)).count = ((s.storeCards (d.map Vector.toList)).storeCards (decks.flatten.map Vector.toList)).count := by
        intro T h1 h2
        rw [State.storeCards_congr (decks.flatten.map Vector.toList) (s.storeCards (d.map Vector.toList)) T h1 h2]; exact ⟨rfl, rfl⟩
      rw [e]
      simp only [State.setCnt, sourcesRead, List.zip_cons_cons, hm]
      congr 1
      congr 1
      · refine (hcg _ ?_ ?_).1 <;> rfl
      · refine (hcg _ ?_ ?_).2 <;> rfl
    · intro i x hx
      cases i with
      | zero =>
        simp at hx; subst hx
        have := h3 (1 + j) (by omega) (by omega)
        rw [Nat.add_zero, this]
        simp only [State.setCnt, setCntList_getD]; simp
      | succ i =>
        have := h2 i x (by simpa using hx)
        rw [← this]; congr 1; omega
    · intro i h0 hi
      simp only [List.length_cons] at hi
      rw [h3 i h0 (by omega)]
      simp only [State.setCnt, setCntList_getD]
      rw [if_neg (by omega), if_neg (by omega)]

/-- The loads of JOIN over two lists of sources are those of the first, then those of the second
(43_deckstore.md R126). -/
theorem loadSources_append (before after : List Text) (j : Nat) (s : State) :
    loadSources j (before ++ after) s
      = (loadSources j before s).bind fun _ s => loadSources (j + before.length) after s := by
  induction before generalizing j s with
  | nil => rfl
  | cons name names ih =>
    simp only [List.cons_append, loadSources]
    cases loadDeck name .raw s with
    | done a t =>
      simp only [Run.bind_done, ih, List.length_cons]
      congr 1; funext _ u; congr 1; omega
    | raised e t => rfl
    | halted f => rfl

end Sys2Proof.Machine
end

