-- ==== Sys2Proof/Laws/Decode.lean ====
section
/-! SUPPORT. What the decoder answers for each operation of the command byte (spec/30_encoding.md R53), so that
no proof unfolds the whole decoder, and that every port reads back what was put on it. -/

namespace Sys2Proof.Machine

/-- The decoder's answer for each `op_sel` (30_encoding.md R53), in the table's order. -/
theorem decodeCommand_table (p : InPorts) :
    (opSel p.cmd = 0x00 → decodeCommand p = onlyIf (plainCommand p.cmd) ((decodeWord p.word).map fun w => .extract w p.digits.toInt)) ∧
    (opSel p.cmd = 0x01 → decodeCommand p = onlyIf (plainCommand p.cmd)
      (.ok (.pack p.opcodeField.toNat p.dataField.toNat p.instrField.toNat (decodeSign p.sign)))) ∧
    (opSel p.cmd = 0x02 → decodeCommand p = onlyIf (plainCommand p.cmd) ((decodeWord p.word).map .format)) ∧
    (opSel p.cmd = 0x03 → decodeCommand p = onlyIf (plainCommand p.cmd) ((decodeText p.text).map .parse)) ∧
    (opSel p.cmd = 0x04 → decodeCommand p = onlyIf (plainCommand p.cmd) (.ok (.ch2code p.char))) ∧
    (opSel p.cmd = 0x05 → decodeCommand p = onlyIf (plainCommand p.cmd) (.ok (.code2ch p.code.toNat))) ∧
    (opSel p.cmd = 0x06 → decodeCommand p = onlyIf (plainCommand p.cmd) (.ok (.ch2punch p.char))) ∧
    (opSel p.cmd = 0x07 → decodeCommand p = onlyIf (plainCommand p.cmd) (.ok (.punch2ch p.mask))) ∧
    (opSel p.cmd = 0x08 → decodeCommand p = onlyIf (plainCommand p.cmd) (.ok (.digzone p.digit.toNat (decodeZone p.zone)))) ∧
    (opSel p.cmd = 0x09 → decodeCommand p = onlyIf (plainCommand p.cmd) ((decodeWord p.word).map .disasm)) ∧
    (opSel p.cmd = 0x0A → decodeCommand p = onlyIf (plainCommand p.cmd)
      ((decodeText p.text).map fun t => .asm t p.dataField.toNat p.instrField.toNat (decodeSign p.sign))) ∧
    (opSel p.cmd = 0x0B → decodeCommand p = onlyIf (plainCommand p.cmd) (.ok (.readsop p.opcode.toNat))) ∧
    (opSel p.cmd = 0x0C → decodeCommand p = onlyIf (!quietBit p.cmd)
      ((decodeText p.text).map fun t => .parsew t (decodeForm (modeBits p.cmd)))) ∧
    (opSel p.cmd = 0x0D → decodeCommand p = onlyIf (!quietBit p.cmd)
      ((decodeWord p.word).map fun w => .fmtw w (decodeForm (modeBits p.cmd)))) ∧
    (opSel p.cmd = 0x10 → decodeCommand p = onlyIf (plainCommand p.cmd) (.ok .dreset)) ∧
    (opSel p.cmd = 0x11 → decodeCommand p = onlyIf (loadCommand p.cmd)
      ((decodeText p.source).map fun t => .load t (if modeBits p.cmd = 0 then .raw else .translated))) ∧
    (opSel p.cmd = 0x12 → decodeCommand p = onlyIf (plainCommand p.cmd)
      ((decodeText p.dest1).map fun t => .save t p.start.toNat p.count.toNat)) ∧
    (opSel p.cmd = 0x13 → decodeCommand p = onlyIf (modeBits p.cmd == 0)
      ((decodeText p.source).bind fun s => (decodeText p.dest1).bind fun d1 => (decodeText p.dest2).map fun d2 =>
      .split (decodeFlag p.tail) p.splitCount.toNat s d1 d2 (quietBit p.cmd))) ∧
    (opSel p.cmd = 0x14 → decodeCommand p = onlyIf (modeBits p.cmd == 0)
      ((decodeTexts p.sources).bind fun ss => (decodeText p.dest1).map fun d => .join ss d (quietBit p.cmd))) ∧
    (opSel p.cmd = 0x15 → decodeCommand p = onlyIf (modeBits p.cmd == 0)
      ((decodeText p.source).map fun s => .print s (quietBit p.cmd) (decodeFlag p.sink2))) := by
  refine ⟨?_, ?_, ?_, ?_, ?_, ?_, ?_, ?_, ?_, ?_, ?_, ?_, ?_, ?_, ?_, ?_, ?_, ?_, ?_, ?_⟩ <;> intro h <;>
    rw [decodeCommand] <;> simp only [h]

theorem decodeCommand_extract (p : InPorts) (h : opSel p.cmd = 0x00) :
    decodeCommand p = onlyIf (plainCommand p.cmd) ((decodeWord p.word).map fun w => .extract w p.digits.toInt) :=
  (decodeCommand_table p).1 h

theorem decodeCommand_pack (p : InPorts) (h : opSel p.cmd = 0x01) :
    decodeCommand p = onlyIf (plainCommand p.cmd)
      (.ok (.pack p.opcodeField.toNat p.dataField.toNat p.instrField.toNat (decodeSign p.sign))) :=
  (decodeCommand_table p).2.1 h

theorem decodeCommand_format (p : InPorts) (h : opSel p.cmd = 0x02) :
    decodeCommand p = onlyIf (plainCommand p.cmd) ((decodeWord p.word).map .format) :=
  (decodeCommand_table p).2.2.1 h

theorem decodeCommand_parse (p : InPorts) (h : opSel p.cmd = 0x03) :
    decodeCommand p = onlyIf (plainCommand p.cmd) ((decodeText p.text).map .parse) :=
  (decodeCommand_table p).2.2.2.1 h

theorem decodeCommand_ch2code (p : InPorts) (h : opSel p.cmd = 0x04) :
    decodeCommand p = onlyIf (plainCommand p.cmd) (.ok (.ch2code p.char)) :=
  (decodeCommand_table p).2.2.2.2.1 h

theorem decodeCommand_code2ch (p : InPorts) (h : opSel p.cmd = 0x05) :
    decodeCommand p = onlyIf (plainCommand p.cmd) (.ok (.code2ch p.code.toNat)) :=
  (decodeCommand_table p).2.2.2.2.2.1 h

theorem decodeCommand_ch2punch (p : InPorts) (h : opSel p.cmd = 0x06) :
    decodeCommand p = onlyIf (plainCommand p.cmd) (.ok (.ch2punch p.char)) :=
  (decodeCommand_table p).2.2.2.2.2.2.1 h

theorem decodeCommand_punch2ch (p : InPorts) (h : opSel p.cmd = 0x07) :
    decodeCommand p = onlyIf (plainCommand p.cmd) (.ok (.punch2ch p.mask)) :=
  (decodeCommand_table p).2.2.2.2.2.2.2.1 h

theorem decodeCommand_digzone (p : InPorts) (h : opSel p.cmd = 0x08) :
    decodeCommand p = onlyIf (plainCommand p.cmd) (.ok (.digzone p.digit.toNat (decodeZone p.zone))) :=
  (decodeCommand_table p).2.2.2.2.2.2.2.2.1 h

theorem decodeCommand_disasm (p : InPorts) (h : opSel p.cmd = 0x09) :
    decodeCommand p = onlyIf (plainCommand p.cmd) ((decodeWord p.word).map .disasm) :=
  (decodeCommand_table p).2.2.2.2.2.2.2.2.2.1 h

theorem decodeCommand_asm (p : InPorts) (h : opSel p.cmd = 0x0A) :
    decodeCommand p = onlyIf (plainCommand p.cmd)
      ((decodeText p.text).map fun t => .asm t p.dataField.toNat p.instrField.toNat (decodeSign p.sign)) :=
  (decodeCommand_table p).2.2.2.2.2.2.2.2.2.2.1 h

theorem decodeCommand_readsop (p : InPorts) (h : opSel p.cmd = 0x0B) :
    decodeCommand p = onlyIf (plainCommand p.cmd) (.ok (.readsop p.opcode.toNat)) :=
  (decodeCommand_table p).2.2.2.2.2.2.2.2.2.2.2.1 h

theorem decodeCommand_parsew (p : InPorts) (h : opSel p.cmd = 0x0C) :
    decodeCommand p = onlyIf (!quietBit p.cmd)
      ((decodeText p.text).map fun t => .parsew t (decodeForm (modeBits p.cmd))) :=
  (decodeCommand_table p).2.2.2.2.2.2.2.2.2.2.2.2.1 h

theorem decodeCommand_fmtw (p : InPorts) (h : opSel p.cmd = 0x0D) :
    decodeCommand p = onlyIf (!quietBit p.cmd)
      ((decodeWord p.word).map fun w => .fmtw w (decodeForm (modeBits p.cmd))) :=
  (decodeCommand_table p).2.2.2.2.2.2.2.2.2.2.2.2.2.1 h

theorem decodeCommand_dreset (p : InPorts) (h : opSel p.cmd = 0x10) :
    decodeCommand p = onlyIf (plainCommand p.cmd) (.ok .dreset) :=
  (decodeCommand_table p).2.2.2.2.2.2.2.2.2.2.2.2.2.2.1 h

theorem decodeCommand_load (p : InPorts) (h : opSel p.cmd = 0x11) :
    decodeCommand p = onlyIf (loadCommand p.cmd)
      ((decodeText p.source).map fun t => .load t (if modeBits p.cmd = 0 then .raw else .translated)) :=
  (decodeCommand_table p).2.2.2.2.2.2.2.2.2.2.2.2.2.2.2.1 h

theorem decodeCommand_save (p : InPorts) (h : opSel p.cmd = 0x12) :
    decodeCommand p = onlyIf (plainCommand p.cmd)
      ((decodeText p.dest1).map fun t => .save t p.start.toNat p.count.toNat) :=
  (decodeCommand_table p).2.2.2.2.2.2.2.2.2.2.2.2.2.2.2.2.1 h

theorem decodeCommand_split (p : InPorts) (h : opSel p.cmd = 0x13) :
    decodeCommand p = onlyIf (modeBits p.cmd == 0)
      ((decodeText p.source).bind fun s => (decodeText p.dest1).bind fun d1 => (decodeText p.dest2).map fun d2 =>
      .split (decodeFlag p.tail) p.splitCount.toNat s d1 d2 (quietBit p.cmd)) :=
  (decodeCommand_table p).2.2.2.2.2.2.2.2.2.2.2.2.2.2.2.2.2.1 h

theorem decodeCommand_join (p : InPorts) (h : opSel p.cmd = 0x14) :
    decodeCommand p = onlyIf (modeBits p.cmd == 0)
      ((decodeTexts p.sources).bind fun ss => (decodeText p.dest1).map fun d => .join ss d (quietBit p.cmd)) :=
  (decodeCommand_table p).2.2.2.2.2.2.2.2.2.2.2.2.2.2.2.2.2.2.1 h

theorem decodeCommand_print (p : InPorts) (h : opSel p.cmd = 0x15) :
    decodeCommand p = onlyIf (modeBits p.cmd == 0)
      ((decodeText p.source).map fun s => .print s (quietBit p.cmd) (decodeFlag p.sink2)) :=
  (decodeCommand_table p).2.2.2.2.2.2.2.2.2.2.2.2.2.2.2.2.2.2.2 h

/-- The operation an instruction's own command byte selects, and its mode and quiet bits
(30_encoding.md R53). -/
theorem commandByte_fields :
    ∀ op : Fin 32, ∀ mode : Fin 4, ∀ quiet : Bool,
      opSel (commandByte op mode quiet) = op ∧ modeBits (commandByte op mode quiet) = mode ∧
        quietBit (commandByte op mode quiet) = quiet := by
  decide +kernel

@[simp] theorem decodeFlag_encodeFlag (b : Bool) : decodeFlag (encodeFlag b) = b := by cases b <;> rfl

@[simp] theorem decodeSign_encodeSign (s : Sign) : decodeSign (encodeSign s) = s := by cases s <;> rfl

@[simp] theorem decodeZone_encodeZone (z : Zone) : decodeZone (encodeZone z) = z := by cases z <;> rfl

@[simp] theorem decodeForm_encodeForm (f : TextForm) : decodeForm (encodeForm f) = f := by cases f <;> rfl

/-- Texts on a list of ports read back in order (30_encoding.md R52). -/
theorem decodeTexts_encodeText (ts : List Text) (h : ts.all Text.fits = true) :
    decodeTexts (ts.map encodeText) = .ok ts := by
  induction ts with
  | nil => rfl
  | cons t ts ih =>
    simp only [List.all_cons, Bool.and_eq_true] at h
    simp only [List.map_cons, decodeTexts, decodeText_encodeText t h.1, ih h.2]
    rfl

/-- A number on a port that is wide enough reads back (30_encoding.md R54). -/
theorem port_toNat (k n : Nat) (h : n < 2 ^ k) : (BitVec.ofNat k n).toNat = n := by
  rw [BitVec.toNat_ofNat]; exact Nat.mod_eq_of_lt h

theorem wellFormed_of_fits (w : Word) (h : w.fits = true) : w.WellFormed := by
  simpa [Word.fits, Word.WellFormed] using h

theorem decoded_bind {α : Type} (w : Word) (f : Word → Except Reject α) :
    (Except.ok w : Except Reject Word).bind f = f w := rfl

/-- A word on a target port decodes by its opcode and fields (30_encoding.md R47, R64). -/
theorem decodeTarget_encodeWord (w : Word) (h : w.WellFormed) :
    decodeTarget (encodeWord w) =
      match targetRow (w.mag / 10 ^ 8) w.sign (w.mag / 10 ^ 4 % 10 ^ 4) (w.mag % 10 ^ 4) with
      | some i => .ok i
      | none => .error (.unlistedTarget w) := by
  rw [decodeTarget, decodeWord_encodeWord w h, decoded_bind]
  all_goals (cases targetRow (w.mag / 10 ^ 8) w.sign (w.mag / 10 ^ 4 % 10 ^ 4) (w.mag % 10 ^ 4) <;> rfl)

/-- The word a target word's fields pack into decodes to its table row (30_encoding.md R47, R64). -/
theorem decodeTarget_encodeTarget (op : Nat) (s : Sign) (da ia : Nat) (ho : op < 100)
    (h : addressesFit da ia = true) (i : Instr) (hi : targetRow op s da ia = some i) :
    decodeTarget (encodeTarget op s da ia) = .ok i := by
  simp only [addressesFit, Bool.and_eq_true, decide_eq_true_eq] at h
  generalize hm : op * 10 ^ 8 + da * 10 ^ 4 + ia = m
  have e1 : m / 10 ^ 8 = op := by omega
  have e2 : m / 10 ^ 4 % 10 ^ 4 = da := by omega
  have e3 : m % 10 ^ 4 = ia := by omega
  rw [encodeTarget, hm, decodeTarget_encodeWord _ (by simp only [Word.WellFormed, wordMod]; omega)]
  simp only [e1, e2, e3, hi]

end Sys2Proof.Machine
end

