-- ==== Sys2Proof/Laws/Frame.lean ====
section
/-! SUPPORT. What the parts of a multi-step operation may change, wherever they leave it (done or with an error
raised), and that they keep the buffer sound: one lemma per shared operation, whatever the collaborators answer. -/

namespace Sys2Proof.Machine

/-! ### Frames -/

/-- `t` is `s` but for the buffer, COUNT, IDX and the collaborators: what reading a source may change. -/
def State.LoadFrame (s t : State) : Prop :=
  t = { s with deck := t.deck, count := t.count, idx := t.idx, collab := t.collab }

/-- `t` is `s` but for IDX and the collaborators: what writing cards out may change. -/
def State.WriteFrame (s t : State) : Prop := t = { s with idx := t.idx, collab := t.collab }

theorem State.LoadFrame.refl (s : State) : s.LoadFrame s := rfl

theorem State.LoadFrame.trans {s t u : State} (h1 : s.LoadFrame t) (h2 : t.LoadFrame u) : s.LoadFrame u := by
  unfold State.LoadFrame at *
  rw [h2, h1]

theorem State.WriteFrame.trans {s t u : State} (h1 : s.WriteFrame t) (h2 : t.WriteFrame u) : s.WriteFrame u := by
  unfold State.WriteFrame at *
  rw [h2, h1]

/-- A run that keeps one frame after a state reached by another keeps both. -/
theorem Run.Holds.mono {α : Type} {P Q : State → Prop} {r : Run α} (h : r.Holds P) (hpq : ∀ s, P s → Q s) :
    r.Holds Q := by
  cases r with
  | done a s => exact hpq s h
  | raised e s => exact hpq s h
  | halted f => trivial

/-- A property of the state of a run that is done. -/
theorem Run.Holds.of_done {α : Type} {P : State → Prop} {r : Run α} (h : r.Holds P) {a : α} {t : State}
    (e : r = .done a t) : P t := by rw [e] at h; exact h

theorem Run.Holds.of_raised {α : Type} {P : State → Prop} {r : Run α} (h : r.Holds P) {x : Raised} {t : State}
    (e : r = .raised x t) : P t := by rw [e] at h; exact h

theorem readRow_holds (h : Nat) (name : Text) (s : State) :
    (readRow h name s).Holds (fun t => ∃ c, t = s.setCollab c) :=
  toRun_holds _ _ _ _ _ (fun c => ⟨c, rfl⟩)

theorem writeRow_holds (h : Nat) (name : Text) (row : Row) (s : State) :
    (writeRow h name row s).Holds (fun t => ∃ c, t = s.setCollab c) :=
  toRun_holds _ _ _ _ _ (fun c => ⟨c, rfl⟩)

theorem consoleWrite_holds (line : Text) (s : State) :
    (consoleWrite line s).Holds (fun t => ∃ c, t = s.setCollab c) :=
  toRun_holds _ _ _ _ _ (fun c => ⟨c, rfl⟩)

theorem sink2Write_holds (line : Text) (s : State) :
    (sink2Write line s).Holds (fun t => ∃ c, t = s.setCollab c) :=
  toRun_holds _ _ _ _ _ (fun c => ⟨c, rfl⟩)

theorem releaseHandle_holds (h : Nat) (name : Text) (s : State) :
    (releaseHandle h name s).Holds (fun t => ∃ c, t = (s.dropHandle h).setCollab c) :=
  toRun_holds _ _ _ _ _ (fun c => ⟨c, rfl⟩)

/-- Opening a source adds its handle when it is done, and changes the collaborators alone when it is not. -/
theorem openRead_spec (name : Text) (s : State) :
    (∀ h t, openRead name s = .done h t → ∃ c, t = (s.setCollab c).addHandle h) ∧
      (∀ e t, openRead name s = .raised e t → e.report ≠ .outOfRange ∧ ∃ c, t = s.setCollab c) := by
  unfold openRead
  constructor
  · intro h t e
    obtain ⟨a, u, h1, h2⟩ := Run.bind_eq_done.mp e
    obtain ⟨c, _, rfl⟩ := toRun_done.mp h1
    cases h2
    exact ⟨c, rfl⟩
  · intro e t h
    rcases Run.bind_eq_raised.mp h with h | ⟨a, u, _, h2⟩
    · obtain ⟨x, c, _, rfl, rfl⟩ := toRun_raised.mp h
      exact ⟨by simp, c, rfl⟩
    · cases h2

/-- Opening a destination, so too. -/
theorem openWrite_spec (name : Text) (s : State) :
    (∀ h t, openWrite name s = .done h t → ∃ c, t = (s.setCollab c).addHandle h) ∧
      (∀ e t, openWrite name s = .raised e t → e.report ≠ .outOfRange ∧ ∃ c, t = s.setCollab c) := by
  unfold openWrite
  constructor
  · intro h t e
    obtain ⟨a, u, h1, h2⟩ := Run.bind_eq_done.mp e
    obtain ⟨c, _, rfl⟩ := toRun_done.mp h1
    cases h2
    exact ⟨c, rfl⟩
  · intro e t h
    rcases Run.bind_eq_raised.mp h with h | ⟨a, u, _, h2⟩
    · obtain ⟨x, c, _, rfl, rfl⟩ := toRun_raised.mp h
      exact ⟨by simp, c, rfl⟩
    · cases h2

/-- Storing a row changes the buffer and COUNT alone. -/
theorem storeRow_holds (name : Text) (row : Row) (s : State) :
    (storeRow name row s).Holds (s.LoadFrame) := by
  unfold storeRow
  cases storedCells s.config s.mode row with
  | ok cells => exact rfl
  | error p => exact rfl

/-- Reading a source to its end changes the buffer, COUNT, IDX and the collaborators alone
(43_deckstore.md R122). -/
theorem loadRows_holds (h : Nat) (name : Text) (room : Nat) (s : State) :
    (loadRows h name room s).Holds (s.LoadFrame) := by
  induction room generalizing s with
  | zero =>
    apply Run.Holds.bind
    · exact (readRow_holds h name _).mono (by rintro t ⟨c, rfl⟩; exact rfl)
    · intro r t _ ht
      cases r with
      | none => exact ht
      | some r => exact ht
  | succ room ih =>
    apply Run.Holds.bind
    · exact (readRow_holds h name _).mono (by rintro t ⟨c, rfl⟩; exact rfl)
    · intro r t _ ht
      cases r with
      | none => exact ht
      | some r =>
        apply Run.Holds.bind
        · exact (storeRow_holds name r t).mono (fun u hu => ht.trans hu)
        · intro _ u _ hu
          exact (ih u).mono (fun v hv => hu.trans hv)

/-- Writing cards out changes IDX and the collaborators alone (43_deckstore.md R123). -/
theorem writeCards_holds (h : Nat) (name : Text) (left i : Nat) (s : State) :
    (writeCards h name left i s).Holds (s.WriteFrame) := by
  induction left generalizing i s with
  | zero => exact rfl
  | succ left ih =>
    rw [writeCards]
    cases (s.setIdx (BitVec.ofNat 14 i)).readCard i with
    | none => trivial
    | some row =>
      apply Run.Holds.bind
      · exact (writeRow_holds h name row _).mono (by rintro t ⟨c, rfl⟩; exact rfl)
      · intro _ u _ hu
        exact (ih (i + 1) u).mono (fun v hv => hu.trans hv)

/-- Printing cards changes IDX and the collaborators alone (43_deckstore.md R128). -/
theorem printCards_holds (sink2 : Bool) (left i : Nat) (s : State) :
    (printCards sink2 left i s).Holds (s.WriteFrame) := by
  induction left generalizing i s with
  | zero => exact rfl
  | succ left ih =>
    rw [printCards]
    cases (s.setIdx (BitVec.ofNat 14 i)).readCard i with
    | none => trivial
    | some row =>
      apply Run.Holds.bind
      · exact (consoleWrite_holds _ _).mono (by rintro t ⟨c, rfl⟩; exact rfl)
      · intro _ u _ hu
        cases sink2 with
        | true =>
          apply Run.Holds.bind
          · exact (sink2Write_holds _ u).mono (by
              rintro t ⟨c, rfl⟩; exact hu.trans rfl)
          · intro _ v _ hv
            exact (ih (i + 1) v).mono (fun w hw => hv.trans hw)
        | false => exact (ih (i + 1) u).mono (fun v hv => hu.trans hv)

/-! ### The buffer stays sound -/

/-- What every part of a run keeps of the invariant: the buffer, COUNT and IDX. -/
structure State.Sound (s : State) : Prop where
  countBound : s.count.toNat ≤ deckCapacity
  idxBound : s.idx.toNat ≤ deckCapacity
  deckForm : Memory.wf s.deck
  deckRange : ∀ p ∈ s.deck, p.1 < cardColumns * deckCapacity
  populated : s.Populated
  cellsFitMode : s.CellsFitMode

theorem State.Inv.sound {s : State} (h : s.Inv) : s.Sound :=
  ⟨h.countBound, h.idxBound, h.deckForm, h.deckRange, h.populated, h.cellsFitMode⟩

/-- A state with the same buffer, COUNT and MODE, and an IDX in range, is as sound. -/
theorem State.Sound.congr {s t : State} (h : s.Sound) (hd : t.deck = s.deck) (hc : t.count = s.count)
    (hm : t.mode = s.mode) (hi : t.idx.toNat ≤ deckCapacity) : t.Sound where
  countBound := by rw [hc]; exact h.countBound
  idxBound := hi
  deckForm := by rw [hd]; exact h.deckForm
  deckRange := by rw [hd]; exact h.deckRange
  populated := by unfold State.Populated; rw [hd, hc]; exact h.populated
  cellsFitMode := by unfold State.CellsFitMode; rw [hd, hc, hm]; exact h.cellsFitMode

/-- After `storeReset()` the buffer is sound, whatever it held (43_deckstore.md R121). -/
theorem State.Sound.storeReset {s : State} (h : s.Sound) : s.storeReset.Sound where
  countBound := by simp [State.storeReset]
  idxBound := by simp [State.storeReset]
  deckForm := h.deckForm
  deckRange := h.deckRange
  populated := by intro card col hc; simp [State.storeReset] at hc
  cellsFitMode := by intro hm; simp [State.storeReset] at hm

/-- A card fits the mode of the buffer: eighty cells, in Translated mode printable characters. -/
def cardFits (mode : Mode) (cells : List Cell) : Prop :=
  cells.length = cardColumns ∧
    (mode = .translated → ∀ v ∈ cells, ∃ x : Ch, isPrintable x = true ∧ v = x.setWidth 16)

theorem translateCells_fits (cfg : Config) (cells out : List Cell) (n : Nat) (h : translateCells cfg n cells = .ok out) :
    out.length = cells.length ∧ ∀ v ∈ out, ∃ x : Ch, isPrintable x = true ∧ v = x.setWidth 16 := by
  induction cells generalizing n out with
  | nil => cases h; simp
  | cons m ms ih =>
    rw [translateCells] at h
    cases hp : punchToChar cfg m with
    | none => rw [hp] at h; cases h
    | some x =>
      rw [hp] at h
      cases ht : translateCells cfg (n + 1) ms with
      | error e => rw [ht] at h; cases h
      | ok rest =>
        rw [ht] at h
        cases h
        obtain ⟨h1, h2⟩ := ih rest (n + 1) ht
        refine ⟨by simp [h1], ?_⟩
        intro v hv
        simp only [List.mem_cons] at hv
        rcases hv with rfl | hv
        · exact ⟨x, (punchToChar_some cfg m x hp).1, rfl⟩
        · exact h2 v hv

/-- What a row is stored as fits the mode it is stored in (20_memory.md R31). -/
theorem storedCells_fits (cfg : Config) (mode : Mode) (row : Row) (cells : List Cell)
    (h : storedCells cfg mode row = .ok cells) : cardFits mode cells := by
  cases mode with
  | raw => cases h; exact ⟨by simp [cardColumns], by simp⟩
  | translated =>
    obtain ⟨h1, h2⟩ := translateCells_fits cfg row.toList cells 0 h
    exact ⟨by simp [h1, cardColumns], fun _ => h2⟩

/-- Storing a card that fits, with room for it, keeps the buffer sound (20_memory.md R33). -/
theorem State.Sound.putCard {s : State} (h : s.Sound) (cells : List Cell) (hf : cardFits s.mode cells)
    (hroom : s.count.toNat < deckCapacity) : (s.putCard cells).Sound := by
  have hr : s.count.toNat < 10000 := hroom
  have hc : (s.putCard cells).count.toNat = s.count.toNat + 1 := by
    simp only [State.putCard_count, BitVec.toNat_add, BitVec.toNat_ofNat]; omega
  refine ⟨by rw [hc]; exact hroom, h.idxBound, Memory.wf_writeCells _ _ _ h.deckForm, ?_, ?_, ?_⟩
  · apply Memory.range_writeCells _ _ _ _ h.deckRange
    have := hf.1
    simp only [cellAddr, cardColumns, deckCapacity] at *
    omega
  · intro card col hcard hcol
    rw [read_putCard s cells hf.1 card col hcol]
    split
    · have hlt : col < cells.length := by rw [hf.1]; exact hcol
      simp [hlt]
    · exact h.populated card col (by omega) hcol
  · intro hm card col v hcard hcol hv
    rw [read_putCard s cells hf.1 card col hcol] at hv
    split at hv
    · exact hf.2 hm v (List.mem_of_getElem? hv)
    · exact h.cellsFitMode hm card col v (by omega) hcol hv

/-- Reading a source keeps the buffer sound, and never raises `OutOfRange`, as long as the room it is given is
there (43_deckstore.md R122). -/
theorem loadRows_sound (h : Nat) (name : Text) (room : Nat) (s : State) (hs : s.Sound)
    (hroom : s.count.toNat + room ≤ deckCapacity) : (loadRows h name room s).Holds State.Sound := by
  have hcap : s.count.toNat + room ≤ 10000 := hroom
  have hidx : ∀ u : State, u.Sound → (u.setIdx u.count).Sound := fun u hu => hu.congr rfl rfl rfl hu.countBound
  have hcol : ∀ (u : State) (c : Collab), u.Sound → (u.setCollab c).Sound := fun u c hu =>
    hu.congr rfl rfl rfl hu.idxBound
  induction room generalizing s with
  | zero =>
    apply Run.Holds.bind
    · exact (readRow_holds h name _).mono (by rintro t ⟨c, rfl⟩; exact hcol _ _ (hidx s hs))
    · intro r t _ ht
      cases r with
      | none => exact ht
      | some r => exact ht
  | succ room ih =>
    rw [loadRows]
    have hr := readRow_holds h name (s.setIdx s.count)
    cases hread : readRow h name (s.setIdx s.count) with
    | halted f => trivial
    | raised e t => obtain ⟨c, rfl⟩ := hr.of_raised hread; exact hcol _ _ (hidx s hs)
    | done r t =>
      obtain ⟨c, rfl⟩ := hr.of_done hread
      rw [Run.bind_done]
      cases r with
      | none => exact hcol _ _ (hidx s hs)
      | some row =>
        simp only [storeRow]
        cases hst : storedCells ((s.setIdx s.count).setCollab c).config ((s.setIdx s.count).setCollab c).mode row with
        | error p => exact hcol _ _ (hidx s hs)
        | ok cells =>
          rw [Run.bind_done]
          have hn : (((s.setIdx s.count).setCollab c).putCard cells).count.toNat = s.count.toNat + 1 := by
            simp only [State.putCard_count, State.setCollab_count, State.setIdx_count, BitVec.toNat_add,
              BitVec.toNat_ofNat]
            omega
          apply ih
          · exact (hcol _ c (hidx s hs)).putCard cells (storedCells_fits _ _ _ _ hst) (by
              simp only [State.setCollab_count, State.setIdx_count, deckCapacity]; omega)
          · rw [hn]; simp only [deckCapacity]; omega
          · rw [hn]; omega

/-- Writing cards out keeps the buffer sound (43_deckstore.md R123). -/
theorem writeCards_sound (h : Nat) (name : Text) (left i : Nat) (s : State) (hs : s.Sound)
    (hi : i + left ≤ deckCapacity) : (writeCards h name left i s).Holds State.Sound := by
  induction left generalizing i s with
  | zero => exact hs
  | succ left ih =>
    have hi' : i + (left + 1) ≤ 10000 := hi
    have hx : ∀ c, ((s.setIdx (BitVec.ofNat 14 i)).setCollab c).Sound := fun c =>
      hs.congr rfl rfl rfl (by
        simp only [State.setCollab_idx, State.setIdx_idx, BitVec.toNat_ofNat, deckCapacity]; omega)
    rw [writeCards]
    cases (s.setIdx (BitVec.ofNat 14 i)).readCard i with
    | none => trivial
    | some row =>
      apply Run.Holds.bind
      · exact (writeRow_holds h name row _).mono (by rintro t ⟨c, rfl⟩; exact hx c)
      · intro _ u _ hu
        exact ih (i + 1) u hu (by simp only [deckCapacity]; omega)

/-- Printing cards keeps the buffer sound (43_deckstore.md R128). -/
theorem printCards_sound (sink2 : Bool) (left i : Nat) (s : State) (hs : s.Sound)
    (hi : i + left ≤ deckCapacity) : (printCards sink2 left i s).Holds State.Sound := by
  induction left generalizing i s with
  | zero => exact hs
  | succ left ih =>
    have hi' : i + (left + 1) ≤ 10000 := hi
    have hx : ∀ c, ((s.setIdx (BitVec.ofNat 14 i)).setCollab c).Sound := fun c =>
      hs.congr rfl rfl rfl (by
        simp only [State.setCollab_idx, State.setIdx_idx, BitVec.toNat_ofNat, deckCapacity]; omega)
    rw [printCards]
    cases (s.setIdx (BitVec.ofNat 14 i)).readCard i with
    | none => trivial
    | some row =>
      apply Run.Holds.bind
      · exact (consoleWrite_holds _ _).mono (by rintro t ⟨c, rfl⟩; exact hx c)
      · intro _ u _ hu
        cases sink2 with
        | true =>
          apply Run.Holds.bind
          · exact (sink2Write_holds _ u).mono (by
              rintro t ⟨c, rfl⟩; exact hu.congr rfl rfl rfl hu.idxBound)
          · intro _ v _ hv
            exact ih (i + 1) v hv (by simp only [deckCapacity]; omega)
        | false => exact ih (i + 1) u hu (by simp only [deckCapacity]; omega)

/-! ### Loading and saving, whatever the collaborators answer -/

/-- No part of reading a source raises `OutOfRange` (60_exceptions.md R152). -/
theorem loadRows_raised (h : Nat) (name : Text) (room : Nat) (s t : State) (e : Raised)
    (hr : loadRows h name room s = .raised e t) : e.report ≠ .outOfRange := by
  have hread : ∀ (u v : State) (x : Raised), readRow h name u = .raised x v → x.report ≠ .outOfRange := by
    intro u v x hx
    obtain ⟨y, c, _, rfl, _⟩ := toRun_raised.mp hx
    simp
  induction room generalizing s with
  | zero =>
    rcases Run.bind_eq_raised.mp hr with h1 | ⟨r, u, _, h2⟩
    · exact hread _ _ _ h1
    · cases r with
      | none => cases h2
      | some r => cases h2; simp
  | succ room ih =>
    rw [loadRows] at hr
    rcases Run.bind_eq_raised.mp hr with h1 | ⟨r, u, _, h2⟩
    · exact hread _ _ _ h1
    · cases r with
      | none => cases h2
      | some r =>
        rcases Run.bind_eq_raised.mp h2 with h3 | ⟨_, v, _, h4⟩
        · unfold storeRow at h3
          cases hc : storedCells u.config u.mode r with
          | ok cells => rw [hc] at h3; cases h3
          | error p => rw [hc] at h3; cases h3; simp
        · exact ih v h4

/-- No part of writing cards out raises `OutOfRange` (60_exceptions.md R152). -/
theorem writeCards_raised (h : Nat) (name : Text) (left i : Nat) (s t : State) (e : Raised)
    (hr : writeCards h name left i s = .raised e t) : e.report ≠ .outOfRange := by
  induction left generalizing i s with
  | zero => cases hr
  | succ left ih =>
    rw [writeCards] at hr
    cases hc : (s.setIdx (BitVec.ofNat 14 i)).readCard i with
    | none => rw [hc] at hr; cases hr
    | some row =>
      rw [hc] at hr
      rcases Run.bind_eq_raised.mp hr with h1 | ⟨_, u, _, h2⟩
      · obtain ⟨y, c, _, rfl, _⟩ := toRun_raised.mp h1
        simp
      · exact ih _ _ h2

/-- No part of printing raises `OutOfRange` (60_exceptions.md R152). -/
theorem printCards_raised (sink2 : Bool) (left i : Nat) (s t : State) (e : Raised)
    (hr : printCards sink2 left i s = .raised e t) : e.report ≠ .outOfRange := by
  induction left generalizing i s with
  | zero => cases hr
  | succ left ih =>
    rw [printCards] at hr
    cases hc : (s.setIdx (BitVec.ofNat 14 i)).readCard i with
    | none => rw [hc] at hr; cases hr
    | some row =>
      rw [hc] at hr
      rcases Run.bind_eq_raised.mp hr with h1 | ⟨_, u, _, h2⟩
      · obtain ⟨y, c, _, rfl, _⟩ := toRun_raised.mp h1
        simp
      · cases sink2 with
        | true =>
          rcases Run.bind_eq_raised.mp h2 with h3 | ⟨_, v, _, h4⟩
          · obtain ⟨y, c, _, rfl, _⟩ := toRun_raised.mp h3
            simp
          · exact ih _ _ h4
        | false => exact ih _ _ h2

/-- LOAD into a sound store with no handle open: done, the buffer is sound, PHASE is Loaded and no handle is open;
where it raises an error the buffer is sound and the error is not `OutOfRange` (43_deckstore.md R122). -/
theorem loadDeck_spec (name : Text) (mode : Mode) (s : State) (hs : s.Sound) (hh : s.openHandles = [])
    (he : s.phase = .empty → s.count = 0#14) :
    (∀ t, loadDeck name mode s = .done () t →
      t.Sound ∧ t.openHandles = [] ∧ t.phase = .loaded ∧ t.mode = (beginLoad mode s).mode ∧
        t.config = s.config ∧ t.pending = s.pending) ∧
      (∀ e t, loadDeck name mode s = .raised e t →
        t.Sound ∧ e.report ≠ .outOfRange ∧ t.config = s.config ∧ t.pending = s.pending) := by
  have hb : (beginLoad mode s).Sound ∧ (beginLoad mode s).openHandles = [] ∧ (beginLoad mode s).count = s.count ∧
      (beginLoad mode s).config = s.config ∧ (beginLoad mode s).pending = s.pending := by
    unfold beginLoad
    split
    · rename_i h0
      refine ⟨⟨hs.countBound, hs.idxBound, hs.deckForm, hs.deckRange, hs.populated, ?_⟩, hh, rfl, rfl, rfl⟩
      intro _ card col v hc
      simp [he h0] at hc
    · exact ⟨hs.congr rfl rfl rfl hs.idxBound, hh, rfl, rfl, rfl⟩
  obtain ⟨hbs, hbh, hbc, hbg, hbp⟩ := hb
  have hopen := openRead_spec name (beginLoad mode s)
  unfold loadDeck
  constructor
  · intro t ht
    obtain ⟨h, s1, h1, ht⟩ := Run.bind_eq_done.mp ht
    obtain ⟨c, hc1⟩ := hopen.1 h s1 h1
    obtain ⟨_, s2, h2, ht⟩ := Run.bind_eq_done.mp ht
    have hs1 : s1.Sound := by rw [hc1]; exact hbs.congr rfl rfl rfl hbs.idxBound
    have hroom : s1.count.toNat + (deckCapacity - s1.count.toNat) ≤ deckCapacity := by
      have := hs1.countBound; omega
    have hs2 := (loadRows_sound h name _ s1 hs1 hroom).of_done h2
    have hf2 := (loadRows_holds h name _ s1).of_done h2
    obtain ⟨_, s3, h3, ht⟩ := Run.bind_eq_done.mp ht
    obtain ⟨c3, rfl⟩ := (releaseHandle_holds h name s2).of_done h3
    cases ht
    refine ⟨hs2.congr rfl rfl rfl hs2.idxBound, ?_, rfl, ?_, ?_, ?_⟩
    · show s2.openHandles.filter (fun x => x != h) = []
      rw [hf2, hc1]
      simp [hbh]
    · show s2.mode = _
      rw [hf2, hc1]; rfl
    · show s2.config = _
      rw [hf2, hc1]; exact hbg
    · show s2.pending = _
      rw [hf2, hc1]; exact hbp
  · intro e t ht
    rcases Run.bind_eq_raised.mp ht with h1 | ⟨h, s1, h1, ht⟩
    · obtain ⟨hne, c, rfl⟩ := hopen.2 e t h1
      exact ⟨hbs.congr rfl rfl rfl hbs.idxBound, hne, hbg, hbp⟩
    obtain ⟨c, hc1⟩ := hopen.1 h s1 h1
    have hs1 : s1.Sound := by rw [hc1]; exact hbs.congr rfl rfl rfl hbs.idxBound
    have hroom : s1.count.toNat + (deckCapacity - s1.count.toNat) ≤ deckCapacity := by
      have := hs1.countBound; omega
    have hg1 : s1.config = s.config ∧ s1.pending = s.pending := by rw [hc1]; exact ⟨hbg, hbp⟩
    rcases Run.bind_eq_raised.mp ht with h2 | ⟨_, s2, h2, ht⟩
    · have hf := (loadRows_holds h name _ s1).of_raised h2
      refine ⟨(loadRows_sound h name _ s1 hs1 hroom).of_raised h2, loadRows_raised _ _ _ _ _ _ h2, ?_, ?_⟩
      · rw [hf]; exact hg1.1
      · rw [hf]; exact hg1.2
    have hs2 := (loadRows_sound h name _ s1 hs1 hroom).of_done h2
    have hf := (loadRows_holds h name _ s1).of_done h2
    rcases Run.bind_eq_raised.mp ht with h3 | ⟨_, s3, h3, ht⟩
    · obtain ⟨y, c3, _, rfl, rfl⟩ := toRun_raised.mp h3
      refine ⟨hs2.congr rfl rfl rfl hs2.idxBound, by simp, ?_, ?_⟩
      · show s2.config = _
        rw [hf]; exact hg1.1
      · show s2.pending = _
        rw [hf]; exact hg1.2
    · cases ht

/-- Saving a range below COUNT of a sound store with no handle open: done, only IDX and the collaborators have
changed; where it raises an error the buffer is sound and the error is not `OutOfRange` (43_deckstore.md R123). -/
theorem saveDeck_spec (name : Text) (start n : Nat) (s : State) (hs : s.Sound) (hh : s.openHandles = [])
    (hr : start + n ≤ s.count.toNat) :
    (∀ t, saveDeck name start n s = .done () t → t.Sound ∧ s.WriteFrame t) ∧
      (∀ e t, saveDeck name start n s = .raised e t →
        t.Sound ∧ e.report ≠ .outOfRange ∧ t.config = s.config ∧ t.pending = s.pending) := by
  have hopen := openWrite_spec name s
  have hcap : start + n ≤ deckCapacity := hr.trans hs.countBound
  have hsave : ∀ (h : Nat) (u : State), u.count = s.count → saveRows h name start n u = writeCards h name n start u := by
    intro h u hu
    rw [saveRows, if_neg (by rw [hu]; omega)]
  unfold saveDeck
  constructor
  · intro t ht
    obtain ⟨h, s1, h1, ht⟩ := Run.bind_eq_done.mp ht
    obtain ⟨c, hc1⟩ := hopen.1 h s1 h1
    have hs1 : s1.Sound := by rw [hc1]; exact hs.congr rfl rfl rfl hs.idxBound
    obtain ⟨_, s2, h2, ht⟩ := Run.bind_eq_done.mp ht
    rw [hsave h s1 (by rw [hc1]; rfl)] at h2
    have hs2 := (writeCards_sound h name n start s1 hs1 hcap).of_done h2
    have hf2 := (writeCards_holds h name n start s1).of_done h2
    obtain ⟨c3, rfl⟩ := (releaseHandle_holds h name s2).of_done ht
    refine ⟨hs2.congr rfl rfl rfl hs2.idxBound, ?_⟩
    unfold State.WriteFrame at *
    rw [hf2, hc1]
    simp [State.setCollab, State.dropHandle, State.addHandle, hh]
  · intro e t ht
    rcases Run.bind_eq_raised.mp ht with h1 | ⟨h, s1, h1, ht⟩
    · obtain ⟨hne, c, rfl⟩ := hopen.2 e t h1
      exact ⟨hs.congr rfl rfl rfl hs.idxBound, hne, rfl, rfl⟩
    obtain ⟨c, hc1⟩ := hopen.1 h s1 h1
    have hs1 : s1.Sound := by rw [hc1]; exact hs.congr rfl rfl rfl hs.idxBound
    have hg1 : s1.config = s.config ∧ s1.pending = s.pending := by rw [hc1]; exact ⟨rfl, rfl⟩
    rcases Run.bind_eq_raised.mp ht with h2 | ⟨_, s2, h2, ht⟩
    · rw [hsave h s1 (by rw [hc1]; rfl)] at h2
      have hf := (writeCards_holds h name n start s1).of_raised h2
      refine ⟨(writeCards_sound h name n start s1 hs1 hcap).of_raised h2, writeCards_raised _ _ _ _ _ _ _ h2, ?_, ?_⟩
      · rw [hf]; exact hg1.1
      · rw [hf]; exact hg1.2
    rw [hsave h s1 (by rw [hc1]; rfl)] at h2
    have hs2 := (writeCards_sound h name n start s1 hs1 hcap).of_done h2
    have hf := (writeCards_holds h name n start s1).of_done h2
    obtain ⟨y, c3, _, rfl, rfl⟩ := toRun_raised.mp ht
    refine ⟨hs2.congr rfl rfl rfl hs2.idxBound, by simp, ?_, ?_⟩
    · show s2.config = _
      rw [hf]; exact hg1.1
    · show s2.pending = _
      rw [hf]; exact hg1.2

/-- The abort sequence of an error other than `OutOfRange` leaves the invariant, from any sound store
(60_exceptions.md R158, R159). -/
theorem abort_inv (e : Raised) (s t : State) (hs : s.Sound) (hne : e.report ≠ .outOfRange)
    (h : abort e s = .next t) : t.Inv := by
  obtain ⟨c, _, rfl⟩ := abort_next h
  rw [if_neg hne]
  have hs' := hs.storeReset
  exact ⟨hs'.countBound, hs'.idxBound, hs'.deckForm, hs'.deckRange, hs'.populated, hs'.cellsFitMode, rfl,
    .inl rfl, fun _ => ⟨rfl, rfl⟩⟩

end Sys2Proof.Machine
end

