-- ==== Sys2Proof/Laws/Step.lean ====
section
/-! SUPPORT. One step (spec/20_memory.md R40, spec/30_encoding.md R53): waiting, and serving a request that decodes
or does not; the meaning of a target word, once for all rows (log entry 1). -/

namespace Sys2Proof.Machine

/-- With no request presented the block waits (log entry 12). -/
theorem step_idle (s : State) (h : s.pending = []) : step s = .next s := by
  rw [step, serveNext, h]

/-- A step serves the next request. -/
theorem step_request (s : State) (r : Request) (rest : List Request) (h : s.pending = r :: rest) :
    step s = serve r { s with pending := rest } := by
  rw [step, serveNext, h]
  simp only [State.takeRequest, h, List.tail_cons]

theorem serve_ok (r : Request) (i : Instr) (s : State) (h : decode r = .ok i) :
    serve r s = afterServing r (exec i s) := by
  rw [serve, h]

theorem serve_error (r : Request) (why : Reject) (s : State) (h : decode r = .error why) :
    serve r s = afterServing r (reject why s) := by
  rw [serve, h]

/-- Every row of the opcode table translates its own word. -/
theorem exec_targetRow (op : Nat) (sg : Sign) (da ia : Nat) (i : Instr) (s : State)
    (h : targetRow op sg da ia = some i) : exec i s = translateTarget op sg da ia s := by
  unfold targetRow at h
  split at h <;> cases h <;> rfl

/-- Packing a word's own fields gives the word back (10_state.md R12). -/
theorem packFields_fields (w : Word) (h : w.WellFormed) :
    packFields (w.mag / 10 ^ 8) (w.mag / 10 ^ 4 % 10 ^ 4) (w.mag % 10 ^ 4) w.sign = w := by
  obtain ⟨sg, m⟩ := w
  have h' : m < 10000000000 := h
  simp only [packFields, Word.mk.injEq, true_and]
  omega

/-- The fields of a packed word (40_wordcodec.md R73, 10_state.md R12). -/
theorem packFields_spec (op da ia : Nat) (sg : Sign) :
    (packFields op da ia sg).WellFormed ∧ (packFields op da ia sg).mag / 10 ^ 8 = op % 100 ∧
      (packFields op da ia sg).mag / 10 ^ 4 % 10 ^ 4 = da % 10000 ∧
      (packFields op da ia sg).mag % 10 ^ 4 = ia % 10000 := by
  simp only [packFields, Word.WellFormed, wordMod]
  omega

/-- What translating a word answers (log entry 1). -/
theorem translateWord_eq (w : Word) (h : w.WellFormed) (s : State) :
    translateWord w s = .next (s.finish statusOk (.translated
      ⟨lookupTag s.config (w.mag / 10 ^ 8), w.mag / 10 ^ 8, w.mag / 10 ^ 4 % 10 ^ 4, w.mag % 10 ^ 4⟩
      (readsOperandOf s.config (w.mag / 10 ^ 8)))) := by
  rw [translateWord, disassemble_eq _ w h, complete_eq]

end Sys2Proof.Machine
end

