-- ==== Sys2Proof/Laws/Text.lean ====
section
/-! SUPPORT. The textual forms: rendering digits (spec/30_encoding.md R61) and the scanners over runs of spaces,
digits and markers (R56, R57). -/

namespace Sys2Proof.Machine

theorem renderDigits_length (k m : Nat) : (renderDigits k m).length = k := by
  induction k with
  | zero => rfl
  | succ k ih => simp [renderDigits, ih]

theorem renderDigits_getElem (k m i : Nat) (h : i < k) : (renderDigits k m)[i]? = some (digitChar (digitOf m (k - 1 - i))) := by
  induction k generalizing i with
  | zero => omega
  | succ k ih =>
    cases i with
    | zero => simp [renderDigits]
    | succ i => simp only [renderDigits, List.getElem?_cons_succ]; rw [ih i (by omega)]; congr 3; omega

theorem digitChar_digit (d : Nat) (h : d < 10) : isDigitChar (digitChar d) = true ∧ (digitChar d).toNat - 48 = d := by
  interval_cases d <;> decide

theorem scanFieldFrom_digits (W : Nat) (ds : Text) (h : ∀ x ∈ ds, isDigitChar x = true) (v : Nat) (rest : Text)
   (hr : ∀ x xs, rest = x :: xs → isDigitChar x = false) :
   scanFieldFrom W v (ds ++ rest) = (ds.foldl (fun v x => (v * 10 + (x.toNat - 48)) % 10 ^ W) v, rest) := by
  induction ds generalizing v with
  | nil =>
    cases rest with
    | nil => rfl
    | cons x xs => simp only [List.nil_append, scanFieldFrom, hr x xs rfl]; rfl
  | cons d ds ih =>
    simp only [List.cons_append, scanFieldFrom, h d (by simp), if_true, List.foldl_cons]
    exact ih (fun x hx => h x (by simp [hx])) _

theorem foldDigits_mod (W : Nat) (ds : Text) (v : Nat) : (ds.foldl (fun v x => (v * 10 + (x.toNat - 48)) % 10 ^ W) v) % 10^W = (ds.foldl (fun v x => v * 10 + (x.toNat - 48)) v) % 10 ^ W := by
  induction ds generalizing v with
  | nil => rfl
  | cons d ds ih =>
    simp only [List.foldl_cons]
    rw [ih]
    have key : ∀ (ds : Text) (a b : Nat), a % 10 ^ W = b % 10 ^ W → (ds.foldl (fun v x => v * 10 + (x.toNat - 48)) a) % 10 ^ W = (ds.foldl (fun v x => v * 10 + (x.toNat - 48)) b) % 10 ^ W := by
      intro ds
      induction ds with
      | nil => intro a b h; exact h
      | cons d ds ih =>
        intro a b h
        simp only [List.foldl_cons]
        apply ih
        rw [Nat.add_mod, Nat.mul_mod, h, ← Nat.mul_mod, ← Nat.add_mod]
    apply key
    rw [Nat.mod_mod]

theorem foldDigits_lt (W : Nat) (hW : 0 < 10 ^ W) (ds : Text) (v : Nat) (hv : v < 10 ^ W) : (ds.foldl (fun v x => (v * 10 + (x.toNat - 48)) % 10 ^ W) v) < 10^W := by
  induction ds generalizing v with
  | nil => exact hv
  | cons d ds ih => exact ih _ (Nat.mod_lt _ hW)

/-- A run of digits is scanned to the value it writes, its last digits kept (30_encoding.md R56). -/
theorem scanField_digits (W : Nat) (ds : Text) (h : ∀ x ∈ ds, isDigitChar x = true) (rest : Text)
   (hr : ∀ x xs, rest = x :: xs → isDigitChar x = false) :
   scanField W (ds ++ rest) = (digitsValue ds % 10 ^ W, rest) := by
  rw [scanField, scanFieldFrom_digits W ds h 0 rest hr]
  congr 1
  have h1 := foldDigits_mod W ds 0
  have h2 := foldDigits_lt W (by positivity) ds 0 (by positivity)
  rw [Nat.mod_eq_of_lt h2] at h1
  rw [h1]; rfl

/-- Spaces are skipped (30_encoding.md R56). -/
theorem skipSpaces_replicate (n : Nat) (t : Text) (h : ∀ x xs, t = x :: xs → x ≠ space) : skipSpaces (List.replicate n space ++ t) = t := by
  induction n with
  | zero =>
    cases t with
    | nil => rfl
    | cons x xs => simp [skipSpaces, h x xs rfl]
  | succ n ih => rw [List.replicate_succ, List.cons_append, skipSpaces, if_pos rfl, ih]

/-- After the digits of a text: spaces, an optional marker, anything; without a marker, anything that ends the scan
(30_encoding.md R57). -/
theorem scanSign_trailing (d : Nat) (back : Option Sign) (rest : Text) (s : Sign) {P : Prop}
   (h : back = none → endsScan P rest) :
   (scanSign s (skipSpaces (List.replicate d space ++ markText back ++ rest))).1 = (match back with | some b => b | none => s) := by
  rw [List.append_assoc, skipSpaces_replicate]
  · cases back with
    | none =>
      cases rest with
      | nil => rfl
      | cons x xs => obtain ⟨h1, h2, h3, h4⟩ := h rfl; simp [markText, scanSign, h2, h3]
    | some b => cases b <;> simp [markText, scanSign, show minusCh ≠ plusCh by decide]
  · intro x xs e
    cases back with
    | none =>
      cases rest with
      | nil => simp [markText] at e
      | cons z zs => obtain ⟨h1, h2, h3, h4⟩ := h rfl; simp [markText] at e; rw [← e.1]; exact h1
    | some b => cases b <;> simp [markText] at e <;> rw [← e.1] <;> decide

/-- No digit stands right after the digits of a text (30_encoding.md R56). -/
theorem trailing_not_digit (d : Nat) (back : Option Sign) (rest : Text) {P : Prop}
   (h : back = none → endsScan P rest) (hp : P → 0 < d) :
   ∀ x xs, List.replicate d space ++ markText back ++ rest = x :: xs → isDigitChar x = false := by
  intro x xs e
  cases d with
  | succ d => simp [List.replicate_succ] at e; rw [← e.1]; decide
  | zero =>
    cases back with
    | none =>
      cases rest with
      | nil => simp [markText] at e
      | cons z zs => obtain ⟨h1, h2, h3, h4⟩ := h rfl; simp [markText] at e; rw [← e.1]; exact Bool.eq_false_iff.mpr fun hz => absurd (hp (h4 hz)) (by simp)
    | some b => cases b <;> simp [markText] at e <;> rw [← e.1] <;> decide

/-- A digit is no space and no marker. -/
theorem digit_not_marker (x : Ch) (h : isDigitChar x = true) : x ≠ space ∧ x ≠ plusCh ∧ x ≠ minusCh := by
  revert h; revert x; decide

/-- The digits rendered write the low digits of the magnitude (30_encoding.md R61). -/
theorem digitsValue_renderDigits (k m : Nat) : digitsValue (renderDigits k m) = m % 10 ^ k := by
  have key : ∀ (k v : Nat), (renderDigits k m).foldl (fun v x => v * 10 + (x.toNat - 48)) v = v * 10 ^ k + m % 10 ^ k := by
    intro k
    induction k with
    | zero => intro v; simp [renderDigits, Nat.mod_one]
    | succ k ih =>
      intro v
      simp only [renderDigits, List.foldl_cons]
      rw [ih, (digitChar_digit (digitOf m k) (Nat.mod_lt _ (by norm_num))).2, digitOf]
      have := Nat.mod_pow_succ (b := 10) (x := m) (k := k)
      rw [this, Nat.pow_succ]; ring
  have h0 := key k 0
  rw [Nat.zero_mul, Nat.zero_add] at h0
  exact h0

theorem renderDigits_digits (k m : Nat) : ∀ x ∈ renderDigits k m, isDigitChar x = true := by
  induction k with
  | zero => simp [renderDigits]
  | succ k ih =>
    intro x hx
    simp only [renderDigits, List.mem_cons] at hx
    rcases hx with rfl|hx
    · exact (digitChar_digit _ (Nat.mod_lt _ (by norm_num))).1
    · exact ih x hx


/-- A scanned value fits its field (30_encoding.md R56). -/
theorem scanFieldFrom_lt (W : Nat) (t : Text) (v : Nat) (hv : v < 10 ^ W) : (scanFieldFrom W v t).1 < 10 ^ W := by
  induction t generalizing v with
  | nil => exact hv
  | cons c cs ih =>
    simp only [scanFieldFrom]
    split
    · exact ih _ (Nat.mod_lt _ (by positivity))
    · exact hv

/-! ### The words of a command line (30_encoding.md R63) -/

theorem tokensFrom_spaces (k : Nat) (l : Text) : tokensFrom [] (List.replicate k space ++ l) = tokensFrom [] l := by
  induction k with
  | zero => rfl
  | succ k ih => rw [List.replicate_succ, List.cons_append, tokensFrom, if_pos rfl, if_pos rfl, ih]

theorem tokensFrom_word (w acc rest : Text) (hne : acc ++ w ≠ []) (hw : ∀ x ∈ w, x ≠ space)
    (hr : ∀ x ∈ rest.head?, x = space) : tokensFrom acc (w ++ rest) = (acc.reverse ++ w) :: tokensFrom [] rest := by
  induction w generalizing acc with
  | nil =>
    have : acc ≠ [] := by simpa using hne
    cases rest with
    | nil => simp [tokensFrom, this]
    | cons x xs =>
      obtain rfl : x = space := hr x (by simp)
      simp [tokensFrom, this]
  | cons x w ih =>
    rw [List.cons_append, tokensFrom, if_neg (hw x (by simp)), ih (x :: acc) (by simp) fun y hy => hw y (by simp [hy])]
    simp

/-- The tokens of a line are its words (30_encoding.md R63). -/
theorem tokens_lineOf (ws : List Text) (l : Text) (h : lineOf ws l) : tokens l = ws := by
  induction ws generalizing l with
  | nil =>
    obtain ⟨k, rfl⟩ := h
    have := tokensFrom_spaces k []
    rw [List.append_nil] at this
    exact this
  | cons w ws ih =>
    obtain ⟨k, rest, rfl, hne, hw, hr, hl⟩ := h
    rw [tokens, List.append_assoc, tokensFrom_spaces, tokensFrom_word w [] rest (by simpa using hne) hw hr,
      ← ih rest hl]
    rfl

end Sys2Proof.Machine
end

