-- ==== Sys2Proof/Tests/Slice0.lean ====
section
/-! SUPPORT. The model's own tests: the well-formedness smoke, decoding of words written out from the spec's
encodings, one-step tests from spec/95_test_vectors.md, and for every obligation with hypotheses a witness
(`witness_<Name>`) that they can be met together. -/

namespace Sys2Proof.Tests

set_option Elab.async false

open Sys2Proof Sys2Proof.Machine

/-- A text of characters. -/
def txt (cs : List Char) : Text := cs.map ch

/-- A command byte with every operand port 0. -/
def cmd (b : BitVec 8) : InPorts := { InPorts.zero with cmd := b }

/-- A state with one request presented, after reset with the given files. -/
def given (files : List (Text × List Row)) (r : Request) : State :=
  { State.reset with pending := [r], collab := { Collab.initial with files := files } }

/-- STATUS and the result port after a step that answers a next state. -/
def shown (o : Host.Outcome State Fault Refusal) : Option (BitVec 8 × Port) :=
  match o with
  | .next t => some (t.status, t.out)
  | _ => none

/-- The next state, or the state after reset where there is none. -/
def after (o : Host.Outcome State Fault Refusal) : State :=
  match o with
  | .next t => t
  | _ => State.reset

/-- Whether the outcome is a next state. -/
def isNext (o : Host.Outcome State Fault Refusal) : Bool :=
  match o with
  | .next _ => true
  | _ => false

theorem next_after (o : Host.Outcome State Fault Refusal) (h : isNext o = true) : o = .next (after o) := by
  cases o with
  | next t => rfl
  | fault f => cases h
  | refused r => cases h

/-- STATUS and the result port of the step that serves a command byte with its ports after reset. -/
def ran (p : InPorts) : Option (BitVec 8 × Port) := shown (step (given [] (.command p)))

/-! ### Well-formedness: an ill-formed term for each check -/

theorem test_wf_word : (Instr.extract ⟨.pos, 10000000000⟩ 1).wellFormed = false ∧
    (Instr.format ⟨.neg, 10000000000⟩).wellFormed = false ∧ (Instr.disasm ⟨.pos, 10000000000⟩).wellFormed = false ∧
    (Instr.fmtw ⟨.pos, 10000000000⟩ .numeric).wellFormed = false := by decide
theorem test_wf_digit_count : (Instr.extract ⟨.pos, 1⟩ 16).wellFormed = false ∧
    (Instr.extract ⟨.pos, 1⟩ (-17)).wellFormed = false ∧ (Instr.extract ⟨.pos, 1⟩ (-16)).wellFormed = true := by decide
theorem test_wf_fields : (Instr.pack 4294967296 0 0 .pos).wellFormed = false ∧
    (Instr.pack 0 4294967296 0 .pos).wellFormed = false ∧ (Instr.pack 0 0 4294967296 .pos).wellFormed = false ∧
    (Instr.asm [] 4294967296 0 .pos).wellFormed = false ∧ (Instr.asm [] 0 4294967296 .pos).wellFormed = false ∧
    (Instr.pack 4294967295 0 0 .pos).wellFormed = true := by decide
theorem test_wf_text : let long : Text := List.replicate 81 space
    (Instr.parse long).wellFormed = false ∧ (Instr.asm long 0 0 .pos).wellFormed = false ∧
    (Instr.parsew long .mnemonic).wellFormed = false ∧ (Instr.load long .raw).wellFormed = false ∧
    (Instr.save long 0 0).wellFormed = false ∧ (Instr.print long true true).wellFormed = false ∧
    (Instr.parse (List.replicate 80 space)).wellFormed = true := by decide
theorem test_wf_names : let long : Text := List.replicate 81 space
    (Instr.split false 0 long [] [] true).wellFormed = false ∧ (Instr.split false 0 [] long [] true).wellFormed = false ∧
    (Instr.split false 0 [] [] long true).wellFormed = false ∧ (Instr.join [[], long] [] true).wellFormed = false ∧
    (Instr.join [] long true).wellFormed = false := by decide
theorem test_wf_small_operands : (Instr.code2ch 128).wellFormed = false ∧ (Instr.digzone 16 .none).wellFormed = false ∧
    (Instr.readsop 128).wellFormed = false ∧ (Instr.save [] 16384 0).wellFormed = false ∧
    (Instr.save [] 0 16384).wellFormed = false ∧
    (Instr.split true 4294967296 [] [] [] true).wellFormed = false := by decide
theorem test_wf_addresses : (Instr.ld .pos 10000 0).wellFormed = false ∧ (Instr.ld .pos 0 10000).wellFormed = false ∧
    (Instr.brd9 .neg 9999 9999).wellFormed = true := by decide

/-- 10_state.md R18 to R21: the candidate tables meet the conditions, and each condition refuses a table. -/
theorem test_candidate_ok : configOk candidateConfig = true := by decide +kernel
theorem test_config_refused :
    codeTableOk { candidateConfig with codeTable := candidateConfig.codeTable.set 0 placeholder } = false ∧
    codeTableOk { candidateConfig with codeTable := candidateConfig.codeTable.set 5 (ch 'a') } = false ∧
    codeTableOk { candidateConfig with codeTable := candidateConfig.codeTable.set 61 placeholder } = false ∧
    holTableOk { candidateConfig with holTable := candidateConfig.holTable.set 65 0x880#16 } = false ∧
    holTableOk { candidateConfig with holTable := candidateConfig.holTable.set 10 0#16 } = false ∧
    zoneTableOk { candidateConfig with zonePlus := candidateConfig.zonePlus.set 3 (ch 'L') } = false ∧
    mnemonicTableOk { candidateConfig with mnemonics := ⟨69, [ch 'X'], true⟩ :: candidateMnemonics } = false ∧
    mnemonicTableOk { candidateConfig with mnemonics := ⟨2, [ch 'L', ch 'D'], true⟩ :: candidateMnemonics } = false ∧
    mnemonicTableOk { candidateConfig with mnemonics := [⟨2, [ch '1', ch 'D'], true⟩] } = false := by decide +kernel

/-! ### Decoding: words written out from 30_encoding.md R46, R47, R53, R54, R64 -/

theorem test_decode_commands_0 :
    decodeCommand { cmd 0x00#8 with word := 0x1_1234567890#41, digits := 0b10111#5 } = .ok (.extract ⟨.neg, 1234567890⟩ (-9)) ∧
    decodeCommand { cmd 0x01#8 with opcodeField := 69#32, dataField := 1234#32, instrField := 5678#32, sign := 1#1 }
      = .ok (.pack 69 1234 5678 .neg) ∧
    decodeCommand { cmd 0x02#8 with word := 0x1_0000000000#41 } = .ok (.format ⟨.neg, 0⟩) ∧
    decodeCommand { cmd 0x03#8 with text := ⟨2#7, (Vector.replicate 80 120#7).set 0 45#7 |>.set 1 48#7⟩ }
      = .ok (.parse [45#7, 48#7]) ∧
    decodeCommand { cmd 0x04#8 with char := 65#7 } = .ok (.ch2code 65#7) ∧
    decodeCommand { cmd 0x05#8 with code := 127#7 } = .ok (.code2ch 127) ∧
    decodeCommand { cmd 0x06#8 with char := 126#7 } = .ok (.ch2punch 126#7) ∧
    decodeCommand { cmd 0x07#8 with mask := 0x1900#16 } = .ok (.punch2ch 0x1900#16) := by
  refine ⟨rfl, rfl, rfl, rfl, rfl, rfl, rfl, rfl⟩
theorem test_decode_commands_1 :
    decodeCommand { cmd 0x08#8 with digit := 3#4, zone := 2#2 } = .ok (.digzone 3 .minus) ∧
    decodeCommand { cmd 0x08#8 with digit := 15#4, zone := 3#2 } = .ok (.digzone 15 .notAZone) ∧
    decodeCommand { cmd 0x09#8 with word := 0x0_6512345678#41 } = .ok (.disasm ⟨.pos, 6512345678⟩) ∧
    decodeCommand { cmd 0x0A#8 with text := ⟨1#7, Vector.replicate 80 76#7⟩, dataField := 7#32, instrField := 8#32 }
      = .ok (.asm [76#7] 7 8 .pos) ∧
    decodeCommand { cmd 0x0B#8 with opcode := 65#7 } = .ok (.readsop 65) ∧
    decodeCommand (cmd 0x0C#8) = .ok (.parsew [] .numeric) ∧ decodeCommand (cmd 0x2C#8) = .ok (.parsew [] .mnemonic) ∧
    decodeCommand (cmd 0x4C#8) = .ok (.parsew [] .character) ∧ decodeCommand (cmd 0x6C#8) = .ok (.parsew [] .reserved) ∧
    decodeCommand (cmd 0x4D#8) = .ok (.fmtw ⟨.pos, 0⟩ .character) := by
  refine ⟨rfl, rfl, rfl, rfl, rfl, rfl, rfl, rfl, rfl, rfl⟩
/-- Three names on text ports: the letters A, B and C. -/
def portA : TextPort := ⟨1#7, Vector.replicate 80 65#7⟩
def portB : TextPort := ⟨1#7, Vector.replicate 80 66#7⟩
def portC : TextPort := ⟨1#7, Vector.replicate 80 67#7⟩
theorem test_decode_commands_2 :
    decodeCommand (cmd 0x10#8) = .ok .dreset ∧
    decodeCommand { cmd 0x11#8 with source := portA } = .ok (.load [65#7] .raw) ∧
    decodeCommand { cmd 0x31#8 with source := portA } = .ok (.load [65#7] .translated) ∧
    decodeCommand { cmd 0x12#8 with dest1 := portA, start := 2#14, count := 3#14 } = .ok (.save [65#7] 2 3) ∧
    decodeCommand { cmd 0x93#8 with tail := 1#1, splitCount := 40#32, source := portA, dest1 := portB, dest2 := portC }
      = .ok (.split true 40 [65#7] [66#7] [67#7] true) ∧
    decodeCommand { cmd 0x14#8 with sources := [portA, portB], dest1 := portC }
      = .ok (.join [[65#7], [66#7]] [67#7] false) ∧
    decodeCommand { cmd 0x95#8 with source := portA, sink2 := 1#1 } = .ok (.print [65#7] true true) := by
  refine ⟨rfl, rfl, rfl, rfl, rfl, rfl, rfl⟩
theorem test_decode_targets_0 :
    decodeTableWord 48 0x00000019999 = some (.noop .pos 1 9999) ∧
    decodeTableWord 48 0x10112345678 = some (.stop .neg 1234 5678) ∧
    decodeTableWord 48 0x01000019999 = some (.au .pos 1 9999) ∧
    decodeTableWord 48 0x11112345678 = some (.su .neg 1234 5678) ∧
    decodeTableWord 48 0x01400019999 = some (.div .pos 1 9999) ∧
    decodeTableWord 48 0x11512345678 = some (.al .neg 1234 5678) ∧
    decodeTableWord 48 0x01600019999 = some (.sl .pos 1 9999) ∧
    decodeTableWord 48 0x11712345678 = some (.aabl .neg 1234 5678) ∧
    decodeTableWord 48 0x01800019999 = some (.sabl .pos 1 9999) ∧
    decodeTableWord 48 0x11912345678 = some (.mult .neg 1234 5678) ∧
    decodeTableWord 48 0x02000019999 = some (.stl .pos 1 9999) ∧
    decodeTableWord 48 0x12112345678 = some (.stu .neg 1234 5678) ∧
    decodeTableWord 48 0x02200019999 = some (.stda .pos 1 9999) ∧
    decodeTableWord 48 0x12312345678 = some (.stia .neg 1234 5678) ∧
    decodeTableWord 48 0x02400019999 = some (.std .pos 1 9999) := by
  decide +kernel
theorem test_decode_targets_1 :
    decodeTableWord 48 0x13012345678 = some (.srt .neg 1234 5678) ∧
    decodeTableWord 48 0x03100019999 = some (.srd .pos 1 9999) ∧
    decodeTableWord 48 0x13512345678 = some (.slt .neg 1234 5678) ∧
    decodeTableWord 48 0x03600019999 = some (.sct .pos 1 9999) ∧
    decodeTableWord 48 0x14412345678 = some (.brnzu .neg 1234 5678) ∧
    decodeTableWord 48 0x04500019999 = some (.brnz .pos 1 9999) ∧
    decodeTableWord 48 0x14612345678 = some (.brmin .neg 1234 5678) ∧
    decodeTableWord 48 0x04700019999 = some (.brov .pos 1 9999) ∧
    decodeTableWord 48 0x16012345678 = some (.rau .neg 1234 5678) ∧
    decodeTableWord 48 0x06100019999 = some (.rsu .pos 1 9999) ∧
    decodeTableWord 48 0x16412345678 = some (.divru .neg 1234 5678) ∧
    decodeTableWord 48 0x06500019999 = some (.ral .pos 1 9999) ∧
    decodeTableWord 48 0x16612345678 = some (.rsl .neg 1234 5678) ∧
    decodeTableWord 48 0x06700019999 = some (.raabl .pos 1 9999) ∧
    decodeTableWord 48 0x16812345678 = some (.rsabl .neg 1234 5678) := by
  decide +kernel
theorem test_decode_targets_2 :
    decodeTableWord 48 0x06900019999 = some (.ld .pos 1 9999) ∧
    decodeTableWord 48 0x17012345678 = some (.rd .neg 1234 5678) ∧
    decodeTableWord 48 0x07100019999 = some (.pch .pos 1 9999) ∧
    decodeTableWord 48 0x18412345678 = some (.tlu .neg 1234 5678) ∧
    decodeTableWord 48 0x09000019999 = some (.brd10 .pos 1 9999) ∧
    decodeTableWord 48 0x19112345678 = some (.brd1 .neg 1234 5678) ∧
    decodeTableWord 48 0x09200019999 = some (.brd2 .pos 1 9999) ∧
    decodeTableWord 48 0x19312345678 = some (.brd3 .neg 1234 5678) ∧
    decodeTableWord 48 0x09400019999 = some (.brd4 .pos 1 9999) ∧
    decodeTableWord 48 0x19512345678 = some (.brd5 .neg 1234 5678) ∧
    decodeTableWord 48 0x09600019999 = some (.brd6 .pos 1 9999) ∧
    decodeTableWord 48 0x19712345678 = some (.brd7 .neg 1234 5678) ∧
    decodeTableWord 48 0x09800019999 = some (.brd8 .pos 1 9999) ∧
    decodeTableWord 48 0x19912345678 = some (.brd9 .neg 1234 5678) := by
  decide +kernel

/-! ### One step each (spec/95_test_vectors.md; the mark of a vector names its candidate table) -/

/-- V1 #2, #10, #15, #16. -/
theorem test_extract :
    ran { cmd 0x00#8 with word := 0x1_1234567890#41, digits := 0b00100#5 }
      = some (0x00#8, .extracted 1234 ⟨.neg, 5678900000⟩) ∧
    ran { cmd 0x00#8 with word := 0x1_0000050000#41, digits := 0b00110#5 } = some (0x00#8, .extracted 5 ⟨.neg, 0⟩) ∧
    ran { cmd 0x00#8 with word := 0x0_1234567890#41, digits := 0b11110#5 }
      = some (0x00#8, .extracted 90 ⟨.pos, 12345678⟩) ∧
    ran { cmd 0x00#8 with word := 0x0_0000000042#41 } = some (0x00#8, .extracted 0 ⟨.pos, 42⟩) ∧
    ran { cmd 0x00#8 with digits := 0b01010#5 } = some (0x0F#8, .refused .badDigitCount) := by decide +kernel
/-- V2 #7, #9, #10. -/
theorem test_pack :
    ran { cmd 0x01#8 with opcodeField := 169#32, dataField := 21234#32, instrField := 5678#32, sign := 1#1 }
      = some (0x00#8, .word ⟨.neg, 6912345678⟩) ∧
    ran { cmd 0x01#8 with dataField := 10000#32, sign := 1#1 } = some (0x00#8, .word ⟨.neg, 0⟩) ∧
    ran { cmd 0x01#8 with
      opcodeField := 4294967295#32, dataField := 4294967295#32, instrField := 4294967295#32, sign := 1#1 } = some (0x00#8, .word ⟨.neg, 9572957295⟩) := by decide +kernel
/-- V3. -/
theorem test_format :
    ran { cmd 0x02#8 with word := 0x1_0000000042#41 }
      = some (0x00#8, .text (txt ['0', '0', '0', '0', '0', '0', '0', '0', '4', '2', '-'])) ∧
    ran { cmd 0x02#8 with word := 0x0_6912345678#41 }
      = some (0x00#8, .text (txt ['6', '9', '1', '2', '3', '4', '5', '6', '7', '8', '+'])) := by decide +kernel
/-- V3 #4, #8, #9, #14, #16, #18, #7. -/
theorem test_parse :
    ran { cmd 0x03#8 with text := encodeText (txt ['-']) } = some (0x00#8, .word ⟨.neg, 0⟩) ∧
    ran { cmd 0x03#8 with text := encodeText (txt ['+', '0', '-', '+']) } = some (0x00#8, .word ⟨.neg, 0⟩) ∧
    ran { cmd 0x03#8 with text := encodeText (txt ['-', '4', '2', '+']) } = some (0x00#8, .word ⟨.pos, 42⟩) ∧
    ran { cmd 0x03#8 with text := encodeText (txt ['1', '2', '3', '4', '5', '6', '7', '8', '9', '0', '1']) }
      = some (0x00#8, .word ⟨.pos, 2345678901⟩) ∧
    ran { cmd 0x03#8 with text := encodeText (txt ['1', '2', 'x', '3', '4']) } = some (0x00#8, .word ⟨.pos, 12⟩) ∧
    ran { cmd 0x03#8 with text := encodeText (txt ['1', ' ', '2']) } = some (0x00#8, .word ⟨.pos, 1⟩) ∧
    ran (cmd 0x03#8) = some (0x00#8, .word ⟨.pos, 0⟩) := by decide +kernel
/-- V4 [G2]. -/
theorem test_ch2code :
    ran { cmd 0x04#8 with char := ch 'a' } = some (0x00#8, .code 61) ∧
    ran { cmd 0x04#8 with char := ch '-' } = some (0x00#8, .code 30) ∧
    ran { cmd 0x04#8 with char := ch '9' } = some (0x00#8, .code 99) ∧
    ran { cmd 0x04#8 with char := ch '~' } = some (0x00#8, .code 0) ∧
    ran { cmd 0x04#8 with char := ch '?' } = some (0x00#8, .code 0) := by decide +kernel
/-- V4 [G2]. -/
theorem test_code2ch :
    ran { cmd 0x05#8 with code := 49#7 } = some (0x00#8, .char (ch '-')) ∧
    ran { cmd 0x05#8 with code := 82#7 } = some (0x00#8, .char (ch 'S')) ∧
    ran { cmd 0x05#8 with code := 1#7 } = some (0x00#8, .char (ch '~')) ∧
    ran { cmd 0x05#8 with code := 100#7 } = some (0x0F#8, .refused .notAValue) := by decide +kernel
/-- V5 [G3]. -/
theorem test_ch2punch :
    ran { cmd 0x06#8 with char := ch 'a' } = some (0x00#8, .mask 0xB00#16) ∧
    ran { cmd 0x06#8 with char := ch '.' } = some (0x00#8, .mask 0x842#16) ∧
    ran { cmd 0x06#8 with char := 10#7 } = some (0x00#8, .mask 0x1000#16) ∧
    ran { cmd 0x06#8 with char := 127#7 } = some (0x00#8, .mask 0x1000#16) := by decide +kernel
/-- V5 [G3]. -/
theorem test_punch2ch :
    ran { cmd 0x07#8 with mask := 0x440#16 } = some (0x00#8, .char (ch 'L')) ∧
    ran { cmd 0x07#8 with mask := 0x000#16 } = some (0x00#8, .char (ch ' ')) ∧
    ran { cmd 0x07#8 with mask := 0x003#16 } = some (0x08#8, .failed (.invalidPunch 0x003#16 none)) ∧
    ran { cmd 0x07#8 with mask := 0x1000#16 } = some (0x08#8, .failed (.invalidPunch 0x1000#16 none)) := by
  decide +kernel
/-- V5 [G4]. -/
theorem test_digzone :
    ran { cmd 0x08#8 with digit := 3#4, zone := 2#2 } = some (0x00#8, .char (ch 'L')) ∧
    ran { cmd 0x08#8 with digit := 0#4, zone := 1#2 } = some (0x00#8, .char (ch '?')) ∧
    ran { cmd 0x08#8 with digit := 7#4 } = some (0x00#8, .char (ch '7')) ∧
    ran { cmd 0x08#8 with digit := 10#4 } = some (0x0F#8, .refused .contractViolation) ∧
    ran { cmd 0x08#8 with zone := 3#2 } = some (0x0F#8, .refused .contractViolation) := by decide +kernel
/-- V6 [G1]. -/
theorem test_disasm :
    ran { cmd 0x09#8 with word := 0x1_6912345678#41 }
      = some (0x00#8, .disassembled ⟨.known (txt ['L', 'D']), 69, 1234, 5678⟩) ∧
    ran { cmd 0x09#8 with word := 0x0_0512340000#41 } = some (0x00#8, .disassembled ⟨.unknown 5, 5, 1234, 0⟩) := by
  decide +kernel
/-- V6 [G1]. -/
theorem test_asm :
    ran { cmd 0x0A#8 with text := encodeText (txt ['S', 'T', 'D']), dataField := 10100#32, instrField := 70200#32 }
      = some (0x00#8, .word ⟨.pos, 2401000200⟩) ∧
    ran { cmd 0x0A#8 with text := encodeText (txt ['r', 'a', 'l']) }
      = some (0x02#8, .failed (.unknownMnemonic (txt ['r', 'a', 'l']))) ∧
    ran { cmd 0x0A#8 with text := encodeText (txt ['R', 'A', 'L', ' ']) }
      = some (0x02#8, .failed (.unknownMnemonic (txt ['R', 'A', 'L', ' ']))) := by decide +kernel
/-- V6 [G1]. -/
theorem test_readsop :
    ran { cmd 0x0B#8 with opcode := 65#7 } = some (0x00#8, .operandFlag true true) ∧
    ran { cmd 0x0B#8 with opcode := 20#7 } = some (0x00#8, .operandFlag true false) ∧
    ran { cmd 0x0B#8 with opcode := 5#7 } = some (0x00#8, .operandFlag false false) ∧
    ran { cmd 0x0B#8 with opcode := 100#7 } = some (0x0F#8, .refused .notAValue) := by decide +kernel
/-- V7 mnemonic #7, #12, #13, #18 [G1]. -/
theorem test_parsew_mnemonic :
    ran { cmd 0x2C#8 with text := encodeText (txt ['-', 'R', 'A', 'L', ' ', '1', ' ', '2', ' ', '+']) }
      = some (0x00#8, .word ⟨.pos, 6500010002⟩) ∧
    ran { cmd 0x2C#8 with text := encodeText (txt ['R', 'A', 'L', ' ', '1', '2', '3', 'x', ' ', '5']) }
      = some (0x00#8, .word ⟨.pos, 6501230000⟩) ∧
    ran { cmd 0x2C#8 with
        text := encodeText (txt ['B', 'R', 'D', '1', '0', ' ', '9', '9', '9', '9', '9', ' ', '1', '2', '3', '4', '5']) }
      = some (0x00#8, .word ⟨.pos, 9099992345⟩) ∧
    ran { cmd 0x2C#8 with text := encodeText (txt ['R', '-', 'A', 'L', ' ', '1', ' ', '2']) }
      = some (0x02#8, .failed (.unknownMnemonic (txt ['R']))) := by decide +kernel
/-- V7 character [G2]; numeric is V3; mode 3 is refused. -/
theorem test_parsew_other :
    ran { cmd 0x4C#8 with text := encodeText (txt ['$', '1', '.', '5', '0']) }
      = some (0x00#8, .word ⟨.pos, 2891189590⟩) ∧
    ran { cmd 0x4C#8 with text := encodeText (txt ['I', 'B', 'M', '6', '5', '0', 'X']) }
      = some (0x00#8, .word ⟨.pos, 6962749695⟩) ∧
    ran { cmd 0x4C#8 with text := encodeText (txt ['a', ' ', 'b']) } = some (0x00#8, .word ⟨.pos, 6100620000⟩) ∧
    ran { cmd 0x0C#8 with text := encodeText (txt ['-', '4', '2']) } = some (0x00#8, .word ⟨.neg, 42⟩) ∧
    ran (cmd 0x6C#8) = some (0x0F#8, .refused .reservedForm) := by decide +kernel
/-- V7 mnemonic [G1]. -/
theorem test_fmtw_mnemonic :
    ran { cmd 0x2D#8 with word := 0x1_2401000200#41 } = some (0x00#8,
      .text (txt ['S', 'T', 'D', ' ', '0', '1', '0', '0', ' ', '0', '2', '0', '0', '-'])) ∧
    ran { cmd 0x2D#8 with word := 0x0_0512340000#41 } = some (0x00#8,
      .text (txt ['u', 'n', 'k', 'n', 'o', 'w', 'n', ' ', 'o', 'p', 'c', 'o', 'd', 'e', ' ', '0', '5', ' ', '1', '2',
        '3', '4', ' ', '0', '0', '0', '0', '+'])) := by decide +kernel
/-- V7 character [G2]. -/
theorem test_fmtw_other :
    ran { cmd 0x4D#8 with word := 0x1_6912345678#41 } = some (0x00#8, .text (txt ['I', '~', '~', '~', 'Q'])) ∧
    ran { cmd 0x4D#8 with word := 0x0_6100000001#41 } = some (0x00#8, .text (txt ['A', ' ', ' ', ' ', '~'])) ∧
    ran { cmd 0x0D#8 with word := 0x1_0000000000#41 }
      = some (0x00#8, .text (txt ['0', '0', '0', '0', '0', '0', '0', '0', '0', '0', '-'])) ∧
    ran (cmd 0x6D#8) = some (0x0F#8, .refused .reservedForm) := by decide +kernel

/-- A row that begins with the given cells; the rest is blank. -/
def row (cells : List Cell) : Row := Vector.ofFn fun k => cells.getD k.val 0#16

/-- The first cells of `C0007` in the reference table [G3], of `OK` and the mask of rows 8 and 9, of `ab?!~`. -/
def rowC : Row := row [0x840#16, 0x200#16, 0x200#16, 0x200#16, 0x004#16]
def rowBad : Row := row [0x410#16, 0x420#16, 0#16, 0#16, 0#16, 0x003#16]
def rowP : Row := row [0xB00#16, 0xA80#16, 0xA00#16, 0x600#16, 0x700#16]
def rowOne : Row := row [0x100#16]
def rowTwo : Row := row [0x080#16]

/-- A block with `n` cards of one row each stored in Raw mode, after a LOAD. -/
def holding (rows : List Row) : State :=
  { State.reset with
      deck := Memory.writeCells [] 0 (rows.flatMap (·.toList)), count := BitVec.ofNat 14 rows.length,
      phase := .loaded, idx := BitVec.ofNat 14 rows.length }

/-- V11 and P6 step 8: DRESET empties the store; the first SAVE(E, 0, 0) after reset creates an empty E. -/
theorem test_dreset :
    (let t := after (exec .dreset (holding [rowC]))
     t.count = 0#14 ∧ t.idx = 0#14 ∧ t.phase = .empty ∧ t.mode = .raw ∧ t.status = 0x00#8 ∧ t.readCard 0 = none) ∧
    (let t := after (exec (.save [ch 'E'] 0 0) State.reset)
     t.collab.files = [([ch 'E'], [])] ∧ t.cnt = [0#14] ∧ t.phase = .empty) := by decide +kernel
/-- P6 steps 1 and 6: LOAD in Raw mode appends. -/
theorem test_load_raw :
    let t := after (exec (.load [ch 'S'] .raw) { holding [rowOne] with
      collab := { Collab.initial with files := [([ch 'S'], [rowC])] } })
    t.count = 2#14 ∧ t.idx = 2#14 ∧ t.phase = .loaded ∧ t.mode = .raw ∧ t.status = 0x00#8 ∧ t.cnt = [1#14] ∧
    t.readCell 0 0 = some 0x100#16 ∧ t.readCell 1 0 = some 0x840#16 ∧ t.readCell 1 4 = some 0x004#16 ∧
    t.readCell 1 79 = some 0#16 ∧ t.readCell 2 0 = none ∧ t.openHandles = [] ∧ t.collab.trace.length = 4 := by
  decide +kernel
/-- P6 step 11 and P4 step 2 [G3]: characters are stored; a bad column aborts. -/
theorem test_load_translated :
    (let t := after (step (given [([ch 'A'], [rowC])] (.command { cmd 0x31#8 with source := portA })))
     t.count = 1#14 ∧ t.mode = .translated ∧ t.status = 0x00#8 ∧ t.readCell 0 0 = some 67#16 ∧
     t.readCell 0 4 = some 55#16 ∧ t.readCell 0 79 = some 32#16) ∧
    (let t := after (step (given [([ch 'A'], [rowC, rowBad])] (.command { cmd 0x31#8 with source := portA })))
     t.count = 0#14 ∧ t.mode = .raw ∧ t.phase = .empty ∧ t.status = 0x08#8 ∧ t.errIdx = 1#14 ∧
     t.errName = [ch 'A'] ∧ t.out = .failed (.invalidPunch 0x003#16 (some 5)) ∧ t.openHandles = []) := by
  decide +kernel
/-- The first cell of every row of a file. -/
def firstCells (c : Collab) (name : Text) : Option (List Cell) := (c.fileOf name).map (·.map fun r => r[0])

/-- P6 steps 2 and 3 in small. -/
theorem test_save :
    (let t := after (exec (.save [ch 'O'] 1 1) (holding [rowOne, rowC]))
     firstCells t.collab [ch 'O'] = some [0x840#16] ∧ t.cnt = [1#14] ∧ t.idx = 1#14 ∧ t.count = 2#14 ∧
     t.phase = .loaded ∧ t.status = 0x00#8 ∧ t.openHandles = []) ∧
    (let t := after (exec (.save [ch 'O'] 1 2) (holding [rowOne, rowC]))
     t.collab.files = [] ∧ t.status = 0x06#8 ∧ t.errName = [ch 'O'] ∧ t.count = 2#14 ∧ t.collab.trace = []) := by
  decide +kernel
/-- P2 steps 2 and 3 in small: the tail count, and the source named as a destination. -/
theorem test_split :
    let t := after (step (given [([ch 'A'], [rowOne, rowTwo])] (.command { cmd 0x13#8 with
      tail := 1#1, splitCount := 1#32, source := portA, dest1 := portA, dest2 := portB })))
    firstCells t.collab [ch 'A'] = some [0x100#16] ∧ firstCells t.collab [ch 'B'] = some [0x080#16] ∧
    t.cnt = [1#14, 1#14] ∧ t.phase = .empty ∧ t.count = 0#14 ∧ t.status = 0x00#8 ∧
    t.collab.trace.getLast? = some (.message .split [1, 1], true) ∧ t.collab.trace.length = 12 := by decide +kernel
/-- P3 step 1 in small, and step 3: the destination stays where a source is missing; with no source the store is
reset (43_deckstore.md R126, 60_exceptions.md R158). -/
theorem test_join :
    (let t := after (step (given [([ch 'A'], [rowOne]), ([ch 'B'], [rowTwo])] (.command { cmd 0x14#8 with
       sources := [portA, portB], dest1 := portA })))
     firstCells t.collab [ch 'A'] = some [0x100#16, 0x080#16] ∧ firstCells t.collab [ch 'B'] = some [0x080#16] ∧
     t.cnt = [2#14, 1#14, 1#14] ∧ t.status = 0x00#8 ∧
     t.collab.trace.getLast? = some (.message .join [1, 1, 2], true)) ∧
    (let t := after (step (given [([ch 'A'], [rowOne])] (.command { cmd 0x14#8 with
       sources := [portA, portB], dest1 := portA })))
     firstCells t.collab [ch 'A'] = some [0x100#16] ∧ t.status = 0x37#8 ∧ t.errName = [ch 'B'] ∧
     t.phase = .empty) ∧
    (let t := after (exec (.join [] [ch 'B'] false) (holding [rowC]))
     t.status = 0x01#8 ∧ t.count = 0#14 ∧ t.phase = .empty ∧ t.collab.trace = []) := by decide +kernel
/-- P4 step 1 in small [G2] [G3]: the secondary sink receives the line with LINE_TERM. -/
theorem test_print :
    let t := after (step (given [([ch 'A'], [rowP])] (.command { cmd 0x15#8 with
      source := portA, sink2 := 1#1 })))
    t.collab.trace.drop 4 = [(.console (txt ['A', 'B', '0', '0']), true),
      (.sink2 (txt ['A', 'B', '0', '0'] ++ [10#7]), true), (.message .print [1], true)] ∧
    t.cnt = [1#14] ∧ t.mode = .raw ∧ t.count = 0#14 ∧ t.status = 0x00#8 := by decide +kernel
/-- Target words: a translation, whatever the sign [G1]; data with no entry too. -/
theorem test_target :
    shown (step (given [] (.target 0x1_6912345678#41)))
      = some (0x00#8, .translated ⟨.known (txt ['L', 'D']), 69, 1234, 5678⟩ true) ∧
    shown (step (given [] (.target 0x0_2000010002#41)))
      = some (0x00#8, .translated ⟨.known (txt ['S', 'T', 'L']), 20, 1, 2⟩ false) ∧
    shown (step (given [] (.target 0x0_0512340000#41)))
      = some (0x00#8, .translated ⟨.unknown 5, 5, 1234, 0⟩ false) := by decide +kernel
/-- V9. -/
theorem test_command_lines :
    decodeLine (txt ['-', 'Q', ' ', 'S', 'P', 'L', 'I', 'T', ' ', '-', '4', '0', ' ', 'S', ' ', 'D', ' ', 'E']) false
      = .ok (.split true 40 [ch 'S'] [ch 'D'] [ch 'E'] true) ∧
    decodeLine (txt ['J', 'O', 'I', 'N', ' ', 'A', ' ', 'A', 'S', ' ', 'B', ' ', 'A', 'S', ' ', 'C']) false
      = .ok (.join [[ch 'A'], txt ['A', 'S'], [ch 'B']] [ch 'C'] false) ∧
    decodeLine (txt ['J', 'O', 'I', 'N', ' ', 'A', 'S', ' ', 'C']) false = .error .malformedLine ∧
    decodeLine (txt ['P', 'R', 'I', 'N', 'T', ' ', 'D']) true = .ok (.print [ch 'D'] false true) ∧
    decodeLine (txt ['S', 'P', 'L', 'I', 'T', ' ', '+', '5', ' ', 'S', ' ', 'A', ' ', 'B']) false
      = .error .malformedLine ∧
    decodeLine (txt ['-', 'Q']) false = .error .malformedLine := by
  refine ⟨rfl, rfl, rfl, rfl, rfl, rfl⟩
/-- V10: refusals of the command byte and of a nibble; a malformed line. -/
theorem test_presented :
    ran (cmd 0x0E#8) = some (0x0F#8, .refused (.presented (.reservedOpSel 14))) ∧
    ran (cmd 0x20#8) = some (0x0F#8, .refused (.presented .unusedBits)) ∧
    ran { cmd 0x02#8 with word := 0x0_A000000000#41 } = some (0x0F#8, .refused (.presented .badNibble)) ∧
    (let t := after (step (given [] (.line (txt ['-', 'Q']) false)))
     t.status = 0x01#8 ∧ t.exit = .arg) := by decide +kernel

/-! ### Witnesses: the hypotheses of each obligation, met together -/

/-- Two texts of table names, a small word, and a state with a file. -/
def nameA : Text := [ch 'A']
def nameB : Text := [ch 'B']
def nameC : Text := [ch 'C']
def sample : Word := ⟨.neg, 6912345678⟩

/-- The block after reset with files outside. -/
def withFiles (files : List (Text × List Row)) : State :=
  { State.reset with collab := { Collab.initial with files := files } }

/-- The block with requests presented. -/
def presenting (rs : List Request) : State := { State.reset with pending := rs }

theorem reset_config_ok : configOk State.reset.config = true := test_candidate_ok

theorem witness_StepRunsDecodedInstruction :
    (presenting [.command (cmd 0x10#8), .reset]).pending = .command (cmd 0x10#8) :: [.reset] ∧
    decode (.command (cmd 0x10#8)) = .ok .dreset ∧
    (presenting [.target 0x1_6912345678#41]).pending = .target 0x1_6912345678#41 :: [] ∧
    decode (.target 0x1_6912345678#41) = .ok (.ld .neg 1234 5678) ∧
    (presenting [.line (txt ['P', 'R', 'I', 'N', 'T', ' ', 'A']) false]).pending
      = .line (txt ['P', 'R', 'I', 'N', 'T', ' ', 'A']) false :: [] ∧
    decode (.line (txt ['P', 'R', 'I', 'N', 'T', ' ', 'A']) false) = .ok (.print nameA false false) ∧
    exec (.print nameA false false) State.reset = .next (after (exec (.print nameA false false) State.reset)) := by
  refine ⟨rfl, rfl, rfl, ?_, rfl, rfl, next_after _ (by decide +kernel)⟩
  exact decodeTarget_encodeTarget 69 .neg 1234 5678 (by decide) (by decide) _ rfl

theorem witness_DecodeEncodeRoundTrip :
    (Instr.extract ⟨.neg, 9999999999⟩ (-16)).wellFormed = true ∧ (Instr.pack 4294967295 0 0 .neg).wellFormed = true ∧
    (Instr.digzone 15 .notAZone).wellFormed = true ∧ (Instr.code2ch 127).wellFormed = true ∧
    (Instr.parse (List.replicate 80 127#7)).wellFormed = true ∧ (Instr.fmtw ⟨.pos, 0⟩ .reserved).wellFormed = true ∧
    (Instr.save [] 16383 16383).wellFormed = true ∧
    (Instr.split true 4294967295 nameA nameB nameC true).wellFormed = true ∧
    (Instr.join [] nameA false).wellFormed = true ∧ (Instr.brd9 .neg 9999 9999).wellFormed = true := by decide

theorem witness_ReservedCommandsRefused :
    (presenting [.command (cmd 0x0E#8)]).pending = .command (cmd 0x0E#8) :: [] ∧
    opSel 0x0E#8 = 0x0E ∧ opSel 0x0F#8 = 0x0F ∧ 0x16 ≤ opSel 0x16#8 ∧ 0x16 ≤ opSel 0xFF#8 ∧
    (opSel 0x2B#8 ≤ 0x0B ∧ modeBits 0x2B#8 ≠ 0) ∧ (opSel 0x92#8 = 0x12 ∧ quietBit 0x92#8 = true) ∧
    (opSel 0x8C#8 = 0x0C ∧ quietBit 0x8C#8 = true) ∧ (opSel 0x51#8 = 0x11 ∧ 2 ≤ modeBits 0x51#8) ∧
    (opSel 0x91#8 = 0x11 ∧ quietBit 0x91#8 = true) ∧ (opSel 0x35#8 = 0x15 ∧ modeBits 0x35#8 ≠ 0) := by decide

theorem witness_BadNibbleRefused :
    (0 < 10 ∧ 10 ≤ (0x0_000000000A#41).toNat / 16 ^ 0 % 16) ∧
    (9 < 10 ∧ 10 ≤ (0x1_F000000000#41).toNat / 16 ^ 9 % 16) ∧
    (let p : InPorts := { cmd 0x0D#8 with word := 0x1_F000000000#41 }
     p.word = 0x1_F000000000#41 ∧ p.cmd = 0x0D#8 ∧ (presenting [.command p]).pending = .command p :: []) ∧
    (let p : InPorts := { cmd 0x4D#8 with word := 0x1_F000000000#41 }
     p.word = 0x1_F000000000#41 ∧ p.cmd = 0x4D#8 ∧ (presenting [.command p]).pending = .command p :: []) ∧
    (presenting [.target 0x1_F000000000#41]).pending = .target 0x1_F000000000#41 :: [] := by decide

theorem witness_StepTakesOneRequest :
    step (presenting [.reset]) = .next (after (step (presenting [.reset]))) ∧ State.reset.pending = [] :=
  ⟨rfl, rfl⟩

theorem witness_ExtractPeelsDigits :
    (⟨.neg, 9999999999⟩ : Word).WellFormed ∧ (⟨.neg, 0⟩ : Word).WellFormed ∧ (1 ≤ 1 ∧ 1 ≤ 9) ∧ (1 ≤ 9 ∧ 9 ≤ 9) ∧
    ((10 : Int) < -9 ∨ 9 < (10 : Int)) ∧ ((-10 : Int) < -9 ∨ 9 < (-10 : Int)) := by decide

theorem witness_FormatRendersDigits : (⟨.neg, 9999999999⟩ : Word).WellFormed ∧ 0 < 10 ∧ 9 < 10 := by decide

theorem witness_FormatParseRoundTrip :
    sample.WellFormed ∧
    exec (.parse (txt ['-', '4', '2'])) State.reset = .next (State.reset.withResult (.word ⟨.neg, 42⟩)) ∧
    exec (.format ⟨.neg, 42⟩) State.reset = .next (State.reset.withResult (.text (formatSigned ⟨.neg, 42⟩))) :=
  ⟨by decide, rfl, rfl⟩

theorem endsScan_x (P : Prop) : endsScan P (txt ['x']) :=
  ⟨by decide, by decide, by decide, fun h => absurd h (by decide)⟩

/-- A digit may follow where the fields before it are full. -/
theorem endsScan_digit {P : Prop} (h : P) : endsScan P (txt ['2']) :=
  ⟨by decide, by decide, by decide, fun _ => h⟩

theorem witness_ParseReadsSignedDecimal :
    ((∀ x ∈ txt ['1', '2'], isDigitChar x = true) ∧ endsScan (txt ['1', '2'] ≠ [] ∧ 0 < 0) (txt ['x']) ∧
      endsScan (txt ['1', '2'] ≠ [] ∧ 0 < 0) []) ∧
    endsScan (txt ['1'] ≠ [] ∧ 0 < 1) (txt ['2']) ∧
    (([] : Text) = [] → (some Sign.neg : Option Sign) = none → (some Sign.pos : Option Sign) = none) ∧
    (txt ['1'] = [] → (none : Option Sign) = none → (some Sign.neg : Option Sign) = none) ∧
    ((some Sign.neg : Option Sign) = none → endsScan False (txt ['+'])) := by
  refine ⟨⟨by decide, endsScan_x _, trivial⟩, endsScan_digit ⟨by decide, by decide⟩, by simp, by decide, by simp⟩

theorem witness_FieldPeelLaw : (99 ≤ 99 ∧ 9999 ≤ 9999 ∧ 0 ≤ 9999) ∧ (0 ≤ 99 ∧ 99 ≤ 99) := by decide

theorem witness_CharCodeIsLeast :
    (97 ≤ (ch 'a').toNat ∧ (ch 'a').toNat ≤ 122) ∧ (97 ≤ (ch 'z').toNat ∧ (ch 'z').toNat ≤ 122) ∧
    ¬ (97 ≤ (96#7 : Ch).toNat ∧ (96#7 : Ch).toNat ≤ 122) ∧ ¬ (97 ≤ (123#7 : Ch).toNat ∧ (123#7 : Ch).toNat ≤ 122) ∧
    (ch 'a' - 32#7 ≠ 126#7 ∧ ∃ j, j < 100 ∧ codeAt State.reset.config j = ch 'a' - 32#7) ∧
    ¬ (ch '~' ≠ 126#7 ∧ ∃ j, j < 100 ∧ codeAt State.reset.config j = ch '~') :=
  ⟨by decide, by decide, by decide, by decide, ⟨by decide, 61, by decide, by decide +kernel⟩,
    fun h => absurd h.1 (by decide)⟩

theorem witness_CodeToCharReadsTable : 0 < 100 ∧ 99 < 100 ∧ 100 ≤ 100 ∧ 100 ≤ 127 := by decide

theorem witness_CodeMappingLossyOneWay :
    configOk State.reset.config = true ∧ inRepertoire State.reset.config (fold (ch 'z')) = true ∧
    (1 < 100 ∧ 1 ≠ 0 ∧ codeAt State.reset.config 1 = placeholder) ∧
    (30 < 49 ∧ 49 < 100 ∧ codeAt State.reset.config 30 = codeAt State.reset.config 49 ∧
      codeAt State.reset.config 49 ≠ placeholder ∧
      ∀ i, i < 30 → codeAt State.reset.config i ≠ codeAt State.reset.config 49) :=
  ⟨reset_config_ok, by decide +kernel, by decide +kernel, by decide +kernel⟩

theorem witness_CharToPunchReadsTable :
    configOk State.reset.config = true ∧ (31#7).toNat < 32 ∧ 9 ≤ 9 ∧ (57#7 : Ch) = BitVec.ofNat 7 (48 + 9) ∧
    isPrintable 32#7 = true ∧ isPrintable 126#7 = true :=
  ⟨reset_config_ok, by decide, by decide, by decide, by decide, by decide⟩

theorem witness_PunchToCharDecodes :
    configOk State.reset.config = true ∧
    (isPrintable (ch 'A') = true ∧ holAt State.reset.config (ch 'A') = 0x900#16) ∧
    (∀ x : Ch, isPrintable x = true → holAt State.reset.config x ≠ 0x003#16) ∧
    (0x1900#16 : Cell) &&& 0xF000#16 ≠ 0#16 :=
  ⟨reset_config_ok, by decide +kernel, by decide +kernel, by decide⟩

theorem witness_PunchBijection :
    configOk State.reset.config = true ∧ isPrintable 32#7 = true ∧ isPrintable 126#7 = true ∧
    exec (.punch2ch 0x900#16) State.reset = .next (State.reset.withResult (.char (ch 'A'))) ∧
    ((0#7).toNat < 32 ∨ 0#7 = 127#7) :=
  ⟨reset_config_ok, by decide, by decide, by
    have h : punchToChar State.reset.config 0x900#16 = some (ch 'A') := by decide +kernel
    simp only [exec, execPunch2ch, h]; rfl, by decide⟩

theorem witness_DigitZoneGlyphs :
    configOk State.reset.config = true ∧ 0 ≤ 9 ∧ 9 ≤ 9 ∧ (0 : Fin 10) ≠ 9 ∧
    (9 < 10 ∨ Zone.none = .notAZone) ∧ (9 < 0 ∨ Zone.notAZone = .notAZone) :=
  ⟨reset_config_ok, by decide, by decide, by decide, by decide, by decide⟩

theorem witness_OverprintMasks : configOk State.reset.config = true ∧ 0 ≤ 9 ∧ 9 ≤ 9 :=
  ⟨reset_config_ok, by decide, by decide⟩

/-- The table entry of LD. -/
def entryLd : MnemonicEntry := ⟨69, [ch 'L', ch 'D'], true⟩

theorem witness_DisassembleGivesFields :
    configOk State.reset.config = true ∧ sample.WellFormed ∧
    (entryLd ∈ State.reset.config.mnemonics ∧ entryLd.opcode = sample.mag / 10 ^ 8) ∧
    (∀ e ∈ State.reset.config.mnemonics, e.opcode ≠ (⟨.pos, 512340000⟩ : Word).mag / 10 ^ 8) :=
  ⟨reset_config_ok, by decide, by decide +kernel, by decide +kernel⟩

theorem witness_AssembleByMnemonic :
    configOk State.reset.config = true ∧ entryLd ∈ State.reset.config.mnemonics ∧
    (∀ e ∈ State.reset.config.mnemonics, e.mnemonic ≠ txt ['r', 'a', 'l']) ∧
    (∀ e ∈ State.reset.config.mnemonics, e.mnemonic ≠ []) :=
  ⟨reset_config_ok, by decide +kernel, by decide +kernel, by decide +kernel⟩

theorem witness_AssembleDisassembleRoundTrip :
    configOk State.reset.config = true ∧ entryLd ∈ State.reset.config.mnemonics ∧ 9999 ≤ 9999 :=
  ⟨reset_config_ok, by decide +kernel, by decide⟩

theorem witness_ReadsOperandByTable :
    configOk State.reset.config = true ∧ entryLd ∈ State.reset.config.mnemonics ∧
    (5 < 100 ∧ ∀ e ∈ State.reset.config.mnemonics, e.opcode ≠ 5) ∧ 100 ≤ 100 :=
  ⟨reset_config_ok, by decide +kernel, by decide +kernel, by decide⟩

theorem witness_MnemonicFormRoundTrip :
    configOk State.reset.config = true ∧ sample.WellFormed ∧ entryLd ∈ State.reset.config.mnemonics ∧
    entryLd.opcode = sample.mag / 10 ^ 8 :=
  ⟨reset_config_ok, by decide, by decide +kernel, by decide⟩

theorem witness_UnknownOpcodeListing :
    configOk State.reset.config = true ∧ (⟨.neg, 512340000⟩ : Word).WellFormed ∧
    (∀ e ∈ State.reset.config.mnemonics, e.opcode ≠ (⟨.neg, 512340000⟩ : Word).mag / 10 ^ 8) :=
  ⟨reset_config_ok, by decide, by decide +kernel⟩

theorem witness_MnemonicTextAssembles :
    configOk State.reset.config = true ∧ entryLd ∈ State.reset.config.mnemonics ∧
    (∀ x ∈ txt ['1', '2'], isDigitChar x = true) ∧ (txt ['1'] ≠ [] → txt ['2'] ≠ [] ∧ 0 < 1) ∧
    (endsScan (([] : Text) ≠ [] ∧ 0 < 0) (txt ['x']) ∧ (1 = 0 → 0 = 0 → 0 = 0 → scanName (txt ['x']) = [])) ∧
    (endsScan (([] : Text) ≠ [] ∧ 0 < 0) [] ∧ scanName [] = []) ∧
    endsScan (txt ['1'] ≠ [] ∧ 0 < 1) (txt ['2']) ∧
    (∀ x ∈ txt ['r', 'a', 'l'], isLetterOrDigit x = true) ∧ (∀ x ∈ (txt [' ', '1']).head?, isLetterOrDigit x = false) ∧
    (∀ e ∈ State.reset.config.mnemonics, e.mnemonic ≠ txt ['r', 'a', 'l']) ∧
    (∀ e ∈ State.reset.config.mnemonics, e.mnemonic ≠ []) ∧
    (∀ x ∈ (txt ['.']).head?, isLetterOrDigit x = false ∧ x ≠ space ∧
      ((none : Option Sign) = none → x ≠ plusCh ∧ x ≠ minusCh)) ∧
    (∀ x ∈ (txt ['-']).head?, isLetterOrDigit x = false ∧ x ≠ space ∧
      (some Sign.pos = none → x ≠ plusCh ∧ x ≠ minusCh)) := by
  refine ⟨reset_config_ok, by decide +kernel, by decide, by decide, ⟨endsScan_x _, by simp⟩, ⟨trivial, rfl⟩,
    endsScan_digit ⟨by decide, by decide⟩, by decide, by decide, by decide +kernel, by decide +kernel, by decide, by decide⟩

theorem witness_CharacterTextPacks :
    (0 < 5 ∧ (txt ['a'])[0]? = some (ch 'a')) ∧ (4 < 5 ∧ (txt ['a'])[4]? = none) := by decide

theorem witness_CharacterFormRoundTrip :
    configOk State.reset.config = true ∧ (txt ['a', '-', '1', '.', 'Z']).length ≤ 5 ∧
    (∀ x ∈ txt ['a', '-', '1', '.', 'Z'], inRepertoire State.reset.config (fold x) = true) ∧ sample.WellFormed ∧
    (1 < 5 ∧ codeAt State.reset.config (sample.mag / 100 ^ 1 % 100) = placeholder) ∧
    (let w : Word := ⟨.neg, 6865737376⟩
     ∀ i, i < 5 → codeAt State.reset.config (w.mag / 100 ^ i % 100) ≠ placeholder ∧
      ∀ j, j < w.mag / 100 ^ i % 100 → codeAt State.reset.config j ≠ codeAt State.reset.config (w.mag / 100 ^ i % 100)) :=
  ⟨reset_config_ok, by decide, by decide +kernel, by decide, by decide +kernel, by decide +kernel⟩

theorem witness_TargetWordsTranslated : 0 < 10000 ∧ 9999 < 10000 := by decide

theorem witness_EveryTargetWordTranslates :
    (⟨.neg, 9999999999⟩ : Word).WellFormed ∧
    (presenting [.target (encodeWord ⟨.neg, 9999999999⟩)]).pending = .target (encodeWord ⟨.neg, 9999999999⟩) :: [] :=
  ⟨by decide, rfl⟩

theorem witness_StoredCardReadsBack :
    State.reset.count.toNat < deckCapacity ∧ { State.reset with count := 9999#14 }.count.toNat < deckCapacity := by
  decide

theorem witness_LoadRawStoresRows :
    (let s := withFiles [(nameA, [rowC, rowP])]
     s.openHandles = [] ∧ s.phase = .empty ∧ s.collab.script = [] ∧ s.collab.fileOf nameA = some [rowC, rowP] ∧
     s.count.toNat + [rowC, rowP].length ≤ 10000) ∧
    (let s := { withFiles [(nameA, [rowC, rowP])] with count := 9998#14, phase := .loaded }
     s.openHandles = [] ∧ s.mode = .raw ∧ s.collab.script = [] ∧ s.collab.fileOf nameA = some [rowC, rowP] ∧
     s.count.toNat + [rowC, rowP].length ≤ 10000) := by decide +kernel

/-- The characters of `C0007` and blanks. -/
def charsC : Vector Ch 80 := Vector.ofFn fun k => (txt ['C', '0', '0', '0', '7']).getD k.val space

theorem rowC_translates : translatesTo candidateConfig rowC charsC := by
  show ∀ c : Fin 80, punchToChar candidateConfig rowC[c] = some charsC[c]
  decide +kernel

theorem rowC_texts : ∀ (j : Nat) (r : Row) (x : Vector Ch 80), [rowC][j]? = some r → [charsC][j]? = some x →
    translatesTo State.reset.config r x := by
  intro j r x hr hx
  cases j with
  | zero => simp only [List.getElem?_cons_zero, Option.some.injEq] at hr hx; rw [← hr, ← hx]; exact rowC_translates
  | succ j => simp at hr

theorem witness_LoadTranslatedStoresCharacters :
    (let s := withFiles [(nameA, [rowC])]
     s.openHandles = [] ∧ s.phase = .empty ∧ s.collab.script = [] ∧ s.collab.fileOf nameA = some [rowC] ∧
     s.count.toNat + [rowC].length ≤ 10000 ∧ [rowC].length = [charsC].length) ∧
    (∀ (j : Nat) (r : Row) (x : Vector Ch 80), [rowC][j]? = some r → [charsC][j]? = some x →
      translatesTo State.reset.config r x) :=
  ⟨by decide +kernel, rowC_texts⟩

/-- Sources A, B, C of 1, 10000 and 10001 rows. -/
def overfull : State := withFiles [(nameA, [rowC]), (nameB, List.replicate 10000 rowC), (nameC, List.replicate 10001 rowC)]

theorem rowC_printable : ∀ k : Fin 80, (punchToChar State.reset.config rowC[k]).isSome = true := by
  intro k; rw [show punchToChar State.reset.config rowC[k] = some charsC[k] from rowC_translates k]; rfl

theorem witness_DeckCapacityBoundary :
    (let s := { withFiles [(nameA, [rowC]), (nameB, [rowC, rowP])] with count := 9999#14, phase := .loaded }
     s.openHandles = [] ∧ s.mode = .raw ∧ s.count.toNat ≤ 10000 ∧ s.collab.script = [] ∧
     (s.collab.fileOf nameA = some [rowC] ∧ s.count.toNat + [rowC].length ≤ 10000) ∧
     (s.collab.fileOf nameB = some [rowC, rowP] ∧ 10000 < s.count.toNat + [rowC, rowP].length)) ∧
    (overfull.openHandles = [] ∧ nameA ≠ nameB ∧ overfull.collab.script = [] ∧
      overfull.collab.fileOf nameC = some (List.replicate 10001 rowC) ∧ 10000 < (List.replicate 10001 rowC).length) ∧
    ([nameA].map overfull.collab.fileOf = [[rowC]].map some ∧
      overfull.collab.fileOf nameB = some (List.replicate 10000 rowC) ∧ [[rowC]].flatten.length ≤ 10000 ∧
      10000 < [[rowC]].flatten.length + (List.replicate 10000 rowC).length) ∧
    (∀ r ∈ (List.replicate 10001 rowC).take 10000, ∀ k : Fin 80,
      (punchToChar overfull.config r[k]).isSome = true) := by
  refine ⟨by decide +kernel, ⟨rfl, by decide, rfl, rfl, by rw [List.length_replicate]; omega⟩, ⟨rfl, rfl, by decide, ?_⟩, ?_⟩
  · rw [List.length_replicate]; decide
  · intro r hr
    rw [List.eq_of_mem_replicate (List.mem_of_mem_take hr)]
    exact rowC_printable

theorem witness_LoadInvalidPunchAborts :
    let s := withFiles [(nameA, [rowC, rowBad, rowP])]
    s.openHandles = [] ∧ s.phase = .empty ∧ s.collab.script = [] ∧
    s.collab.fileOf nameA = some ([rowC] ++ rowBad :: [rowP]) ∧ s.count.toNat + [rowC].length < 10000 ∧
    (∀ r ∈ [rowC], ∀ j : Fin 80, (punchToChar s.config r[j]).isSome = true) ∧
    (∀ j : Fin 80, j < 5 → (punchToChar s.config rowBad[j]).isSome = true) ∧
    punchToChar s.config rowBad[(5 : Fin 80)] = none := by
  refine ⟨rfl, rfl, rfl, by decide +kernel, by decide, ?_, by decide +kernel, by decide +kernel⟩
  simp only [List.mem_singleton, forall_eq]; decide +kernel

/-- The block with the answers of the coming collaborator calls. -/
def answering (files : List (Text × List Row)) (script : List Reply) : State :=
  { State.reset with collab := { Collab.initial with files := files, script := script } }

theorem witness_LoadOpenErrorAborts :
    let s := answering [] [.error (.other 9)]
    s.openHandles = [] ∧ (s.phase = .loaded → Mode.translated = s.mode) ∧
    s.collab.script = .error (.other 9) :: [] := by decide +kernel

theorem witness_LoadReadErrorAborts :
    (let s := answering [(nameA, [rowC, rowP])] [.usual, .usual, .error .nxdev, .error .nxdev]
     s.openHandles = [] ∧ s.phase = .empty ∧
     s.collab.script = List.replicate (1 + 1) .usual ++ .error .nxdev :: [.error .nxdev] ∧
     [Reply.error .nxdev].head? ≠ some .silent ∧ s.collab.fileOf nameA = some [rowC, rowP] ∧
     1 ≤ [rowC, rowP].length ∧ s.count.toNat + 1 ≤ 10000) ∧
    (let s := { answering [(nameA, [rowC])] [.usual, .usual, .error .nxdev] with count := 9999#14 }
     s.openHandles = [] ∧ s.mode = .raw ∧
     s.collab.script = List.replicate (1 + 1) .usual ++ .error .nxdev :: [] ∧
     ([] : List Reply).head? ≠ some .silent ∧ s.collab.fileOf nameA = some [rowC] ∧
     1 ≤ [rowC].length ∧ s.count.toNat + 1 ≤ 10000) := by decide +kernel

theorem witness_DeckRefusals :
    ((holding [rowC]).phase = .loaded ∧ Mode.translated ≠ (holding [rowC]).mode) ∧
    (let s := { holding [rowC] with mode := .translated }
     s.count ≠ 0#14 ∧ s.mode = .translated) := by decide

theorem populated_one (s : State) (hd : s.deck = Memory.writeCells [] 0 ([rowC].flatMap (·.toList)))
    (hc : s.count = 1#14) : s.Populated := by
  intro card col h1 h2
  rw [hc] at h1
  obtain rfl : card = 0 := by simpa using h1
  rw [hd]
  have key : ∀ col : Fin 80,
      (Memory.read (Memory.writeCells [] 0 ([rowC].flatMap (·.toList))) (cellAddr 0 col.val)).isSome
        = true := by decide +kernel
  exact key ⟨col, h2⟩

theorem holding_populated : (holding [rowC]).Populated :=
  populated_one _ (by simp only [holding]) (by decide +kernel)

theorem witness_SaveWritesRange :
    (holding [rowC]).openHandles = [] ∧ (holding [rowC]).Populated ∧ (holding [rowC]).count.toNat ≤ 10000 ∧
    (holding [rowC]).mode = .raw ∧ (holding [rowC]).collab.script = [] ∧ 0 + 1 ≤ (holding [rowC]).count.toNat ∧
    1 + 0 ≤ (holding [rowC]).count.toNat :=
  ⟨rfl, holding_populated, by decide, rfl, rfl, by decide, by decide⟩

theorem witness_SaveOutOfRangeKeepsBuffer :
    (holding [rowC]).openHandles = [] ∧ (holding [rowC]).mode = .raw ∧
    (holding [rowC]).count.toNat < 1 + 1 ∧ State.reset.count.toNat < 0 + 1 := by decide +kernel

theorem witness_SaveWriteErrorKeepsPartialOutput :
    let s := (holding [rowC]).setCollab { Collab.initial with script := [.usual, .error .nxun, .usual] }
    s.openHandles = [] ∧ s.Populated ∧ s.count.toNat ≤ 10000 ∧ s.mode = .raw ∧
    s.collab.script = List.replicate (1 + 0) .usual ++ .error .nxun :: [.usual] ∧
    [Reply.usual].head? ≠ some .silent ∧ 0 + 1 ≤ s.count.toNat ∧ 0 < 1 :=
  ⟨rfl, populated_one _ (by simp only [State.setCollab, holding]) (by decide +kernel), by decide, rfl, rfl,
    by decide, by decide, by decide⟩

theorem witness_SplitPartitionsDeck :
    let s := withFiles [(nameA, [rowC, rowP])]
    s.openHandles = [] ∧ nameA ≠ nameB ∧ s.collab.script = [] ∧ s.collab.fileOf nameA = some [rowC, rowP] ∧
    [rowC, rowP].length ≤ 10000 := by decide +kernel

theorem witness_JoinConcatenatesDecks :
    let s := withFiles [(nameA, [rowC, rowP]), (nameB, [])]
    s.openHandles = [] ∧ [nameA, nameB, nameA] ≠ [] ∧ s.collab.script = [] ∧
    [nameA, nameB, nameA].map s.collab.fileOf = [[rowC, rowP], [], [rowC, rowP]].map some ∧
    [[rowC, rowP], [], [rowC, rowP]].flatten.length ≤ 10000 := by decide +kernel

theorem witness_PrintEmitsEveryCard :
    (let s := withFiles [(nameA, [rowC])]
     s.openHandles = [] ∧ s.collab.script = [] ∧ s.collab.fileOf nameA = some [rowC] ∧ [rowC].length ≤ 10000 ∧
     [rowC].length = [charsC].length) ∧
    (∀ (j : Nat) (r : Row) (x : Vector Ch 80), [rowC][j]? = some r → [charsC][j]? = some x →
      translatesTo State.reset.config r x) :=
  ⟨by decide +kernel, rowC_texts⟩

theorem witness_PrintRowSanitizes : configOk candidateConfig = true := test_candidate_ok

theorem witness_SilentCollaboratorStops :
    (let s := answering [] [.silent]
     s.collab.script = .silent :: [] ∧ (s.phase = .loaded → Mode.raw = s.mode)) ∧
    (let s := { holding [rowC] with collab := { Collab.initial with script := [.silent] } }
     s.collab.script = .silent :: [] ∧ s.mode = .raw ∧ 0 + 1 ≤ s.count.toNat) := by decide +kernel

theorem witness_ExitStatusMapping :
    ErrorReport.status (.ioError .opening (.other 3)) = 0x47#8 ∧ ErrorReport.status (.ioError .reading .nxun) = 0x57#8 ∧
    ErrorReport.status (.ioError .writing .notatt) = 0x67#8 ∧ ErrorReport.status (.ioError .closing .nxdev) = 0x77#8 ∧
    ErrorReport.status (.invalidPunch 0x003#16 (some 5)) = 0x08#8 := by
  decide

theorem witness_MalformedArgumentOutcome :
    (holding [rowC]).openHandles = [] ∧
    (presenting [.line (txt ['-', 'Q']) false]).pending = .line (txt ['-', 'Q']) false :: [] ∧
    decodeLine (txt ['-', 'Q']) false = .error .malformedLine := ⟨rfl, rfl, rfl⟩

/-- The words of a line, each after a space. -/
def spell (ws : List Text) : Text := ws.flatMap fun w => space :: w

theorem lineOf_spell (ws : List Text) (h : ∀ w ∈ ws, w ≠ [] ∧ ∀ x ∈ w, x ≠ space) : lineOf ws (spell ws) := by
  induction ws with
  | nil => exact ⟨0, rfl⟩
  | cons w ws ih =>
    refine ⟨1, spell ws, rfl, (h w (by simp)).1, (h w (by simp)).2, ?_, ih fun v hv => h v (by simp [hv])⟩
    cases ws with
    | nil => simp [spell]
    | cons v vs => simp [spell]

/-- Words that stand alone in a line. -/
def wordsOk (ws : List Text) : Prop := lineOf ws (spell ws)

theorem witness_CommandLinesDecode :
    (let nines : Text := List.replicate 9 57#7
     1 ≤ nines.length ∧ nines.length ≤ 9 ∧ (∀ x ∈ nines, isDigitChar x = true) ∧
      (∀ n ∈ [nameA, List.replicate 80 66#7, nameC], n.length ≤ 80) ∧
      wordsOk [txt ['-', 'Q'], txt ['S', 'P', 'L', 'I', 'T'], [ch '-'] ++ nines, nameA, List.replicate 80 66#7, nameC]) ∧
    ([nameA, txt ['A', 'S']] ≠ [] ∧ nameC ≠ txt ['A', 'S'] ∧
      wordsOk (txt ['J', 'O', 'I', 'N'] :: ([nameA, txt ['A', 'S']] ++ [txt ['A', 'S'], nameC]))) ∧
    wordsOk [txt ['P', 'R', 'I', 'N', 'T'], nameA] ∧ lineOf [] [] ∧ wordsOk [txt ['-', 'Q']] ∧
    (txt ['p'] ≠ txt ['-', 'Q'] ∧ wordsOk (txt ['p'] :: [nameA]) ∧
      wordsOk ([txt ['-', 'Q']] ++ txt ['-', 'Q'] :: [nameA])) ∧
    wordsOk (txt ['S', 'P', 'L', 'I', 'T'] :: [nameA]) ∧
    ((∀ (tail : Bool) (ds : Text), txt ['+', '5'] = (if tail then [ch '-'] else []) ++ ds → 1 ≤ ds.length → ds.length ≤ 9 →
        ∃ x ∈ ds, isDigitChar x = false) ∧
      wordsOk [txt ['S', 'P', 'L', 'I', 'T'], txt ['+', '5'], nameA, nameB, nameC]) ∧
    ((∀ (sources : List Text) (dest : Text), [txt ['A', 'S'], nameC] = sources ++ [txt ['A', 'S'], dest] →
        sources = [] ∨ dest = txt ['A', 'S']) ∧
      wordsOk (txt ['J', 'O', 'I', 'N'] :: [txt ['A', 'S'], nameC])) ∧
    wordsOk (txt ['P', 'R', 'I', 'N', 'T'] :: []) := by
  refine ⟨⟨by decide, by decide, by decide, by decide, lineOf_spell _ (by decide)⟩,
    ⟨by decide, by decide, lineOf_spell _ (by decide)⟩, lineOf_spell _ (by decide), ⟨0, rfl⟩,
    lineOf_spell _ (by decide), ⟨by decide, lineOf_spell _ (by decide), lineOf_spell _ (by decide)⟩,
    lineOf_spell _ (by decide), ⟨?_, lineOf_spell _ (by decide)⟩, ⟨?_, lineOf_spell _ (by decide)⟩,
    lineOf_spell _ (by decide)⟩
  · intro tail ds h _ _
    cases tail with
    | true => simp [txt] at h; exact absurd h.1 (by decide)
    | false => exact ⟨ch '+', by rw [show ds = txt ['+', '5'] from h.symm]; decide, by decide⟩
  · intro sources dest h
    cases sources with
    | nil => exact .inl rfl
    | cons x xs => have := congrArg List.length h; simp at this

theorem witness_ResetRegisters : (presenting [.reset, .reset]).pending = .reset :: [.reset] := rfl

/-- A block that holds a card, with SAVE(A, 0, 1) presented. -/
def saving : State := presentNext (.command { cmd 0x12#8 with dest1 := portA, count := 1#14 }) (holding [rowC])

theorem saving_inv : saving.Inv where
  countBound := by decide +kernel
  idxBound := by decide +kernel
  deckForm := by decide +kernel
  deckRange := by decide +kernel
  populated := populated_one _ (by simp only [saving, presentNext, holding]) (by decide +kernel)
  cellsFitMode := fun h => by cases h
  handles := rfl
  phaseAtRest := .inr rfl
  emptyStore := fun h => by cases h

theorem witness_StepKeepsInvariant : saving.Inv ∧ step saving = .next (after (step saving)) :=
  ⟨saving_inv, next_after _ (by decide +kernel)⟩

theorem witness_HandlesReleasedOnEveryPath :
    (let s := answering [(nameA, [rowC])] [.usual, .error .nxdev]
     s.openHandles = [] ∧ exec (.load nameA .raw) s = .next (after (exec (.load nameA .raw) s))) :=
  ⟨rfl, next_after _ (by decide +kernel)⟩

theorem witness_SourcesReadBeforeDestinations :
    let s := withFiles [(nameA, [rowC])]
    exec (.split false 1 nameA nameB nameC true) s = .next (after (exec (.split false 1 nameA nameB nameC true) s)) ∧
    ((after (exec (.split false 1 nameA nameB nameC true) s)).collab.trace.drop 4).head?
      = some (.openWrite nameB, true) :=
  ⟨next_after _ (by decide +kernel), by decide +kernel⟩

theorem witness_PureOperationsArePure :
    isDeckOp (.format sample) = false ∧ State.reset.config = (holding [rowC]).config ∧
    exec (.format sample) State.reset = .next (after (exec (.format sample) State.reset)) ∧
    exec (.format sample) (holding [rowC]) = .next (after (exec (.format sample) (holding [rowC]))) :=
  ⟨rfl, rfl, rfl, rfl⟩

theorem witness_StatusKindsWritten :
    (exec (.format sample) State.reset = .next (after (exec (.format sample) State.reset))) ∧
    (exec (.code2ch 100) State.reset = .next (after (exec (.code2ch 100) State.reset)) ∧
      (after (exec (.code2ch 100) State.reset)).status = 0x0F#8) ∧
    (let s := answering [] [.error (.other 1)]
     exec (.load nameA .raw) s = .next (after (exec (.load nameA .raw) s)) ∧
     statusKind (after (exec (.load nameA .raw) s)).status = 7) :=
  ⟨rfl, ⟨rfl, rfl⟩, next_after _ (by decide +kernel), by decide +kernel⟩

end Sys2Proof.Tests
end

section
/-! Pure operations (spec/00_scope.md R8, spec/10_state.md R16, spec/60_exceptions.md R163). Every pure operation
ends in one of the three ways of Machine/Ops.lean, and the tables alone select which, with what result: that is
`EndsPurely`. It is proved once per operation; the frame and the dependence on the tables follow from it. -/

namespace Sys2Proof.Machine

/-- The three ways a pure operation ends (00_scope.md R8, 60_exceptions.md R155, R158). -/
inductive PureEnd where
  | result (out : Port)
  | error (e : ErrorReport)
  | refusal (why : RefuseReason)

/-- What a state answers when an operation ends so: the model's own shared endings. -/
def PureEnd.answer : PureEnd → State → Host.Outcome State Fault Refusal
  | .result out, s => complete out s
  | .error e, s => raisePlain e s
  | .refusal why, s => refuse why s

/-- An operation whose ending is fixed by the tables: states with the same tables end in the same way. -/
def EndsPurely (op : State → Host.Outcome State Fault Refusal) : Prop :=
  ∀ cfg : Config, ∃ e : PureEnd, ∀ s : State, s.config = cfg → op s = e.answer s

/-! ### What the endings do -/

theorem PureEnd.answer_frame (e : PureEnd) (s : State) : ∃ t : State, e.answer s = .next t ∧
    t = { s with status := t.status, out := t.out, launchFault := t.launchFault } := by
  cases e with
  | result out => exact ⟨_, complete_eq out s, rfl⟩
  | error r => exact ⟨_, raisePlain_eq r s, rfl⟩
  | refusal why => exact ⟨_, refuse_eq why s, rfl⟩

theorem PureEnd.answer_status_out (e : PureEnd) {s₁ s₂ t₁ t₂ : State} (h₁ : e.answer s₁ = .next t₁)
    (h₂ : e.answer s₂ = .next t₂) : t₁.status = t₂.status ∧ t₁.out = t₂.out := by
  cases e <;> cases h₁ <;> cases h₂ <;> exact ⟨rfl, rfl⟩

namespace EndsPurely
variable {op : State → Host.Outcome State Fault Refusal}

theorem frame (h : EndsPurely op) (s : State) : ∃ t : State, op s = .next t ∧
    t = { s with status := t.status, out := t.out, launchFault := t.launchFault } := by
  obtain ⟨e, he⟩ := h s.config
  rw [he s rfl]
  exact e.answer_frame s

theorem status_out_eq (h : EndsPurely op) {s₁ s₂ t₁ t₂ : State} (hc : s₁.config = s₂.config)
    (h₁ : op s₁ = .next t₁) (h₂ : op s₂ = .next t₂) : t₁.status = t₂.status ∧ t₁.out = t₂.out := by
  obtain ⟨e, he⟩ := h s₂.config
  exact e.answer_status_out ((he s₁ hc).symm.trans h₁) ((he s₂ rfl).symm.trans h₂)

/-- An operation that always completes, with a result computed from the tables. -/
theorem of_complete (out : Config → Port) : EndsPurely (fun s => complete (out s.config) s) :=
  fun cfg => ⟨.result (out cfg), by rintro s rfl; rfl⟩

/-- An operation that refuses whatever the tables are. -/
theorem of_refuse (why : RefuseReason) : EndsPurely (refuse why) :=
  fun _ => ⟨.refusal why, fun _ _ => rfl⟩

/-- A test of the operands alone selects between two pure operations. -/
theorem ite {p : Prop} [Decidable p] {op' : State → Host.Outcome State Fault Refusal} (h : EndsPurely op)
    (h' : EndsPurely op') : EndsPurely (fun s => if p then op s else op' s) := by
  by_cases hp : p
  · simpa only [if_pos hp] using h
  · simpa only [if_neg hp] using h'

end EndsPurely

/-! ### The operations that can raise an error or refuse -/

theorem execExtract_endsPurely (w : Word) (n : Int) : EndsPurely (execExtract w n) :=
  .ite (.of_refuse _) (.of_complete fun _ => .extracted (extractDigits w n).1 (extractDigits w n).2)

theorem execCode2ch_endsPurely (k : Nat) : EndsPurely (execCode2ch k) :=
  .ite (.of_complete fun cfg => .char (codeToChar cfg k)) (.of_refuse _)

theorem execReadsop_endsPurely (op : Nat) : EndsPurely (execReadsop op) :=
  .ite (.of_complete fun cfg => .operandFlag (lookupTag cfg op).isKnown (readsOperandOf cfg op)) (.of_refuse _)

theorem execPunch2ch_endsPurely (m : Cell) : EndsPurely (execPunch2ch m) := by
  intro cfg
  cases h : punchToChar cfg m with
  | some c => exact ⟨.result (.char c), by rintro s rfl; simp only [execPunch2ch, h, PureEnd.answer]⟩
  | none =>
    exact ⟨.error (.invalidPunch m none), by rintro s rfl; simp only [execPunch2ch, h, PureEnd.answer]⟩

theorem execDigzone_endsPurely (d : Nat) (z : Zone) : EndsPurely (execDigzone d z) := by
  intro cfg
  cases h : zoneAt cfg z d with
  | some c => exact ⟨.result (.char c), by rintro s rfl; simp only [execDigzone, h, PureEnd.answer]⟩
  | none =>
    exact ⟨.refusal .contractViolation, by rintro s rfl; simp only [execDigzone, h, PureEnd.answer]⟩

theorem execAsm_endsPurely (name : Text) (da ia : Nat) (sg : Sign) : EndsPurely (execAsm name da ia sg) := by
  intro cfg
  cases h : lookupMnemonic cfg name with
  | some e =>
    exact ⟨.result (.word (packFields e.opcode da ia sg)), by
      rintro s rfl; simp only [execAsm, h, PureEnd.answer]⟩
  | none => exact ⟨.error (.unknownMnemonic name), by rintro s rfl; simp only [execAsm, h, PureEnd.answer]⟩

/-- The mnemonic form is the one form of PARSEW that can raise an error (42_instructioncodec.md R105). -/
theorem execParsew_mnemonic_endsPurely (t : Text) : EndsPurely (execParsew t .mnemonic) := by
  intro cfg
  cases h : parseMnemonic cfg t with
  | ok w => exact ⟨.result (.word w), by rintro s rfl; simp only [execParsew, h, PureEnd.answer]⟩
  | error name =>
    exact ⟨.error (.unknownMnemonic name), by rintro s rfl; simp only [execParsew, h, PureEnd.answer]⟩

theorem execParsew_endsPurely (t : Text) (form : TextForm) : EndsPurely (execParsew t form) := by
  cases form with
  | numeric => exact .of_complete fun _ => .word (parseSigned t)
  | mnemonic => exact execParsew_mnemonic_endsPurely t
  | character => exact .of_complete fun cfg => .word (parseCharacter cfg t)
  | reserved => exact .of_refuse _

theorem execFmtw_endsPurely (w : Word) (form : TextForm) : EndsPurely (execFmtw w form) := by
  cases form with
  | numeric => exact .of_complete fun _ => .text (formatSigned w)
  | mnemonic => exact .of_complete fun cfg => .text (fmtMnemonic cfg w)
  | character => exact .of_complete fun cfg => .text (fmtCharacter cfg w)
  | reserved => exact .of_refuse _

/-! ### Every pure instruction -/

/-- A target word is translated by the tables and never executed (00_scope.md R3). -/
theorem translateTarget_endsPurely (op : Nat) (sg : Sign) (da ia : Nat) :
    EndsPurely (translateTarget op sg da ia) :=
  .of_complete fun cfg =>
    let d := disassemble cfg (packFields op da ia sg)
    .translated d (readsOperandOf cfg d.opcode)

/-- The last case is that of the 44 rows of target words: each is `translateTarget` of its own opcode. -/
theorem exec_endsPurely (i : Instr) (h : isDeckOp i = false) : EndsPurely (exec i) := by
  cases i with
  | extract w n => exact execExtract_endsPurely w n
  | pack op da ia sg => exact .of_complete fun _ => .word (packFields op da ia sg)
  | format w => exact .of_complete fun _ => .text (formatSigned w)
  | parse t => exact .of_complete fun _ => .word (parseSigned t)
  | ch2code c => exact .of_complete fun cfg => .code (charToCode cfg c)
  | code2ch k => exact execCode2ch_endsPurely k
  | ch2punch c => exact .of_complete fun cfg => .mask (charToPunch cfg c)
  | punch2ch m => exact execPunch2ch_endsPurely m
  | digzone d z => exact execDigzone_endsPurely d z
  | disasm w => exact .of_complete fun cfg => .disassembled (disassemble cfg w)
  | asm name da ia sg => exact execAsm_endsPurely name da ia sg
  | readsop op => exact execReadsop_endsPurely op
  | parsew t form => exact execParsew_endsPurely t form
  | fmtw w form => exact execFmtw_endsPurely w form
  | dreset | load | save | split | join | print => cases h
  | _ => exact translateTarget_endsPurely _ _ _ _

/-- Settles O59: each pure instruction ends purely, which gives both the frame and the dependence on the tables
alone. -/
theorem pureOperationsArePure : Obligations.PureOperationsArePure := by
  intro i hi
  have hpure := exec_endsPurely i hi
  exact ⟨hpure.frame, fun _ _ _ _ hc h₁ h₂ => hpure.status_out_eq hc h₁ h₂⟩

end Sys2Proof.Machine
end

section
/-! What a block between operations keeps (spec/10_state.md section 4, spec/20_memory.md R30 to R33), what a step
takes off the input (spec/20_memory.md R40, R44), what reset leaves (spec/10_state.md R27), and the two lookups of
CharCodec in a well-formed table (spec/10_state.md R19, R20). -/

namespace Sys2Proof.Machine

/-! ### One step, inverted -/

/-- Serving adds to an instruction's own next state the exit status alone. -/
theorem afterServing_next {r : Request} {o : Host.Outcome State Fault Refusal} {t : State}
    (h : afterServing r o = .next t) : ∃ u x, o = .next u ∧ t = { u with exit := x } := by
  cases r with
  | command p => exact ⟨t, t.exit, h, rfl⟩
  | target w => exact ⟨t, t.exit, h, rfl⟩
  | reset => exact ⟨t, t.exit, h, rfl⟩
  | line l k =>
    cases o with
    | next u => cases h; exact ⟨u, _, rfl, rfl⟩
    | fault f => cases h
    | refused w => cases h

/-- What is presented and is no instruction writes STATUS, the result port and the record of a refusal, or is the
hardware reset. -/
theorem reject_next {why : Reject} {s t : State} (h : reject why s = .next t) :
    t = { s with status := t.status, out := t.out, launchFault := t.launchFault } ∨ t = s.hardwareReset := by
  cases why with
  | resetRequest => cases h; exact .inr rfl
  | _ => cases h; exact .inl rfl

/-- An operation that is no DeckStore operation writes STATUS, the result port and the record of a refusal alone
(00_scope.md R8). -/
theorem exec_pure_next {i : Instr} {s t : State} (hi : isDeckOp i = false) (h : exec i s = .next t) :
    t = { s with status := t.status, out := t.out, launchFault := t.launchFault } := by
  obtain ⟨u, hu, hframe⟩ := (exec_endsPurely i hi).frame s
  rw [hu] at h
  cases h
  exact hframe

/-- All a step that answers a next state can have done: waited, or served the next request by its instruction or
as no instruction, noting at most an exit status besides. -/
theorem step_next {s t : State} (h : step s = .next t) :
    (s.pending = [] ∧ t = s) ∨
      ∃ u x, t = { u with exit := x } ∧
        ((∃ i, exec i s.takeRequest = .next u) ∨ ∃ why, reject why s.takeRequest = .next u) := by
  unfold step serveNext at h
  cases hp : s.pending with
  | nil => rw [hp] at h; cases h; exact .inl ⟨rfl, rfl⟩
  | cons r rest =>
    rw [hp] at h
    right
    cases hd : decode r with
    | ok i =>
      obtain ⟨u, x, hu, ht⟩ := afterServing_next ((serve_ok r i s.takeRequest hd).symm.trans h)
      exact ⟨u, x, ht, .inl ⟨i, hu⟩⟩
    | error why =>
      obtain ⟨u, x, hu, ht⟩ := afterServing_next ((serve_error r why s.takeRequest hd).symm.trans h)
      exact ⟨u, x, ht, .inr ⟨why, hu⟩⟩

/-! ### The invariant, kept by what leaves the store alone -/

/-- A state with the same store and handles, and an IDX in range, meets the invariant too. -/
theorem State.Inv.congr {s t : State} (h : s.Inv) (hd : t.deck = s.deck) (hc : t.count = s.count)
    (hm : t.mode = s.mode) (hp : t.phase = s.phase) (hh : t.openHandles = s.openHandles)
    (hi : t.idx.toNat ≤ deckCapacity) : t.Inv := by
  obtain ⟨hcount, hidx, hform, hrange, hpop, hfit⟩ := h.sound.congr hd hc hm hi
  refine ⟨hcount, hidx, hform, hrange, hpop, hfit, hh.trans h.handles, ?_, ?_⟩
  · rw [hp]; exact h.phaseAtRest
  · rw [hp, hc, hm]; exact h.emptyStore

/-- Writing cards out keeps the invariant, as long as IDX stays in range (43_deckstore.md R123). -/
theorem State.Inv.of_writeFrame {s t : State} (h : s.Inv) (hf : s.WriteFrame t) (hi : t.idx.toNat ≤ deckCapacity) :
    t.Inv := by
  rw [hf]
  exact h.congr rfl rfl rfl rfl rfl hi

/-- Between the parts of an operation: the buffer is sound and no handle is open, whatever PHASE says. -/
structure State.Released (s : State) : Prop where
  sound : s.Sound
  handles : s.openHandles = []

theorem State.Inv.released {s : State} (h : s.Inv) : s.Released := ⟨h.sound, h.handles⟩

theorem State.Released.congr {s t : State} (h : s.Released) (hd : t.deck = s.deck) (hc : t.count = s.count)
    (hm : t.mode = s.mode) (hh : t.openHandles = s.openHandles) (hi : t.idx = s.idx) : t.Released :=
  ⟨h.sound.congr hd hc hm (hi ▸ h.sound.idxBound), hh.trans h.handles⟩

/-- `storeReset()` brings the block to rest (43_deckstore.md R121). -/
theorem State.Released.storeReset_inv {s : State} (h : s.Released) : s.storeReset.Inv :=
  have hs := h.sound.storeReset
  ⟨hs.countBound, hs.idxBound, hs.deckForm, hs.deckRange, hs.populated, hs.cellsFitMode, h.handles, .inl rfl,
    fun _ => ⟨rfl, rfl⟩⟩

/-- With PHASE Loaded nothing more is asked of the store (10_state.md R23). -/
theorem State.Released.inv_of_loaded {s : State} (h : s.Released) (hp : s.phase = .loaded) : s.Inv :=
  have hs := h.sound
  ⟨hs.countBound, hs.idxBound, hs.deckForm, hs.deckRange, hs.populated, hs.cellsFitMode, h.handles, .inr hp,
    fun he => by rw [hp] at he; cases he⟩

/-- A count message changes the collaborators alone (43_deckstore.md R129). -/
theorem report_eq (quiet : Bool) (op : DeckOp) (counts : List Nat) (s : State) :
    ∃ c, report quiet op counts s = s.setCollab c := by
  cases quiet with
  | true => exact ⟨s.collab, rfl⟩
  | false => exact ⟨_, rfl⟩

/-- Reporting the counts and resetting the store, the end of SPLIT, JOIN and PRINT (43_deckstore.md R125 to
R128). -/
theorem State.Released.report_storeReset_inv {s : State} (h : s.Released) (quiet : Bool) (op : DeckOp)
    (counts : List Nat) : (report quiet op counts s).storeReset.Inv := by
  obtain ⟨c, hc⟩ := report_eq quiet op counts s
  rw [hc]
  exact State.Released.storeReset_inv (h.congr rfl rfl rfl rfl rfl)

/-- The hardware reset brings the block to rest from any state with a sound buffer (70_reset_and_hazards.md R165). -/
theorem State.Inv.hardwareReset {s : State} (h : s.Inv) : s.hardwareReset.Inv :=
  h.released.storeReset_inv.congr rfl rfl rfl rfl h.handles.symm h.released.storeReset_inv.idxBound

/-- Settles O55: the buffer is empty, so nothing is asked of its cells. -/
theorem invariantAtReset : Obligations.InvariantAtReset := fun _ =>
  { countBound := Nat.zero_le _
    idxBound := Nat.zero_le _
    deckForm := List.Pairwise.nil
    deckRange := fun _ hp => absurd hp List.not_mem_nil
    populated := fun card _ hc => absurd hc (Nat.not_lt_zero card)
    cellsFitMode := fun hm => nomatch hm
    handles := rfl
    phaseAtRest := .inl rfl
    emptyStore := fun _ => ⟨rfl, rfl⟩ }

/-! ### What the parts of an operation leave -/

/-- A run leaves `Q` where it is done; where it raises an error the buffer is sound and the abort sequence will
reset the store, the error not being `OutOfRange` (60_exceptions.md R158). -/
def Run.Leaves {α : Type} (Q : State → Prop) : Run α → Prop
  | .done _ t => Q t
  | .raised e t => t.Sound ∧ e.report ≠ .outOfRange
  | .halted _ => True

theorem Run.Leaves.of_spec {α : Type} {Q : State → Prop} {r : Run α} (hd : ∀ a t, r = .done a t → Q t)
    (hr : ∀ e t, r = .raised e t → t.Sound ∧ e.report ≠ .outOfRange) : r.Leaves Q := by
  cases r with
  | done a t => exact hd a t rfl
  | raised e t => exact hr e t rfl
  | halted f => trivial

theorem Run.Leaves.bind {α β : Type} {P Q : State → Prop} {r : Run α} {k : α → State → Run β} (hr : r.Leaves P)
    (hk : ∀ a s, P s → (k a s).Leaves Q) : (r.bind k).Leaves Q := by
  cases r with
  | done a s => exact hk a s hr
  | raised e s => exact hr
  | halted f => trivial

/-- An operation whose run leaves the invariant ends with the invariant: completed, or by the abort sequence. -/
theorem Run.Leaves.conclude_inv {r : Run Unit} {t : State} (hr : r.Leaves State.Inv) (h : r.conclude = .next t) :
    t.Inv := by
  rcases conclude_next h with ⟨s, rfl, rfl⟩ | ⟨e, s, rfl, ha⟩
  · exact State.Inv.congr hr rfl rfl rfl rfl rfl hr.idxBound
  · exact abort_inv e s t hr.1 hr.2 ha

theorem loadDeck_leaves (name : Text) (mode : Mode) (s : State) (hs : s.Inv) :
    (loadDeck name mode s).Leaves State.Inv := by
  obtain ⟨hdone, hraised⟩ := loadDeck_spec name mode s hs.sound hs.handles fun hp => (hs.emptyStore hp).1
  refine .of_spec (fun _ t ht => ?_) fun e t ht => ?_
  · obtain ⟨hsound, hhandles, hphase, -⟩ := hdone t ht
    exact State.Released.inv_of_loaded ⟨hsound, hhandles⟩ hphase
  · obtain ⟨hsound, hne, -⟩ := hraised e t ht
    exact ⟨hsound, hne⟩

theorem saveDeck_leaves (name : Text) (start n : Nat) (s : State) (hs : s.Released)
    (hr : start + n ≤ s.count.toNat) :
    (saveDeck name start n s).Leaves fun t => t.Released ∧ s.WriteFrame t := by
  obtain ⟨hdone, hraised⟩ := saveDeck_spec name start n s hs.sound hs.handles hr
  refine .of_spec (fun _ t ht => ?_) fun e t ht => ?_
  · obtain ⟨hsound, hframe⟩ := hdone t ht
    exact ⟨⟨hsound, by rw [hframe]; exact hs.handles⟩, hframe⟩
  · obtain ⟨hsound, hne, -⟩ := hraised e t ht
    exact ⟨hsound, hne⟩

theorem loadSources_leaves (j : Nat) (names : List Text) (s : State) (hs : s.Inv) :
    (loadSources j names s).Leaves State.Inv := by
  induction names generalizing j s with
  | nil => exact hs
  | cons name names ih =>
    exact (loadDeck_leaves name .raw s hs).bind fun _ u hu => ih _ _ (hu.congr rfl rfl rfl rfl rfl hu.idxBound)

theorem printCards_leaves (sink2 : Bool) (s : State) (hs : s.Released) :
    (printCards sink2 s.count.toNat 0 s).Leaves State.Released := by
  have hsound := printCards_sound sink2 s.count.toNat 0 s hs.sound (by simpa using hs.sound.countBound)
  refine .of_spec (fun _ t ht => ⟨hsound.of_done ht, ?_⟩) fun e t ht =>
    ⟨hsound.of_raised ht, printCards_raised _ _ _ _ _ _ ht⟩
  have hframe : s.WriteFrame t := (printCards_holds _ _ _ _).of_done ht
  rw [hframe]
  exact hs.handles

/-! ### The DeckStore operations keep the invariant -/

/-- The two parts of a deck make up the whole (43_deckstore.md R124). -/
theorem splitCounts_add (tail : Bool) (n total : Nat) :
    (splitCounts tail n total).1 + (splitCounts tail n total).2 = total := by
  cases tail <;> simp only [splitCounts, Bool.false_eq_true, if_false, if_true] <;> omega

theorem execLoad_inv (name : Text) (mode : Mode) (s t : State) (hs : s.Inv) (h : execLoad name mode s = .next t) :
    t.Inv := by
  unfold execLoad at h
  split at h
  · cases h; exact hs.congr rfl rfl rfl rfl rfl hs.idxBound
  · exact (loadDeck_leaves name mode s hs).conclude_inv h

theorem execSave_inv (name : Text) (start n : Nat) (s t : State) (hs : s.Inv)
    (h : execSave name start n s = .next t) : t.Inv := by
  unfold execSave at h
  split at h
  · cases h; exact hs.congr rfl rfl rfl rfl rfl hs.idxBound
  split at h
  · rw [abort_outOfRange _ _ s hs.handles] at h
    cases h
    exact hs.congr rfl rfl rfl rfl rfl hs.idxBound
  · next hrange =>
    refine Run.Leaves.conclude_inv ?_ h
    refine (saveDeck_leaves name start n s hs.released (by omega)).bind fun _ u ⟨hu, hframe⟩ => ?_
    have hinv := hs.of_writeFrame hframe hu.sound.idxBound
    exact State.Inv.congr hinv rfl rfl rfl rfl rfl hinv.idxBound

theorem splitRun_leaves (tail : Bool) (n : Nat) (source dest1 dest2 : Text) (quiet : Bool) (s : State)
    (hs : s.Inv) : (splitRun tail n source dest1 dest2 quiet s).Leaves State.Inv := by
  refine (loadDeck_leaves source .raw _ hs.released.storeReset_inv).bind fun _ u hu => ?_
  have hadd := splitCounts_add tail n u.count.toNat
  have hsplit : (u.setPhase .splitting).Released := hu.released.congr rfl rfl rfl rfl rfl
  refine (saveDeck_leaves dest1 0 _ _ hsplit (by simp only [State.setPhase_count]; omega)).bind
    fun _ v ⟨hv, hframe⟩ => ?_
  have hcount : v.count = u.count := by rw [hframe]; rfl
  refine (saveDeck_leaves dest2 _ _ v hv (by simp only [hcount, State.setPhase_count]; omega)).bind
    fun _ w ⟨hw, _⟩ => ?_
  refine State.Released.report_storeReset_inv ?_ ..
  exact hw.congr rfl rfl rfl rfl rfl

theorem joinRun_leaves (sources : List Text) (dest : Text) (quiet : Bool) (s : State) (hs : s.Inv) :
    (joinRun sources dest quiet s).Leaves State.Inv := by
  refine (loadSources_leaves 0 sources _ hs.released.storeReset_inv).bind fun _ u hu => ?_
  have hjoin : (u.setPhase .joining).Released := hu.released.congr rfl rfl rfl rfl rfl
  refine (saveDeck_leaves dest 0 _ _ hjoin (by simp)).bind fun _ v ⟨hv, _⟩ => ?_
  refine State.Released.report_storeReset_inv ?_ ..
  exact hv.congr rfl rfl rfl rfl rfl

theorem printRun_leaves (source : Text) (quiet sink2 : Bool) (s : State) (hs : s.Inv) :
    (printRun source quiet sink2 s).Leaves State.Inv := by
  refine (loadDeck_leaves source .translated _ hs.released.storeReset_inv).bind fun _ u hu => ?_
  have hprint : (u.setPhase .printing).Released := hu.released.congr rfl rfl rfl rfl rfl
  refine (printCards_leaves sink2 _ hprint).bind fun _ v hv => ?_
  refine State.Released.report_storeReset_inv ?_ ..
  exact hv.congr rfl rfl rfl rfl rfl

/-- The last case is that of the operations that are no DeckStore operation, which leave the store alone. -/
theorem exec_inv (i : Instr) (s t : State) (hs : s.Inv) (h : exec i s = .next t) : t.Inv := by
  by_cases hd : isDeckOp i = false
  · rw [exec_pure_next hd h]
    exact hs.congr rfl rfl rfl rfl rfl hs.idxBound
  cases i with
  | dreset =>
    cases h
    have hreset := hs.released.storeReset_inv
    exact hreset.congr rfl rfl rfl rfl rfl hreset.idxBound
  | load name mode => exact execLoad_inv name mode s t hs h
  | save name start n => exact execSave_inv name start n s t hs h
  | split tail n source dest1 dest2 quiet =>
    simp only [exec, execSplit] at h
    split at h
    · cases h; exact hs.congr rfl rfl rfl rfl rfl hs.idxBound
    · exact (splitRun_leaves tail n source dest1 dest2 quiet s hs).conclude_inv h
  | join sources dest quiet =>
    simp only [exec, execJoin] at h
    split at h
    · exact abort_inv _ s t hs.sound (by simp) h
    · exact (joinRun_leaves sources dest quiet s hs).conclude_inv h
  | print source quiet sink2 => exact (printRun_leaves source quiet sink2 s hs).conclude_inv h
  | _ => exact absurd rfl hd

theorem reject_inv (why : Reject) (s t : State) (hs : s.Inv) (h : reject why s = .next t) : t.Inv := by
  rcases reject_next h with hframe | rfl
  · rw [hframe]; exact hs.congr rfl rfl rfl rfl rfl hs.idxBound
  · exact hs.hardwareReset

/-- Settles O56: taking the request off and noting an exit status touch no register of the invariant, and between
them each instruction, and whatever is no instruction, keeps it. -/
theorem stepKeepsInvariant : Obligations.StepKeepsInvariant := by
  intro s t hs h
  rcases step_next h with ⟨_, rfl⟩ | ⟨u, x, rfl, hu⟩
  · exact hs
  have htake : s.takeRequest.Inv := hs.congr rfl rfl rfl rfl rfl hs.idxBound
  have hinv : u.Inv := by
    rcases hu with ⟨i, hi⟩ | ⟨why, hwhy⟩
    · exact exec_inv i _ u htake hi
    · exact reject_inv why _ u htake hwhy
  exact hinv.congr rfl rfl rfl rfl rfl hinv.idxBound

/-! ### The input and the tables -/

/-- `t` has the requests still presented and the tables of `s`. -/
def State.SameInput (s t : State) : Prop := t.pending = s.pending ∧ t.config = s.config

theorem State.SameInput.trans {s t u : State} (h1 : s.SameInput t) (h2 : t.SameInput u) : s.SameInput u :=
  ⟨h2.1.trans h1.1, h2.2.trans h1.2⟩

theorem State.LoadFrame.sameInput {s t : State} (h : s.LoadFrame t) : s.SameInput t := by
  rw [h]; exact ⟨rfl, rfl⟩

theorem State.WriteFrame.sameInput {s t : State} (h : s.WriteFrame t) : s.SameInput t := by
  rw [h]; exact ⟨rfl, rfl⟩

/-- Parts that each keep the input keep it together. -/
theorem Run.Holds.bind_sameInput {α β : Type} {s : State} {r : Run α} {k : α → State → Run β}
    (hr : r.Holds s.SameInput) (hk : ∀ a u, (k a u).Holds u.SameInput) : (r.bind k).Holds s.SameInput :=
  hr.bind fun a u _ hu => (hk a u).mono fun _ => hu.trans

/-- A part that works on a changed state keeps the input if the change does. -/
theorem Run.Holds.of_sameInput {α : Type} {s s' : State} {r : Run α} (hr : r.Holds s'.SameInput)
    (h : s.SameInput s') : r.Holds s.SameInput :=
  hr.mono fun _ => h.trans

theorem openRead_sameInput (name : Text) (s : State) : (openRead name s).Holds s.SameInput :=
  .bind_sameInput (toRun_holds _ _ _ _ _ fun _ => ⟨rfl, rfl⟩) fun _ _ => ⟨rfl, rfl⟩

theorem openWrite_sameInput (name : Text) (s : State) : (openWrite name s).Holds s.SameInput :=
  .bind_sameInput (toRun_holds _ _ _ _ _ fun _ => ⟨rfl, rfl⟩) fun _ _ => ⟨rfl, rfl⟩

theorem releaseHandle_sameInput (h : Nat) (name : Text) (s : State) :
    (releaseHandle h name s).Holds s.SameInput :=
  toRun_holds _ _ _ _ _ fun _ => ⟨rfl, rfl⟩

theorem beginLoad_sameInput (mode : Mode) (s : State) : s.SameInput (beginLoad mode s) := by
  unfold beginLoad
  split <;> exact ⟨rfl, rfl⟩

theorem loadDeck_sameInput (name : Text) (mode : Mode) (s : State) :
    (loadDeck name mode s).Holds s.SameInput :=
  ((openRead_sameInput name _).of_sameInput (beginLoad_sameInput mode s)).bind_sameInput fun h _ =>
    ((loadRows_holds h name _ _).mono fun _ => State.LoadFrame.sameInput).bind_sameInput fun _ _ =>
      (releaseHandle_sameInput h name _).bind_sameInput fun _ _ => ⟨rfl, rfl⟩

theorem saveRows_sameInput (h : Nat) (name : Text) (start n : Nat) (s : State) :
    (saveRows h name start n s).Holds s.SameInput := by
  unfold saveRows
  split
  · exact ⟨rfl, rfl⟩
  · exact (writeCards_holds h name n start s).mono fun _ => State.WriteFrame.sameInput

theorem saveDeck_sameInput (name : Text) (start n : Nat) (s : State) :
    (saveDeck name start n s).Holds s.SameInput :=
  (openWrite_sameInput name s).bind_sameInput fun h _ =>
    (saveRows_sameInput h name start n _).bind_sameInput fun _ _ => releaseHandle_sameInput h name _

theorem loadSources_sameInput (j : Nat) (names : List Text) (s : State) :
    (loadSources j names s).Holds s.SameInput := by
  induction names generalizing j s with
  | nil => exact ⟨rfl, rfl⟩
  | cons name names ih =>
    exact (loadDeck_sameInput name .raw s).bind_sameInput fun _ _ => (ih _ _).of_sameInput ⟨rfl, rfl⟩

theorem report_storeReset_sameInput (quiet : Bool) (op : DeckOp) (counts : List Nat) (s : State) :
    s.SameInput (report quiet op counts s).storeReset := by
  obtain ⟨c, hc⟩ := report_eq quiet op counts s
  rw [hc]
  exact ⟨rfl, rfl⟩

theorem splitRun_sameInput (tail : Bool) (n : Nat) (source dest1 dest2 : Text) (quiet : Bool) (s : State) :
    (splitRun tail n source dest1 dest2 quiet s).Holds s.SameInput :=
  ((loadDeck_sameInput source .raw s.storeReset).of_sameInput ⟨rfl, rfl⟩).bind_sameInput fun _ _ =>
    ((saveDeck_sameInput dest1 _ _ _).of_sameInput ⟨rfl, rfl⟩).bind_sameInput fun _ _ =>
      (saveDeck_sameInput dest2 _ _ _).bind_sameInput fun _ _ => report_storeReset_sameInput ..

theorem joinRun_sameInput (sources : List Text) (dest : Text) (quiet : Bool) (s : State) :
    (joinRun sources dest quiet s).Holds s.SameInput :=
  ((loadSources_sameInput 0 sources s.storeReset).of_sameInput ⟨rfl, rfl⟩).bind_sameInput fun _ _ =>
    ((saveDeck_sameInput dest _ _ _).of_sameInput ⟨rfl, rfl⟩).bind_sameInput fun _ _ =>
      report_storeReset_sameInput ..

theorem printRun_sameInput (source : Text) (quiet sink2 : Bool) (s : State) :
    (printRun source quiet sink2 s).Holds s.SameInput :=
  ((loadDeck_sameInput source .translated s.storeReset).of_sameInput ⟨rfl, rfl⟩).bind_sameInput fun _ u =>
    (((printCards_holds sink2 _ _ (u.setPhase .printing)).mono fun _ => State.WriteFrame.sameInput).of_sameInput
      ⟨rfl, rfl⟩).bind_sameInput fun _ _ => report_storeReset_sameInput ..

theorem abort_sameInput {e : Raised} {s t : State} (h : abort e s = .next t) : s.SameInput t := by
  obtain ⟨c, _, rfl⟩ := abort_next h
  split <;> exact ⟨rfl, rfl⟩

theorem Run.Holds.conclude_sameInput {r : Run Unit} {s t : State} (hr : r.Holds s.SameInput)
    (h : r.conclude = .next t) : s.SameInput t := by
  rcases conclude_next h with ⟨u, rfl, rfl⟩ | ⟨e, u, rfl, ha⟩
  · exact hr
  · exact State.SameInput.trans hr (abort_sameInput ha)

/-- No instruction takes a request off or writes a table, whatever the state (20_memory.md R40, R44). -/
theorem exec_sameInput (i : Instr) (s t : State) (h : exec i s = .next t) : s.SameInput t := by
  by_cases hd : isDeckOp i = false
  · rw [exec_pure_next hd h]
    exact ⟨rfl, rfl⟩
  cases i with
  | dreset => cases h; exact ⟨rfl, rfl⟩
  | load name mode =>
    simp only [exec, execLoad] at h
    split at h
    · cases h; exact ⟨rfl, rfl⟩
    · exact (loadDeck_sameInput name mode s).conclude_sameInput h
  | save name start n =>
    simp only [exec, execSave] at h
    split at h
    · cases h; exact ⟨rfl, rfl⟩
    split at h
    · exact abort_sameInput h
    · refine Run.Holds.conclude_sameInput ?_ h
      exact (saveDeck_sameInput name start n s).bind_sameInput fun _ _ => ⟨rfl, rfl⟩
  | split tail n source dest1 dest2 quiet =>
    simp only [exec, execSplit] at h
    split at h
    · cases h; exact ⟨rfl, rfl⟩
    · exact (splitRun_sameInput tail n source dest1 dest2 quiet s).conclude_sameInput h
  | join sources dest quiet =>
    simp only [exec, execJoin] at h
    split at h
    · exact abort_sameInput h
    · exact (joinRun_sameInput sources dest quiet s).conclude_sameInput h
  | print source quiet sink2 => exact (printRun_sameInput source quiet sink2 s).conclude_sameInput h
  | _ => exact absurd rfl hd

theorem reject_sameInput (why : Reject) (s t : State) (h : reject why s = .next t) : s.SameInput t := by
  rcases reject_next h with hframe | rfl
  · rw [hframe]; exact ⟨rfl, rfl⟩
  · exact ⟨rfl, rfl⟩

/-- Settles O6: the step itself takes the request off, and nothing it then runs touches the input or the tables. -/
theorem stepTakesOneRequest : Obligations.StepTakesOneRequest := by
  refine ⟨fun s t h => ?_, step_idle⟩
  rcases step_next h with ⟨hp, rfl⟩ | ⟨u, x, rfl, ⟨i, hi⟩ | ⟨why, hwhy⟩⟩
  · rw [hp]; exact ⟨rfl, rfl⟩
  · exact exec_sameInput i _ u hi
  · exact reject_sameInput why _ u hwhy

/-- Settles O1: a command and a target word are served by the instruction alone, a line has its exit status noted
besides. -/
theorem stepRunsDecodedInstruction : Obligations.StepRunsDecodedInstruction := by
  intro s r rest i hp hd
  have hstep : step s = afterServing r (exec i { s with pending := rest }) := by
    rw [step_request s r rest hp, serve_ok r i _ hd]
  refine ⟨?_, ?_, ?_⟩
  · rintro p rfl; exact hstep
  · rintro w rfl; exact hstep
  · rintro l k t rfl ht
    rw [hstep, ht]; rfl

/-- Settles O54: the step that serves a hardware reset is `hardwareReset` in the state with the request taken
off. -/
theorem resetRegisters : Obligations.ResetRegisters := by
  refine ⟨fun cfg => ⟨⟨rfl, rfl, rfl, rfl⟩, rfl, rfl, rfl⟩, fun s rest hp => ?_⟩
  have hstep : step s = .next (State.hardwareReset { s with pending := rest }) := by
    rw [step_request s .reset rest hp, serve_error .reset .resetRequest _ rfl]; rfl
  exact ⟨_, hstep, ⟨rfl, rfl, rfl, rfl⟩, rfl, rfl, rfl, rfl, rfl⟩

/-! ### The punch table (10_state.md R19) -/

theorem holAt_eq_getElem (c : Config) (x : Ch) : holAt c x = c.holTable[x.toNat]'x.isLt := by
  simp [holAt, Vector.getD, x.isLt]

/-- The conditions of a well-formed punch table, each of a character (10_state.md R19 conditions 1, 3, 4 and 6). -/
theorem holAt_of_configOk {c : Config} (h : configOk c = true) :
    (∀ x : Ch, x.toNat < 32 → holAt c x = invalidPunch) ∧ holAt c 127#7 = invalidPunch ∧
      (∀ x : Ch, isPrintable x = true → holAt c x &&& 0xF000#16 = 0#16) ∧ holAt c space = 0#16 ∧
      ∀ d, d ≤ 9 → holAt c (BitVec.ofNat 7 (48 + d)) = rowBit d := by
  simp only [configOk, holTableOk, Bool.and_eq_true, List.all_eq_true, List.mem_range, beq_iff_eq] at h
  obtain ⟨⟨⟨_, ⟨⟨⟨⟨hcontrol, h127⟩, _⟩, hrows⟩, hspace⟩, hdigit⟩, _⟩, _⟩ := h
  refine ⟨fun x hx => ?_, h127, fun x hx => hrows x ((mem_printables x).mpr hx), hspace,
    fun d hd => hdigit d (by omega)⟩
  have := hcontrol x.toNat hx
  rwa [BitVec.ofNat_toNat, BitVec.setWidth_eq] at this

/-- Settles O16: CH2PUNCH is the table's entry, of which the conditions on the table speak. -/
theorem charToPunchReadsTable : Obligations.CharToPunchReadsTable := by
  intro s x
  rw [← holAt_eq_getElem]
  refine ⟨rfl, fun hok => ?_⟩
  obtain ⟨hcontrol, h127, hrows, hspace, hdigit⟩ := holAt_of_configOk hok
  refine ⟨?_, ?_, ?_, hrows x⟩
  · rintro (hx | rfl)
    · exact hcontrol x hx
    · exact h127
  · rintro rfl; exact hspace
  · rintro d hd rfl; exact hdigit d hd

/-! ### The zone table (10_state.md R20) -/

theorem zoneAt_plus (c : Config) (d : Fin 10) : zoneAt c .plus d = some c.zonePlus[d] := by
  simp [zoneAt]

theorem zoneAt_minus (c : Config) (d : Fin 10) : zoneAt c .minus d = some c.zoneMinus[d] := by
  simp [zoneAt]

/-- There is no glyph for a digit above 9, nor for zone 3 (41_charcodec.md R91). -/
theorem zoneAt_eq_none (c : Config) (z : Zone) (d : Nat) (h : 9 < d ∨ z = .notAZone) : zoneAt c z d = none := by
  rcases h with hd | rfl
  · cases z <;> simp [zoneAt] <;> omega
  · rfl

theorem execDigzone_of_some {s : State} {d : Nat} {z : Zone} {g : Ch} (h : zoneAt s.config z d = some g) :
    execDigzone d z s = .next (s.withResult (.char g)) := by
  rw [execDigzone, h]; rfl

theorem execDigzone_of_none {s : State} {d : Nat} {z : Zone} (h : zoneAt s.config z d = none) :
    execDigzone d z s = .next (s.withRefusal .contractViolation) := by
  rw [execDigzone, h]; rfl

/-- Entries of one table row differ where their places do. -/
theorem getElem_ne_of_nodup {v : Vector Ch 10} (h : v.toList.Nodup) {d e : Fin 10} (hne : d ≠ e) : v[d] ≠ v[e] := by
  intro heq
  exact hne (Fin.ext ((h.getElem_inj_iff (hi := by simp) (hj := by simp)).mp (by simpa using heq)))

/-- The conditions of a well-formed zone table (10_state.md R20 conditions 1 to 3). -/
theorem zoneTable_of_configOk {c : Config} (h : configOk c = true) :
    (∀ d, d ≤ 9 → zoneAt c .none d = some (BitVec.ofNat 7 (48 + d))) ∧
      (c.zonePlus.toList ++ c.zoneMinus.toList).Nodup ∧
      (∀ g ∈ c.zonePlus.toList ++ c.zoneMinus.toList, isDigitChar g = false) ∧
      zoneAt c .plus 0 = some 63#7 ∧ zoneAt c .minus 0 = some 33#7 := by
  simp only [configOk, zoneTableOk, Bool.and_eq_true, List.all_eq_true, List.mem_range, beq_iff_eq,
    decide_eq_true_eq, Bool.not_eq_true'] at h
  obtain ⟨⟨_, ⟨⟨⟨⟨⟨hnone, hnodup⟩, hdigit⟩, hplus⟩, hminus⟩, _⟩⟩, _⟩ := h
  exact ⟨fun d hd => hnone d (by omega), hnodup, hdigit, hplus, hminus⟩

/-- Settles O19: DIGZONE is the table's entry, of which the conditions on the table speak. -/
theorem digitZoneGlyphs : Obligations.DigitZoneGlyphs := by
  intro s hok
  obtain ⟨hnone, hnodup, hdigit, hplus, hminus⟩ := zoneTable_of_configOk hok
  obtain ⟨hnodupPlus, hnodupMinus, hdisjoint⟩ := List.nodup_append.mp hnodup
  have hmemPlus : ∀ d : Fin 10, s.config.zonePlus[d] ∈ s.config.zonePlus.toList := fun d => by simp
  have hmemMinus : ∀ d : Fin 10, s.config.zoneMinus[d] ∈ s.config.zoneMinus.toList := fun d => by simp
  refine ⟨fun d hd => execDigzone_of_some (hnone d hd), fun d => ⟨?_, ?_, ?_, ?_⟩,
    fun d e => ⟨?_, fun hne => ⟨?_, ?_⟩⟩, execDigzone_of_some hplus, execDigzone_of_some hminus,
    fun d z hdz => execDigzone_of_none (zoneAt_eq_none _ z d hdz)⟩
  · exact execDigzone_of_some (zoneAt_plus _ d)
  · exact execDigzone_of_some (zoneAt_minus _ d)
  · exact hdigit _ (List.mem_append_left _ (hmemPlus d))
  · exact hdigit _ (List.mem_append_right _ (hmemMinus d))
  · exact hdisjoint _ (hmemPlus d) _ (hmemMinus e)
  · exact getElem_ne_of_nodup hnodupPlus hne
  · exact getElem_ne_of_nodup hnodupMinus hne

end Sys2Proof.Machine
end

section
/-! The order of collaborator calls (spec/20_memory.md R41, spec/70_reset_and_hazards.md R168), whatever the
collaborators answer. What a part of an operation adds to the trace is said once per part (`Run.Adds`); the calls of a
source open no destination, those of a destination touch no source, and each of the two is released before the next
begins. -/

namespace Sys2Proof.Machine

/-! ### Lists of calls -/

/-- Every call of the list is one of those `p` allows. -/
def onlyCalls (p : Call → Prop) (calls : List (Call × Bool)) : Prop := ∀ c ∈ calls, p c.1

/-- The call opens no destination. -/
def Call.sparesDest (c : Call) : Prop := c.opensDest = false

/-- The call neither opens nor reads a source. -/
def Call.sparesSource (c : Call) : Prop := c.opensSource = false ∧ c.readsSource = false

/-- The call does neither. -/
def Call.sparesBoth (c : Call) : Prop := c.sparesDest ∧ c.sparesSource

/-- The calls keep the order of R41, and leave no handle open. -/
def tidy (calls : List (Call × Bool)) : Prop := sourcesFirst calls ∧ allReleased calls

@[simp] theorem onlyCalls_nil (p : Call → Prop) : onlyCalls p [] := fun _ h => nomatch h

@[simp] theorem onlyCalls_cons {p : Call → Prop} {c : Call × Bool} {calls : List (Call × Bool)} :
    onlyCalls p (c :: calls) ↔ p c.1 ∧ onlyCalls p calls :=
  List.forall_mem_cons

@[simp] theorem onlyCalls_append {p : Call → Prop} {a b : List (Call × Bool)} :
    onlyCalls p (a ++ b) ↔ onlyCalls p a ∧ onlyCalls p b :=
  List.forall_mem_append

theorem onlyCalls.mono {p q : Call → Prop} {calls : List (Call × Bool)} (h : onlyCalls p calls)
    (hpq : ∀ c, p c → q c) : onlyCalls q calls :=
  fun c hc => hpq c.1 (h c hc)

theorem onlyCalls.not_opensDest {before after : List (Call × Bool)} {call : Call} {ok : Bool}
    (h : onlyCalls Call.sparesDest (before ++ (call, ok) :: after)) : ¬ call.opensDest = true := by
  have hspares : call.opensDest = false := h (call, ok) (by simp)
  simp [hspares]

theorem onlyCalls.sparesDest {calls : List (Call × Bool)} (h : onlyCalls Call.sparesBoth calls) :
    onlyCalls Call.sparesDest calls := h.mono fun _ => And.left

theorem onlyCalls.sparesSource {calls : List (Call × Bool)} (h : onlyCalls Call.sparesBoth calls) :
    onlyCalls Call.sparesSource calls := h.mono fun _ => And.right

theorem sparesBoth_singleton {c : Call} {ok : Bool} (h : c.sparesBoth) : onlyCalls Call.sparesBoth [(c, ok)] :=
  onlyCalls_cons.mpr ⟨h, onlyCalls_nil _⟩

/-- A call found in two lists one after the other is found in the first or in the second. -/
theorem append_eq_append_cons {α : Type} {a b before after : List α} {x : α}
    (h : a ++ b = before ++ x :: after) :
    (∃ a', a = before ++ x :: a' ∧ after = a' ++ b) ∨ ∃ b', before = a ++ b' ∧ b = b' ++ x :: after := by
  rcases List.append_eq_append_iff.mp h with ⟨b', hbefore, hb⟩ | ⟨a', ha, hcons⟩
  · exact .inr ⟨b', hbefore, hb⟩
  rcases List.cons_eq_append_iff.mp hcons with ⟨rfl, hb⟩ | ⟨a'', rfl, hafter⟩
  · exact .inr ⟨[], by simpa using ha.symm, hb⟩
  · exact .inl ⟨a'', ha, hafter⟩

theorem allReleased_nil : allReleased [] := ⟨fun before _ _ _ h => by simp at h, rfl⟩

theorem allReleased.append {a b : List (Call × Bool)} (ha : allReleased a) (hb : allReleased b) :
    allReleased (a ++ b) := by
  refine ⟨fun before after h ok heq => ?_, by rw [List.countP_append, List.countP_append, ha.2, hb.2]⟩
  rcases append_eq_append_cons heq with ⟨a', haeq, rfl⟩ | ⟨b', -, hbeq⟩
  · obtain ⟨ok', hmem⟩ := ha.1 before a' h ok haeq
    exact ⟨ok', List.mem_append_left _ hmem⟩
  · exact hb.1 b' after h ok hbeq

/-- Calls that open no destination are in order. -/
theorem sourcesFirst_of_sparesDest {calls : List (Call × Bool)} (h : onlyCalls Call.sparesDest calls) :
    sourcesFirst calls := by
  rintro before after call ok rfl hopen
  exact absurd hopen h.not_opensDest

/-- Calls that leave the sources alone may follow calls in order, if they are in order themselves and, where they open
a destination, the calls before leave no handle open. -/
theorem sourcesFirst.append {a b : List (Call × Bool)} (ha : sourcesFirst a) (hb : sourcesFirst b)
    (hsource : onlyCalls Call.sparesSource b) (h : allReleased a ∨ onlyCalls Call.sparesDest b) :
    sourcesFirst (a ++ b) := by
  intro before after call ok heq hopen
  rcases append_eq_append_cons heq with ⟨a', haeq, rfl⟩ | ⟨b', rfl, hbeq⟩
  · obtain ⟨hreleased, hafter⟩ := ha before a' call ok haeq hopen
    exact ⟨hreleased, List.forall_mem_append.mpr ⟨hafter, hsource⟩⟩
  · obtain ⟨hreleased, hafter⟩ := hb b' after call ok hbeq hopen
    refine ⟨?_, hafter⟩
    rcases h with hrel | hdest
    · exact hrel.append hreleased
    · exact absurd hopen (hbeq ▸ hdest).not_opensDest

theorem sourcesFirst.append_spares {a b : List (Call × Bool)} (ha : sourcesFirst a)
    (hb : onlyCalls Call.sparesBoth b) : sourcesFirst (a ++ b) :=
  ha.append (sourcesFirst_of_sparesDest hb.sparesDest) hb.sparesSource (.inr hb.sparesDest)

theorem tidy_nil : tidy [] := ⟨sourcesFirst_of_sparesDest (onlyCalls_nil _), allReleased_nil⟩

/-- A source opened, read any number of times and released leaves no handle open. -/
theorem allReleased_source (name : Text) (h : Nat) {reads : List (Call × Bool)}
    (hreads : onlyCalls (· = .read h) reads) :
    allReleased ((.openRead name, true) :: reads ++ [(.release h, true)]) := by
  constructor
  · intro before after h' ok heq
    rcases append_eq_append_cons heq with ⟨a', ha, rfl⟩ | ⟨b', -, hb⟩
    · have hmem : (Call.read h', ok) ∈ (.openRead name, true) :: reads := by rw [ha]; simp
      have hread : (Call.read h', ok) ∈ reads := by simpa using hmem
      have hsame : Call.read h' = .read h := hreads _ hread
      cases hsame
      exact ⟨true, by simp⟩
    · have hmem : (Call.read h', ok) ∈ [(Call.release h, true)] := by rw [hb]; simp
      simp at hmem
  · have hopens : reads.countP opensHandle = 0 := List.countP_eq_zero.mpr fun c hc => by
      simp [opensHandle, hreads c hc, Call.opensSource, Call.opensDest]
    have hreleases : reads.countP releasesHandle = 0 := List.countP_eq_zero.mpr fun c hc => by
      simp [releasesHandle, hreads c hc]
    simp [List.countP_cons, hopens, hreleases, opensHandle, releasesHandle, Call.opensSource, Call.opensDest]

/-- A destination opened, written any number of times and released leaves no handle open. -/
theorem allReleased_dest (name : Text) (h : Nat) {writes : List (Call × Bool)}
    (hwrites : onlyCalls (fun c => ∃ row, c = .write h row) writes) :
    allReleased ((.openWrite name, true) :: writes ++ [(.release h, true)]) := by
  constructor
  · intro before after h' ok heq
    have hmem : (Call.read h', ok) ∈ (.openWrite name, true) :: writes ++ [(Call.release h, true)] := by
      rw [heq]; simp
    have hwrite : (Call.read h', ok) ∈ writes := by simpa using hmem
    obtain ⟨row, hrow⟩ := hwrites _ hwrite
    cases hrow
  · have hopens : writes.countP opensHandle = 0 := List.countP_eq_zero.mpr fun c hc => by
      obtain ⟨row, hrow⟩ := hwrites c hc
      simp [opensHandle, hrow, Call.opensSource, Call.opensDest]
    have hreleases : writes.countP releasesHandle = 0 := List.countP_eq_zero.mpr fun c hc => by
      obtain ⟨row, hrow⟩ := hwrites c hc
      simp [releasesHandle, hrow]
    simp [List.countP_cons, hopens, hreleases, opensHandle, releasesHandle, Call.opensSource, Call.opensDest]

/-- Calls in which a destination is opened only at the head are in order. -/
theorem sourcesFirst_cons {c : Call × Bool} {calls : List (Call × Bool)}
    (hcalls : onlyCalls Call.sparesBoth calls) : sourcesFirst (c :: calls) := by
  intro before after call ok heq hopen
  rcases List.cons_eq_append_iff.mp heq with ⟨rfl, hcons⟩ | ⟨before', rfl, hrest⟩
  · cases hcons
    exact ⟨allReleased_nil, hcalls.sparesSource⟩
  · exact absurd hopen (hrest ▸ hcalls.sparesDest).not_opensDest

/-! ### What a part of an operation adds to the trace -/

/-- The run adds calls to the trace: some `P` allows where it is done, some `Q` allows where it raises an error. -/
def Run.Adds {α : Type} (trace : List (Call × Bool)) (P : α → List (Call × Bool) → Prop)
    (Q : List (Call × Bool) → Prop) : Run α → Prop
  | .done a t => ∃ calls, t.collab.trace = trace ++ calls ∧ P a calls
  | .raised _ t => ∃ calls, t.collab.trace = trace ++ calls ∧ Q calls
  | .halted _ => True

section Adds
variable {α β : Type} {trace : List (Call × Bool)} {P P' : α → List (Call × Bool) → Prop}
  {Q Q' : List (Call × Bool) → Prop} {p : Call → Prop} {r : Run α} {k : α → State → Run β}

theorem Run.Adds.mono (h : r.Adds trace P Q) (hP : ∀ a cs, P a cs → P' a cs) (hQ : ∀ cs, Q cs → Q' cs) :
    r.Adds trace P' Q' := by
  cases r with
  | done a t =>
    obtain ⟨cs, htrace, hcs⟩ := h
    exact ⟨cs, htrace, hP a cs hcs⟩
  | raised e t =>
    obtain ⟨cs, htrace, hcs⟩ := h
    exact ⟨cs, htrace, hQ cs hcs⟩
  | halted f => trivial

/-- Calls added to calls already there. -/
theorem Run.Adds.prepend {cs : List (Call × Bool)}
    (h : r.Adds (trace ++ cs) (fun a ds => P a (cs ++ ds)) (fun ds => Q (cs ++ ds))) : r.Adds trace P Q := by
  cases r with
  | done a t =>
    obtain ⟨ds, htrace, hds⟩ := h
    exact ⟨cs ++ ds, by rw [htrace, List.append_assoc], hds⟩
  | raised e t =>
    obtain ⟨ds, htrace, hds⟩ := h
    exact ⟨cs ++ ds, by rw [htrace, List.append_assoc], hds⟩
  | halted f => trivial

/-- Two parts add the calls of the first and then those of the second. -/
theorem Run.Adds.bind {R : β → List (Call × Bool) → Prop} (hr : r.Adds trace P Q)
    (hk : ∀ a u cs, u.collab.trace = trace ++ cs → P a cs → (k a u).Adds trace R Q) :
    (r.bind k).Adds trace R Q := by
  cases r with
  | done a u =>
    obtain ⟨cs, htrace, hcs⟩ := hr
    exact hk a u cs htrace hcs
  | raised e u => exact hr
  | halted f => trivial

/-- The same where what the second part adds is said from its own start. -/
theorem Run.Adds.bind_append {R : β → List (Call × Bool) → Prop} (hr : r.Adds trace P Q)
    (hk : ∀ a u cs, P a cs → (k a u).Adds u.collab.trace (fun b ds => R b (cs ++ ds)) (fun ds => Q (cs ++ ds))) :
    (r.bind k).Adds trace R Q :=
  hr.bind fun a u cs htrace hcs => (htrace ▸ hk a u cs hcs).prepend

theorem Run.adds_done (a : α) (t : State) (h : P a []) : (Run.done a t).Adds t.collab.trace P Q :=
  ⟨[], (List.append_nil _).symm, h⟩

theorem Run.adds_raised (e : Raised) (t : State) (h : Q []) : (Run.raised e t : Run α).Adds t.collab.trace P Q :=
  ⟨[], (List.append_nil _).symm, h⟩

/-- The run adds calls `p` allows, wherever it leaves the state. -/
def Run.AddsOnly (trace : List (Call × Bool)) (p : Call → Prop) (r : Run α) : Prop :=
  r.Adds trace (fun _ => onlyCalls p) (onlyCalls p)

theorem Run.AddsOnly.mono {q : Call → Prop} (h : r.AddsOnly trace p) (hpq : ∀ c, p c → q c) :
    r.AddsOnly trace q :=
  Run.Adds.mono h (fun _ _ hcs => hcs.mono hpq) fun _ hcs => hcs.mono hpq

theorem Run.AddsOnly.bind (hr : r.AddsOnly trace p) (hk : ∀ a u, (k a u).AddsOnly u.collab.trace p) :
    (r.bind k).AddsOnly trace p :=
  Run.Adds.bind_append hr fun a u _ hcs => Run.Adds.mono (hk a u)
    (fun _ _ hds => onlyCalls_append.mpr ⟨hcs, hds⟩) fun _ hds => onlyCalls_append.mpr ⟨hcs, hds⟩

theorem Run.addsOnly_done (a : α) (t : State) : (Run.done a t).AddsOnly t.collab.trace p :=
  Run.adds_done a t (onlyCalls_nil p)

theorem Run.addsOnly_raised (e : Raised) (t : State) : (Run.raised e t : Run α).AddsOnly t.collab.trace p :=
  Run.adds_raised e t (onlyCalls_nil p)

end Adds

/-! ### One call each -/

/-- The answer's collaborators have noted the call, with whether it succeeded. -/
def Answer.Notes {α : Type} (trace : List (Call × Bool)) (call : Call) : Answer α → Prop
  | .ok _ c => c.trace = trace ++ [(call, true)]
  | .error _ c => c.trace = trace ++ [(call, false)]
  | .silent => True

theorem Collab.openRead_notes (c : Collab) (name : Text) : (c.openRead name).Notes c.trace (.openRead name) := by
  have hnote := c.openRead_trace name
  revert hnote
  cases c.openRead name <;> exact id

theorem Collab.openWrite_notes (c : Collab) (name : Text) : (c.openWrite name).Notes c.trace (.openWrite name) := by
  have hnote := c.openWrite_trace name
  revert hnote
  cases c.openWrite name <;> exact id

theorem Collab.read_notes (c : Collab) (h : Nat) : (c.read h).Notes c.trace (.read h) := by
  have hnote := c.read_trace h
  revert hnote
  cases c.read h <;> exact id

theorem Collab.write_notes (c : Collab) (h : Nat) (row : Row) : (c.write h row).Notes c.trace (.write h row) := by
  have hnote := c.write_trace h row
  revert hnote
  cases c.write h row <;> exact id

theorem Collab.release_notes (c : Collab) (h : Nat) : (c.release h).Notes c.trace (.release h) := by
  have hnote := c.release_trace h
  revert hnote
  cases c.release h <;> exact id

theorem Collab.tell_notes (c : Collab) (call : Call) : (c.tell call).Notes c.trace call := by
  have hnote := c.tell_trace call
  revert hnote
  cases c.tell call <;> exact id

/-- A call whose answers all note it adds it to the trace. -/
theorem Answer.Notes.toRun_adds {α : Type} {a : Answer α} {trace : List (Call × Bool)} {call : Call}
    (h : a.Notes trace call) (s : State) (stage : IoStage) (name : Text) (i : Option (BitVec 14)) :
    (a.toRun s stage name i).Adds trace (fun _ cs => cs = [(call, true)]) (fun cs => cs = [(call, false)]) := by
  cases a with
  | ok v c => exact ⟨_, h, rfl⟩
  | error e c => exact ⟨_, h, rfl⟩
  | silent => trivial

theorem Run.Adds.addsOnly {α : Type} {r : Run α} {trace : List (Call × Bool)} {call : Call}
    (h : r.Adds trace (fun _ cs => cs = [(call, true)]) (fun cs => cs = [(call, false)])) :
    r.AddsOnly trace (· = call) :=
  h.mono (by simp) (by simp)

theorem openRead_adds (name : Text) (s : State) :
    (openRead name s).Adds s.collab.trace (fun _ cs => cs = [(.openRead name, true)])
      (fun cs => cs = [(.openRead name, false)]) :=
  ((Collab.openRead_notes s.collab name).toRun_adds s .opening name none).bind_append
    fun h u cs hcs => Run.adds_done h (u.addHandle h) (by simpa using hcs)

theorem openWrite_adds (name : Text) (s : State) :
    (openWrite name s).Adds s.collab.trace (fun _ cs => cs = [(.openWrite name, true)])
      (fun cs => cs = [(.openWrite name, false)]) :=
  ((Collab.openWrite_notes s.collab name).toRun_adds s .opening name none).bind_append
    fun h u cs hcs => Run.adds_done h (u.addHandle h) (by simpa using hcs)

theorem releaseHandle_adds (h : Nat) (name : Text) (s : State) :
    (releaseHandle h name s).Adds s.collab.trace (fun _ cs => cs = [(.release h, true)])
      (fun cs => cs = [(.release h, false)]) :=
  (Collab.release_notes s.collab h).toRun_adds (s.dropHandle h) .closing name none

theorem readRow_addsOnly (h : Nat) (name : Text) (s : State) :
    (readRow h name s).AddsOnly s.collab.trace (· = .read h) :=
  ((Collab.read_notes s.collab h).toRun_adds _ _ _ _).addsOnly

theorem writeRow_addsOnly (h : Nat) (name : Text) (row : Row) (s : State) :
    (writeRow h name row s).AddsOnly s.collab.trace (· = .write h row) :=
  ((Collab.write_notes s.collab h row).toRun_adds _ _ _ _).addsOnly

theorem consoleWrite_addsOnly (line : Text) (s : State) :
    (consoleWrite line s).AddsOnly s.collab.trace (· = .console line) :=
  ((Collab.tell_notes s.collab _).toRun_adds _ _ _ _).addsOnly

theorem sink2Write_addsOnly (line : Text) (s : State) :
    (sink2Write line s).AddsOnly s.collab.trace (· = .sink2 line) :=
  ((Collab.tell_notes s.collab _).toRun_adds _ _ _ _).addsOnly

/-! ### The loops -/

theorem storeRow_addsOnly (name : Text) (row : Row) (s : State) (p : Call → Prop) :
    (storeRow name row s).AddsOnly s.collab.trace p := by
  unfold storeRow
  cases storedCells s.config s.mode row with
  | ok cells => exact Run.addsOnly_done () (s.putCard cells)
  | error bad => exact Run.addsOnly_raised _ s

/-- Loading rows reads its handle and makes no other call (43_deckstore.md R122). -/
theorem loadRows_addsOnly (h : Nat) (name : Text) (room : Nat) (s : State) :
    (loadRows h name room s).AddsOnly s.collab.trace (· = .read h) := by
  induction room generalizing s with
  | zero =>
    refine Run.AddsOnly.bind (readRow_addsOnly h name (s.setIdx s.count)) fun r u => ?_
    cases r with
    | none => exact Run.addsOnly_done () u
    | some row => exact Run.addsOnly_raised _ u
  | succ room ih =>
    refine Run.AddsOnly.bind (readRow_addsOnly h name (s.setIdx s.count)) fun r u => ?_
    cases r with
    | none => exact Run.addsOnly_done () u
    | some row => exact (storeRow_addsOnly name row u _).bind fun _ v => ih v

/-- Writing cards writes to its handle and makes no other call (43_deckstore.md R123). -/
theorem writeCards_addsOnly (h : Nat) (name : Text) (left i : Nat) (s : State) :
    (writeCards h name left i s).AddsOnly s.collab.trace (fun c => ∃ row, c = .write h row) := by
  induction left generalizing i s with
  | zero => exact Run.addsOnly_done () s
  | succ left ih =>
    rw [writeCards]
    cases (s.setIdx (BitVec.ofNat 14 i)).readCard i with
    | none => trivial
    | some row =>
      have hwrite := writeRow_addsOnly h name row (s.setIdx (BitVec.ofNat 14 i))
      exact (hwrite.mono fun _ hc => ⟨row, hc⟩).bind fun _ u => ih (i + 1) u

theorem saveRows_addsOnly (h : Nat) (name : Text) (start n : Nat) (s : State) :
    (saveRows h name start n s).AddsOnly s.collab.trace (fun c => ∃ row, c = .write h row) := by
  unfold saveRows
  split
  · exact Run.addsOnly_raised _ s
  · exact writeCards_addsOnly h name n start s

/-- Printing calls the two sinks, which are no destination (43_deckstore.md R128). -/
theorem printCards_addsOnly (sink2 : Bool) (left i : Nat) (s : State) :
    (printCards sink2 left i s).AddsOnly s.collab.trace Call.sparesBoth := by
  induction left generalizing i s with
  | zero => exact Run.addsOnly_done () s
  | succ left ih =>
    rw [printCards]
    cases (s.setIdx (BitVec.ofNat 14 i)).readCard i with
    | none => trivial
    | some row =>
      have hconsole := consoleWrite_addsOnly (printRow s.config row) (s.setIdx (BitVec.ofNat 14 i))
      refine (hconsole.mono (by rintro _ rfl; exact ⟨rfl, rfl, rfl⟩)).bind fun _ u => ?_
      cases sink2 with
      | true =>
        have hsink2 := sink2Write_addsOnly (printRow u.config row ++ u.config.lineTerm) u
        exact (hsink2.mono (by rintro _ rfl; exact ⟨rfl, rfl, rfl⟩)).bind fun _ v => ih (i + 1) v
      | false => exact ih (i + 1) u

/-! ### A source, a destination -/

theorem beginLoad_collab (mode : Mode) (s : State) : (beginLoad mode s).collab = s.collab := by
  unfold beginLoad
  split <;> rfl

/-- Loading a source opens no destination, and where it is done the source is released (43_deckstore.md R122). -/
theorem loadDeck_adds (name : Text) (mode : Mode) (s : State) :
    (loadDeck name mode s).Adds s.collab.trace
      (fun _ cs => onlyCalls Call.sparesDest cs ∧ allReleased cs) (onlyCalls Call.sparesDest) := by
  have hread : ∀ {h reads}, onlyCalls (· = .read h) reads →
      onlyCalls Call.sparesDest ((.openRead name, true) :: reads) := fun hreads =>
    onlyCalls_cons.mpr ⟨rfl, hreads.mono (by rintro _ rfl; rfl)⟩
  have hrelease : ∀ {h reads} ok, onlyCalls (· = .read h) reads →
      onlyCalls Call.sparesDest ((.openRead name, true) :: reads ++ [(.release h, ok)]) := fun ok hreads =>
    onlyCalls_append.mpr ⟨hread hreads, onlyCalls_cons.mpr ⟨rfl, onlyCalls_nil _⟩⟩
  rw [← beginLoad_collab mode s]
  refine Run.Adds.bind_append ((openRead_adds name _).mono (fun _ _ hcs => hcs) ?_) ?_
  · rintro _ rfl; exact onlyCalls_cons.mpr ⟨rfl, onlyCalls_nil _⟩
  rintro h u _ rfl
  refine Run.Adds.bind_append (P := fun _ => onlyCalls (· = .read h))
    (Run.Adds.mono (loadRows_addsOnly h name _ u) (fun _ _ hcs => hcs) fun _ hreads => hread hreads) ?_
  intro _ v reads hreads
  refine Run.Adds.bind_append ((releaseHandle_adds h name v).mono (fun _ _ hcs => hcs) ?_) ?_
  · rintro _ rfl; exact hrelease false hreads
  rintro _ w _ rfl
  exact ⟨[], (List.append_nil _).symm, hrelease true hreads, allReleased_source name h hreads⟩

/-- Saving to a destination after calls that leave no handle open keeps the order, and where it is done no handle is
left open again (43_deckstore.md R123). -/
theorem saveDeck_adds {trace before : List (Call × Bool)} (name : Text) (start n : Nat) {s : State}
    (htrace : s.collab.trace = trace ++ before) (hbefore : tidy before) :
    (saveDeck name start n s).Adds trace (fun _ => tidy) sourcesFirst := by
  refine Run.Adds.prepend (cs := before) (htrace ▸ ?_)
  obtain ⟨hfirst, hreleased⟩ := hbefore
  have hordered : ∀ {ok rest}, onlyCalls Call.sparesBoth rest →
      sourcesFirst (before ++ (.openWrite name, ok) :: rest) := fun hrest =>
    hfirst.append (sourcesFirst_cons hrest) (onlyCalls_cons.mpr ⟨⟨rfl, rfl⟩, hrest.sparesSource⟩)
      (.inl hreleased)
  have hwrite : ∀ {h cs}, onlyCalls (fun c => ∃ row, c = .write h row) cs → onlyCalls Call.sparesBoth cs :=
    fun hcs => hcs.mono (by rintro _ ⟨row, rfl⟩; exact ⟨rfl, rfl, rfl⟩)
  have hsession : ∀ {h writes ok}, onlyCalls (fun c => ∃ row, c = .write h row) writes →
      onlyCalls Call.sparesBoth (writes ++ [(.release h, ok)]) := fun hwrites =>
    onlyCalls_append.mpr ⟨hwrite hwrites, sparesBoth_singleton ⟨rfl, rfl, rfl⟩⟩
  refine Run.Adds.bind_append ((openWrite_adds name s).mono (fun _ _ hcs => hcs) ?_) ?_
  · rintro _ rfl; exact hordered (onlyCalls_nil _)
  rintro h u _ rfl
  refine Run.Adds.bind_append (P := fun _ => onlyCalls (fun c => ∃ row, c = .write h row))
    (Run.Adds.mono (saveRows_addsOnly h name start n u) (fun _ _ hcs => hcs)
      fun _ hwrites => hordered (hwrite hwrites)) ?_
  intro _ v writes hwrites
  refine (releaseHandle_adds h name v).mono ?_ ?_
  · rintro _ _ rfl
    exact ⟨hordered (hsession hwrites), hreleased.append (allReleased_dest name h hwrites)⟩
  · rintro _ rfl; exact hordered (hsession hwrites)

/-- Loading the sources of JOIN, so too: each is released before the next is opened (43_deckstore.md R126). -/
theorem loadSources_adds (j : Nat) (names : List Text) (s : State) :
    (loadSources j names s).Adds s.collab.trace
      (fun _ cs => onlyCalls Call.sparesDest cs ∧ allReleased cs) (onlyCalls Call.sparesDest) := by
  induction names generalizing j s with
  | nil => exact Run.adds_done () s ⟨onlyCalls_nil _, allReleased_nil⟩
  | cons name names ih =>
    refine (loadDeck_adds name .raw s).bind_append fun _ u cs ⟨hdest, hreleased⟩ => ?_
    refine (ih (j + 1) (u.setCnt (1 + j) (u.getCnt 0))).mono ?_ ?_
    · rintro _ ds ⟨hdest', hreleased'⟩
      exact ⟨onlyCalls_append.mpr ⟨hdest, hdest'⟩, hreleased.append hreleased'⟩
    · exact fun ds hdest' => onlyCalls_append.mpr ⟨hdest, hdest'⟩

/-! ### Whole operations -/

/-- The run adds calls in order, wherever it leaves the state. -/
def Run.AddsOrdered {α : Type} (trace : List (Call × Bool)) (r : Run α) : Prop :=
  r.Adds trace (fun _ => sourcesFirst) sourcesFirst

/-- The count message, the end of SPLIT, JOIN and PRINT, opens and reads nothing (43_deckstore.md R129). -/
theorem report_addsOrdered {trace cs : List (Call × Bool)} (quiet : Bool) (op : DeckOp) (counts : List Nat)
    {s : State} (htrace : s.collab.trace = trace ++ cs) (hcs : sourcesFirst cs) :
    (Run.done () (report quiet op counts s).storeReset).AddsOrdered trace := by
  cases quiet with
  | true => exact ⟨cs, htrace, hcs⟩
  | false =>
    refine ⟨cs ++ [(.message op counts, true)], ?_, hcs.append_spares ?_⟩
    · rw [← List.append_assoc, ← htrace]; rfl
    · exact sparesBoth_singleton ⟨rfl, rfl, rfl⟩

theorem loadDeck_addsTidy (name : Text) (mode : Mode) (s : State) :
    (loadDeck name mode s).Adds s.collab.trace (fun _ => tidy) sourcesFirst :=
  (loadDeck_adds name mode s).mono (fun _ _ h => ⟨sourcesFirst_of_sparesDest h.1, h.2⟩)
    fun _ => sourcesFirst_of_sparesDest

theorem loadSources_addsTidy (j : Nat) (names : List Text) (s : State) :
    (loadSources j names s).Adds s.collab.trace (fun _ => tidy) sourcesFirst :=
  (loadSources_adds j names s).mono (fun _ _ h => ⟨sourcesFirst_of_sparesDest h.1, h.2⟩)
    fun _ => sourcesFirst_of_sparesDest

theorem saveRun_addsOrdered (name : Text) (start n : Nat) (s : State) (v : BitVec 14) :
    ((saveDeck name start n s).bind fun _ s => .done () (s.setCnt 0 v)).AddsOrdered s.collab.trace :=
  have hnone : s.collab.trace = s.collab.trace ++ [] := (List.append_nil _).symm
  (saveDeck_adds name start n hnone tidy_nil).bind fun _ _ cs htrace hcs => ⟨cs, htrace, hcs.1⟩

theorem splitRun_addsOrdered (tail : Bool) (n : Nat) (source dest1 dest2 : Text) (quiet : Bool) (s : State) :
    (splitRun tail n source dest1 dest2 quiet s).AddsOrdered s.collab.trace :=
  Run.Adds.bind (loadDeck_addsTidy source .raw s.storeReset) fun _ _ _ hload htidy =>
    Run.Adds.bind (saveDeck_adds dest1 0 _ hload htidy) fun _ _ _ hsave1 htidy1 =>
      Run.Adds.bind (saveDeck_adds dest2 _ _ hsave1 htidy1) fun _ _ _ hsave2 htidy2 =>
        report_addsOrdered quiet .split _ hsave2 htidy2.1

theorem joinRun_addsOrdered (sources : List Text) (dest : Text) (quiet : Bool) (s : State) :
    (joinRun sources dest quiet s).AddsOrdered s.collab.trace :=
  Run.Adds.bind (loadSources_addsTidy 0 sources s.storeReset) fun _ _ _ hload htidy =>
    Run.Adds.bind (saveDeck_adds dest 0 _ hload htidy) fun _ _ _ hsave htidy' =>
      report_addsOrdered quiet .join _ hsave htidy'.1

theorem printRun_addsOrdered (source : Text) (quiet sink2 : Bool) (s : State) :
    (printRun source quiet sink2 s).AddsOrdered s.collab.trace := by
  refine Run.Adds.bind (loadDeck_addsTidy source .translated s.storeReset) fun _ u loads hload ⟨hfirst, _⟩ => ?_
  refine Run.Adds.bind (P := fun _ => sourcesFirst) ?_ fun _ v _ hprint hfirst' =>
    report_addsOrdered quiet .print _ hprint hfirst'
  refine Run.Adds.prepend (hload ▸ Run.Adds.mono (printCards_addsOnly sink2 _ 0 (u.setPhase .printing)) ?_ ?_)
  · exact fun _ _ hprints => hfirst.append_spares hprints
  · exact fun _ hprints => hfirst.append_spares hprints

/-- The abort sequence adds releases alone (60_exceptions.md R158). -/
theorem Collab.releaseAll_trace (hs : List Nat) {c c' : Collab} (h : c.releaseAll hs = some c') :
    ∃ cs, c'.trace = c.trace ++ cs ∧ onlyCalls Call.sparesBoth cs := by
  induction hs generalizing c with
  | nil => cases h; exact ⟨[], (List.append_nil _).symm, onlyCalls_nil _⟩
  | cons x hs ih =>
    have hnote := c.release_notes x
    rw [Collab.releaseAll] at h
    have hstep : ∀ {d : Collab} {ok : Bool}, d.trace = c.trace ++ [(.release x, ok)] →
        d.releaseAll hs = some c' → ∃ cs, c'.trace = c.trace ++ cs ∧ onlyCalls Call.sparesBoth cs := by
      intro d ok hd hrest
      obtain ⟨cs, htrace, hcs⟩ := ih hrest
      exact ⟨(.release x, ok) :: cs, by rw [htrace, hd]; simp, onlyCalls_cons.mpr ⟨⟨rfl, rfl, rfl⟩, hcs⟩⟩
    cases hrel : c.release x with
    | ok a d => rw [hrel] at h hnote; exact hstep hnote h
    | error e d => rw [hrel] at h hnote; exact hstep hnote h
    | silent => rw [hrel] at h; cases h

theorem abort_addsOrdered {e : Raised} {s t : State} {trace cs : List (Call × Bool)} (h : abort e s = .next t)
    (htrace : s.collab.trace = trace ++ cs) (hcs : sourcesFirst cs) :
    ∃ calls, t.collab.trace = trace ++ calls ∧ sourcesFirst calls := by
  obtain ⟨c, hc, rfl⟩ := abort_next h
  obtain ⟨releases, hreleases, hspare⟩ := Collab.releaseAll_trace _ hc
  refine ⟨cs ++ releases, ?_, hcs.append_spares hspare⟩
  rw [← List.append_assoc, ← htrace, ← hreleases]
  split <;> rfl

theorem Run.AddsOrdered.conclude {r : Run Unit} {t : State} {trace : List (Call × Bool)} (hr : r.AddsOrdered trace)
    (h : r.conclude = .next t) : ∃ calls, t.collab.trace = trace ++ calls ∧ sourcesFirst calls := by
  rcases conclude_next h with ⟨u, rfl, rfl⟩ | ⟨e, u, rfl, habort⟩
  · exact hr
  · obtain ⟨cs, htrace, hcs⟩ := hr
    exact abort_addsOrdered habort htrace hcs

/-- Settles O58: an operation's run adds calls in order, and so does the abort sequence after it; the operations that
are no DeckStore operation call no collaborator. -/
theorem sourcesReadBeforeDestinations : Obligations.SourcesReadBeforeDestinations := by
  intro i s t h
  have hnone : s.collab.trace = s.collab.trace ++ [] := (List.append_nil _).symm
  have hnil : sourcesFirst [] := tidy_nil.1
  by_cases hd : isDeckOp i = false
  · exact ⟨[], by rw [exec_pure_next hd h]; exact hnone, hnil⟩
  cases i with
  | dreset => cases h; exact ⟨[], hnone, hnil⟩
  | load name mode =>
    simp only [exec, execLoad] at h
    split at h
    · cases h; exact ⟨[], hnone, hnil⟩
    · exact Run.AddsOrdered.conclude ((loadDeck_addsTidy name mode s).mono (fun _ _ => And.left) fun _ => id) h
  | save name start n =>
    simp only [exec, execSave] at h
    split at h
    · cases h; exact ⟨[], hnone, hnil⟩
    split at h
    · exact abort_addsOrdered h hnone hnil
    · exact (saveRun_addsOrdered name start n s _).conclude h
  | split tail n source dest1 dest2 quiet =>
    simp only [exec, execSplit] at h
    split at h
    · cases h; exact ⟨[], hnone, hnil⟩
    · exact (splitRun_addsOrdered tail n source dest1 dest2 quiet s).conclude h
  | join sources dest quiet =>
    simp only [exec, execJoin] at h
    split at h
    · exact abort_addsOrdered h hnone hnil
    · exact (joinRun_addsOrdered sources dest quiet s).conclude h
  | print source quiet sink2 => exact (printRun_addsOrdered source quiet sink2 s).conclude h
  | _ => exact absurd rfl hd

end Sys2Proof.Machine
end

section
/-! What the DeckStore operations do with collaborators that answer as usual (spec/43_deckstore.md R122 to R131,
spec/20_memory.md R31 to R38). The store after a load holds a list of card images (`State.HoldsRows`); saving and
printing then speak of that list alone. -/

namespace Sys2Proof.Machine

/-! ### The cards of the store -/

/-- The store holds exactly these card images, in order (20_memory.md R32). -/
structure State.HoldsRows (s : State) (rows : List Row) : Prop where
  count : s.count.toNat = rows.length
  cards : ∀ j, s.readCard j = rows[j]?

/-- What the store holds depends on the buffer and COUNT alone. -/
theorem State.HoldsRows.congr {s t : State} {rows : List Row} (h : s.HoldsRows rows) (hd : t.deck = s.deck)
    (hc : t.count = s.count) : t.HoldsRows rows := by
  have hcell : ∀ i c, t.readCell i c = s.readCell i c := fun i c => by simp only [State.readCell, hd, hc]
  have hcard : ∀ j, t.readCard j = s.readCard j := fun j => by simp only [State.readCard, hcell]
  exact ⟨by rw [hc, h.count], fun j => by rw [hcard, h.cards]⟩

theorem State.HoldsRows.setPhase {s : State} {rows : List Row} (h : s.HoldsRows rows) (p : Phase) :
    (s.setPhase p).HoldsRows rows := h.congr rfl rfl

theorem State.HoldsRows.count_eq {s : State} {rows : List Row} (h : s.HoldsRows rows) :
    s.count = BitVec.ofNat 14 rows.length := by
  rw [← h.count, BitVec.ofNat_toNat, BitVec.setWidth_eq]

/-- A populated store holds some card images (20_memory.md R32). -/
theorem State.Populated.exists_holdsRows {s : State} (h : s.Populated) : ∃ rows, s.HoldsRows rows := by
  choose card hcard using fun j : Fin s.count.toNat => readCard_populated s h j j.isLt
  refine ⟨List.ofFn card, (List.length_ofFn).symm, fun j => ?_⟩
  by_cases hj : j < s.count.toNat
  · rw [hcard ⟨j, hj⟩]; simp [hj]
  · rw [readCard_unpopulated s j (by omega)]; simp [hj]

/-- No handle is open and the collaborators answer as usual: what the statements about a completed operation assume,
and what every part of the operation keeps. -/
structure State.Usual (s : State) : Prop where
  handles : s.openHandles = []
  script : s.collab.script = []

theorem State.Usual.setPhase {s : State} (h : s.Usual) (p : Phase) : (s.setPhase p).Usual := ⟨h.handles, h.script⟩

theorem State.Usual.storeReset {s : State} (h : s.Usual) : s.storeReset.Usual := ⟨h.handles, h.script⟩

section Stored
variable {s : State} {rows : List Row}

theorem length_of_mem_toList_map {c : List Cell} (h : c ∈ rows.map Vector.toList) : c.length = cardColumns := by
  obtain ⟨r, -, rfl⟩ := List.mem_map.mp h
  simp

theorem storeCards_rows_count (h : s.count.toNat + rows.length ≤ deckCapacity) :
    (s.storeCards (rows.map Vector.toList)).count.toNat = s.count.toNat + rows.length := by
  simpa using s.storeCards_count (rows.map Vector.toList) (by simpa using h)

/-- The rows stored are the cards from the old COUNT on (20_memory.md R33). -/
theorem readCard_storeCards_rows (h : s.count.toNat + rows.length ≤ deckCapacity) {j : Nat} (hj : j < rows.length) :
    (s.storeCards (rows.map Vector.toList)).readCard (s.count.toNat + j) = rows[j]? := by
  rw [List.getElem?_eq_getElem hj]
  exact s.readCard_storeCards _ (by simpa using h) (fun _ => length_of_mem_toList_map) j _ (by simp [hj])

/-- Storing rows leaves every cell of the other cards as it was (20_memory.md R33). -/
theorem read_storeCards_rows_outside (h : s.count.toNat + rows.length ≤ deckCapacity) {a : Nat}
    (ha : a < 80 * s.count.toNat ∨ 80 * (s.count.toNat + rows.length) ≤ a) :
    Memory.read (s.storeCards (rows.map Vector.toList)).deck a = Memory.read s.deck a := by
  rw [s.read_storeCards _ (by simpa using h) (fun _ => length_of_mem_toList_map), if_neg]
  simp only [List.length_map, cardColumns]
  omega

/-- An empty store holds, once rows are stored, those rows. -/
theorem holdsRows_storeCards (h0 : s.count = 0#14) (h : rows.length ≤ deckCapacity) :
    (s.storeCards (rows.map Vector.toList)).HoldsRows rows := by
  have hzero : s.count.toNat = 0 := by simp [h0]
  have hcap : s.count.toNat + rows.length ≤ deckCapacity := by omega
  have hcount := storeCards_rows_count hcap
  refine ⟨by omega, fun j => ?_⟩
  by_cases hj : j < rows.length
  · have hread := readCard_storeCards_rows hcap hj
    rwa [hzero, Nat.zero_add] at hread
  · rw [readCard_unpopulated _ j (by omega), List.getElem?_eq_none (by omega)]

end Stored

/-- Settles O34: one card stored is a run of cards stored. -/
theorem storedCardReadsBack : Obligations.StoredCardReadsBack := by
  intro s r hroom
  have hcap : s.count.toNat + [r].length ≤ deckCapacity := hroom
  have hcount : (s.putCard r.toList).count.toNat = s.count.toNat + 1 := storeCards_rows_count hcap
  refine ⟨hcount, readCard_storeCards_rows hcap (j := 0) (by simp), fun i hi => ?_, fun i hi => ?_⟩
  · exact s.readCard_storeCards_old [r.toList] hcap (by simp) i hi
  · exact readCard_unpopulated _ i (by omega)

/-! ### LOAD -/

/-- The card image a row with these characters is stored as in Translated mode (20_memory.md R31). -/
def translatedRow (x : Vector Ch 80) : Row := Vector.ofFn fun k : Fin 80 => x[k].setWidth 16

theorem translatedRow_toList (x : Vector Ch 80) : (translatedRow x).toList = x.toList.map (BitVec.setWidth 16) := by
  refine List.ext_getElem (by simp) fun k hk _ => ?_
  simp [translatedRow]

theorem storedCells_translatedRow (cfg : Config) (rows : List Row) (texts : List (Vector Ch 80))
    (hl : rows.length = texts.length)
    (h : ∀ (j : Nat) (r : Row) (x : Vector Ch 80), rows[j]? = some r → texts[j]? = some x → translatesTo cfg r x) :
    rows.map (storedCells cfg .translated) = ((texts.map translatedRow).map Vector.toList).map .ok := by
  rw [storedCells_translated_rows cfg rows texts hl h]
  simp [translatedRow_toList]

/-- LOAD into an Empty store takes the mode it is given; else it is the mode the store has (43_deckstore.md R122). -/
theorem beginLoad_mode {mode : Mode} {s : State} (h : s.phase = .empty ∨ s.mode = mode) :
    (beginLoad mode s).mode = mode := by
  unfold beginLoad
  split
  · rfl
  · exact h.resolve_left ‹_›

/-- The state a load of `rows` leaves, each stored as the image in its place in `stored` (43_deckstore.md R122). -/
def State.afterLoad (s : State) (mode : Mode) (name : Text) (rows stored : List Row) : State :=
  { s with
    deck := (s.storeCards (stored.map Vector.toList)).deck,
    count := (s.storeCards (stored.map Vector.toList)).count, phase := .loaded, mode := mode,
    idx := (s.storeCards (stored.map Vector.toList)).count,
    cnt := setCntList s.cnt 0 (BitVec.ofNat 14 rows.length),
    collab := s.collab.afterSource name rows }

theorem State.Usual.afterLoad {s : State} (h : s.Usual) (mode : Mode) (name : Text) (rows stored : List Row) :
    (s.afterLoad mode name rows stored).Usual :=
  ⟨h.handles, Collab.afterSource_script _ _ _ h.script⟩

/-- A load into an empty store leaves the images it stored. -/
theorem State.afterLoad_holdsRows {s : State} {stored : List Row} (h0 : s.count = 0#14)
    (h : stored.length ≤ deckCapacity) (mode : Mode) (name : Text) (rows : List Row) :
    (s.afterLoad mode name rows stored).HoldsRows stored :=
  (holdsRows_storeCards h0 h).congr rfl rfl

/-- A load of a source that fits (43_deckstore.md R122). -/
theorem loadDeck_stored {name : Text} {mode : Mode} {s : State} {rows stored : List Row} (hu : s.Usual)
    (hm : s.phase = .empty ∨ s.mode = mode) (hf : s.collab.fileOf name = some rows)
    (hc : rows.map (storedCells s.config mode) = (stored.map Vector.toList).map .ok)
    (hcap : s.count.toNat + rows.length ≤ deckCapacity) :
    loadDeck name mode s = .done () (s.afterLoad mode name rows stored) := by
  have hlen : (stored.map Vector.toList).length = rows.length := by simpa using (congrArg List.length hc).symm
  have hmode := beginLoad_mode hm
  rw [loadDeck_usual name mode s rows _ hu.handles hu.script hf (by rw [hmode]; exact hc) hcap, hmode,
    storeCards_count_sub s _ (by omega), hlen]
  rfl

theorem execLoad_stored {name : Text} {mode : Mode} {s : State} {rows stored : List Row} (hu : s.Usual)
    (hm : s.phase = .empty ∨ s.mode = mode) (hf : s.collab.fileOf name = some rows)
    (hc : rows.map (storedCells s.config mode) = (stored.map Vector.toList).map .ok)
    (hcap : s.count.toNat + rows.length ≤ deckCapacity) :
    exec (.load name mode) s = .next ((s.afterLoad mode name rows stored).finish statusOk .completed) := by
  have hfits : ¬ (s.phase = .loaded ∧ mode ≠ s.mode) := by
    rintro ⟨hphase, hne⟩
    rcases hm with he | rfl
    · rw [hphase] at he; cases he
    · exact hne rfl
  simp only [exec, execLoad, if_neg hfits, loadDeck_stored hu hm hf hc hcap, conclude_done]

/-- Settles O35: in Raw mode the images stored are the rows themselves. -/
theorem loadRawStoresRows : Obligations.LoadRawStoresRows := by
  intro s name rows hh hm hs hf hcap
  exact ⟨_, execLoad_stored ⟨hh, hs⟩ hm hf (storedCells_raw _ _) hcap, rfl, storeCards_rows_count hcap,
    fun j hj => readCard_storeCards_rows hcap hj, fun a ha => read_storeCards_rows_outside hcap ha, rfl,
    Collab.afterSource_trace _ _ _⟩

/-- Settles O36: in Translated mode the images stored are those of the rows' characters. -/
theorem loadTranslatedStoresCharacters : Obligations.LoadTranslatedStoresCharacters := by
  intro s name rows texts hh hm hs hf hcap hlen htexts
  have hstored : (texts.map translatedRow).length = rows.length := by simp [hlen]
  have hcap' : s.count.toNat + (texts.map translatedRow).length ≤ deckCapacity := by rw [hstored]; exact hcap
  refine ⟨_, execLoad_stored ⟨hh, hs⟩ hm hf (storedCells_translatedRow _ rows texts hlen htexts) hcap, rfl,
    by rw [← hstored]; exact storeCards_rows_count hcap', fun j x hx k => ?_, fun a ha => ?_, rfl,
    Collab.afterSource_trace _ _ _⟩
  · have hj : j < texts.length := (List.getElem?_eq_some_iff.mp hx).1
    have hcard := readCard_storeCards_rows hcap' (j := j) (by simpa using hj)
    rw [List.getElem?_map, hx, Option.map_some] at hcard
    have hcell := readCell_of_readCard _ _ _ hcard k
    exact hcell.trans (by simp [translatedRow])
  · exact read_storeCards_rows_outside hcap' (by rw [hstored]; exact ha)

/-! ### SAVE -/

/-- The state left by saving these rows, the cards from `start` on (43_deckstore.md R123). -/
def State.afterSave (s : State) (name : Text) (start : Nat) (rows : List Row) : State :=
  { s with idx := s.idxAfter rows.length start, collab := s.collab.afterDest name rows }

theorem State.Usual.afterSave {s : State} (h : s.Usual) (name : Text) (start : Nat) (rows : List Row) :
    (s.afterSave name start rows).Usual :=
  ⟨h.handles, Collab.afterDest_script _ _ _ h.script⟩

theorem State.HoldsRows.afterSave {s : State} {rows : List Row} (h : s.HoldsRows rows) (name : Text) (start : Nat)
    (saved : List Row) : (s.afterSave name start saved).HoldsRows rows := h.congr rfl rfl

/-- Saving a range of what the store holds (43_deckstore.md R123). -/
theorem State.HoldsRows.saveDeck {s : State} {rows : List Row} (h : s.HoldsRows rows) (name : Text) {start n : Nat}
    (hrange : start + n ≤ rows.length) (hu : s.Usual) :
    saveDeck name start n s = .done () (s.afterSave name start ((rows.drop start).take n)) := by
  have hlen : ((rows.drop start).take n).length = n := by simp; omega
  have hsave := saveDeck_usual name start s ((rows.drop start).take n) hu.handles hu.script
    (by rw [hlen, h.count]; exact hrange) fun j hj => by
      rw [h.cards, List.getElem?_take_of_lt (by omega), List.getElem?_drop]
  rw [hlen] at hsave
  rw [hsave, State.afterSave, hlen]

/-- Settles O42: the range's rows are those of the cards the store holds. -/
theorem saveWritesRange : Obligations.SaveWritesRange := by
  intro s name start n hh hp hcap hraw hs hrange
  obtain ⟨rows, hrows⟩ := hp.exists_holdsRows
  have hlen : start + n ≤ rows.length := hrows.count ▸ hrange
  have hmode : ¬ (s.count ≠ 0#14 ∧ s.mode = .translated) := by
    rintro ⟨hne, htr⟩
    rcases hraw with h0 | hr
    · exact hne h0
    · rw [hr] at htr; cases htr
  obtain ⟨saved, hsaved⟩ : ∃ saved, saved = (rows.drop start).take n := ⟨_, rfl⟩
  have hn : saved.length = n := by rw [hsaved]; simp; omega
  refine ⟨((s.afterSave name start saved).setCnt 0 (BitVec.ofNat 14 n)).finish statusOk .completed, saved, ?_, hn,
    fun j hj => ?_, ?_, Collab.afterDest_fileOf_same _ _ _,
    fun other hne => Collab.afterDest_fileOf_other _ _ _ other hne, Collab.afterDest_trace _ _ _⟩
  · simp only [exec, execSave, if_neg hmode, if_neg (Nat.not_lt.mpr hrange), hrows.saveDeck name hlen ⟨hh, hs⟩,
      ← hsaved, Run.bind_done, conclude_done]
  · rw [hrows.cards, hsaved, List.getElem?_take_of_lt hj, List.getElem?_drop]
  · rw [← hn]; rfl

/-! ### The end of SPLIT, JOIN and PRINT -/

/-- The collaborators once the counts are reported, unless quiet (43_deckstore.md R129). -/
def Collab.reported (c : Collab) (quiet : Bool) (op : DeckOp) (counts : List Nat) : Collab :=
  if quiet then c else c.message op counts

theorem report_eq_setCollab (quiet : Bool) (op : DeckOp) (counts : List Nat) (s : State) :
    report quiet op counts s = s.setCollab (s.collab.reported quiet op counts) := by
  cases quiet <;> rfl

@[simp] theorem Collab.reported_files (c : Collab) (quiet : Bool) (op : DeckOp) (counts : List Nat) :
    (c.reported quiet op counts).files = c.files := by
  cases quiet <;> rfl

@[simp] theorem Collab.reported_fileOf (c : Collab) (quiet : Bool) (op : DeckOp) (counts : List Nat) (name : Text) :
    (c.reported quiet op counts).fileOf name = c.fileOf name := by
  cases quiet <;> rfl

@[simp] theorem Collab.reported_trace (c : Collab) (quiet : Bool) (op : DeckOp) (counts : List Nat) :
    (c.reported quiet op counts).trace = c.trace ++ (if quiet then [] else [(.message op counts, true)]) := by
  cases quiet <;> simp [Collab.reported, Collab.message]

/-! ### SPLIT -/

theorem setCntList_zero_zero (l : List (BitVec 14)) (v w : BitVec 14) :
    setCntList (setCntList l 0 v) 0 w = setCntList l 0 w := by
  cases l <;> rfl

/-- The collaborators after SPLIT's three sessions (43_deckstore.md R125). -/
def Collab.afterSplit (c : Collab) (source dest1 dest2 : Text) (rows : List Row) (n1 : Nat) : Collab :=
  ((c.afterSource source rows).afterDest dest1 (rows.take n1)).afterDest dest2 (rows.drop n1)

theorem Collab.afterSplit_fileOf (c : Collab) {source dest1 dest2 : Text} (rows : List Row) (n1 : Nat)
    (hne : dest1 ≠ dest2) :
    (c.afterSplit source dest1 dest2 rows n1).fileOf dest1 = some (rows.take n1) ∧
      (c.afterSplit source dest1 dest2 rows n1).fileOf dest2 = some (rows.drop n1) ∧
      ∀ other, other ≠ dest1 → other ≠ dest2 →
        (c.afterSplit source dest1 dest2 rows n1).fileOf other = c.fileOf other := by
  refine ⟨?_, Collab.afterDest_fileOf_same _ _ _, fun other hne1 hne2 => ?_⟩
  · rw [Collab.afterSplit, Collab.afterDest_fileOf_other _ _ _ _ hne, Collab.afterDest_fileOf_same]
  · rw [Collab.afterSplit, Collab.afterDest_fileOf_other _ _ _ _ hne2, Collab.afterDest_fileOf_other _ _ _ _ hne1,
      Collab.afterSource_fileOf]

theorem Collab.afterSplit_trace (c : Collab) (source dest1 dest2 : Text) (rows : List Row) (n1 : Nat) :
    (c.afterSplit source dest1 dest2 rows n1).trace = c.trace ++ (sourceCalls source c.nextHandle rows.length
      ++ destCalls dest1 (c.nextHandle + 1) (rows.take n1) ++ destCalls dest2 (c.nextHandle + 2) (rows.drop n1)) := by
  simp [Collab.afterSplit]

theorem splitCounts_add_of_eq {tail : Bool} {n total n1 n2 : Nat} (h : splitCounts tail n total = (n1, n2)) :
    n1 + n2 = total := by
  have hsum := splitCounts_add tail n total
  rwa [h] at hsum

/-- SPLIT of a source that fits (43_deckstore.md R125): the store is loaded with its rows, of which the first run goes
to the first destination and the rest to the second. -/
theorem splitRun_usual (tail : Bool) (n : Nat) {source : Text} (dest1 dest2 : Text) (quiet : Bool) {s : State}
    {rows : List Row} (hu : s.Usual) (hf : s.collab.fileOf source = some rows) (hcap : rows.length ≤ deckCapacity)
    {n1 n2 : Nat} (hn : splitCounts tail n rows.length = (n1, n2)) :
    splitRun tail n source dest1 dest2 quiet s = .done () { s with
      deck := (s.storeReset.storeCards (rows.map Vector.toList)).deck,
      count := 0#14, idx := 0#14, mode := .raw, phase := .empty,
      cnt := setCntList (setCntList s.cnt 0 (BitVec.ofNat 14 n1)) 1 (BitVec.ofNat 14 n2),
      collab := (s.collab.afterSplit source dest1 dest2 rows n1).reported quiet .split [n1, n2] } := by
  have hadd := splitCounts_add_of_eq hn
  have hload := loadDeck_stored (s := s.storeReset) hu.storeReset (.inl rfl) hf (storedCells_raw _ rows)
    (by simpa using hcap)
  have hrows := (State.afterLoad_holdsRows (s := s.storeReset) rfl hcap .raw source rows).setPhase .splitting
  have husual := (hu.storeReset.afterLoad .raw source rows rows).setPhase .splitting
  have hsave1 := hrows.saveDeck dest1 (start := 0) (n := n1) (by omega) husual
  have hsave2 := (hrows.afterSave dest1 0 (rows.take n1)).saveDeck dest2 (start := n1) (n := n2) (by omega)
    (husual.afterSave dest1 0 (rows.take n1))
  rw [List.drop_zero] at hsave1
  rw [List.take_of_length_le (i := n2) (by simp; omega)] at hsave2
  simp only [splitRun, hload, Run.bind_done, hrows.count, hn, hsave1, hsave2, report_eq_setCollab]
  rw [← setCntList_zero_zero s.cnt (BitVec.ofNat 14 rows.length)]
  rfl

/-- Settles O46: the source is read before a destination is opened, so its rows are those it held before. -/
theorem splitPartitionsDeck : Obligations.SplitPartitionsDeck := by
  intro s tail n source dest1 dest2 quiet rows hh hne hs hf hcap
  rcases hn : splitCounts tail n rows.length with ⟨n1, n2⟩
  have hadd := splitCounts_add_of_eq hn
  have hrun := splitRun_usual tail n dest1 dest2 quiet ⟨hh, hs⟩ hf hcap hn
  obtain ⟨hdest1, hdest2, hother⟩ := s.collab.afterSplit_fileOf (source := source) rows n1 hne
  have hexec : exec (.split tail n source dest1 dest2 quiet) s = _ :=
    (if_neg hne).trans (congrArg Run.conclude hrun)
  refine ⟨_, hexec, rfl, fun a ha => ?_,
    (Collab.reported_fileOf ..).trans hdest1, (Collab.reported_fileOf ..).trans hdest2,
    List.take_append_drop n1 rows, by simp; omega, by simp; omega,
    fun other hne1 hne2 => (Collab.reported_fileOf ..).trans (hother other hne1 hne2), ?_⟩
  · exact read_storeCards_rows_outside (by simpa using hcap) (.inr (by simpa using ha))
  · simp [Collab.afterSplit_trace]

/-! ### JOIN -/

/-- The state the loads of JOIN leave: every deck's cards in order, and some counts, phase and index
(43_deckstore.md R126). -/
def State.afterSources (s : State) (names : List Text) (decks : List (List Row)) (cnt : List (BitVec 14))
    (phase : Phase) (idx : BitVec 14) : State :=
  { s with
    deck := (s.storeCards (decks.flatten.map Vector.toList)).deck,
    count := (s.storeCards (decks.flatten.map Vector.toList)).count, phase := phase, idx := idx, cnt := cnt,
    collab := sourcesRead s.collab (names.zip decks) }

theorem State.Usual.afterSources {s : State} (h : s.Usual) (names : List Text) (decks : List (List Row))
    (cnt : List (BitVec 14)) (phase : Phase) (idx : BitVec 14) :
    (s.afterSources names decks cnt phase idx).Usual :=
  ⟨h.handles, (sourcesRead_spec _ _).1 h.script⟩

theorem State.afterSources_holdsRows {s : State} {decks : List (List Row)} (h0 : s.count = 0#14)
    (h : decks.flatten.length ≤ deckCapacity) (names : List Text) (cnt : List (BitVec 14)) (phase : Phase)
    (idx : BitVec 14) : (s.afterSources names decks cnt phase idx).HoldsRows decks.flatten :=
  (holdsRows_storeCards h0 h).congr rfl rfl

/-- A deck among decks that fit together has a length a CNT register can hold (10_state.md R22). -/
theorem toNat_ofNat_length_of_mem {decks : List (List Row)} {d : List Row} (hd : d ∈ decks)
    (hcap : decks.flatten.length ≤ deckCapacity) : (BitVec.ofNat 14 d.length).toNat = d.length := by
  have hle := (List.sublist_flatten_of_mem hd).length_le
  rw [BitVec.toNat_ofNat, Nat.mod_eq_of_lt]
  unfold deckCapacity at hcap
  omega

/-- The counts of JOIN's message, where the registers hold the decks' lengths (43_deckstore.md R129). -/
theorem map_getD_eq_map_length {cnt : List (BitVec 14)} {decks : List (List Row)}
    (h : ∀ j d, decks[j]? = some d → (cnt.getD (1 + j) 0#14).toNat = d.length) :
    (List.range decks.length).map (fun j => (cnt.getD (1 + j) 0#14).toNat) = decks.map List.length := by
  refine List.ext_getElem (by simp) fun j hj _ => ?_
  have hj' : j < decks.length := by simpa using hj
  simpa using h j _ (List.getElem?_eq_getElem hj')

/-- JOIN of sources that fit together (43_deckstore.md R126): the store is loaded with all their rows, which go to the
destination; CNT[0] holds the total and a register each source's count. -/
theorem joinRun_usual {sources : List Text} (dest : Text) (quiet : Bool) {decks : List (List Row)} {s : State}
    (hu : s.Usual) (hf : sources.map s.collab.fileOf = decks.map some) (hcap : decks.flatten.length ≤ deckCapacity) :
    ∃ cnt, joinRun sources dest quiet s = .done () { s with
        deck := (s.storeReset.storeCards (decks.flatten.map Vector.toList)).deck,
        count := 0#14, idx := 0#14, mode := .raw, phase := .empty, cnt := cnt,
        collab := ((sourcesRead s.collab (sources.zip decks)).afterDest dest decks.flatten).reported quiet .join
          (decks.map List.length ++ [decks.flatten.length]) } ∧
      (cnt.getD 0 0#14).toNat = decks.flatten.length ∧
      (∀ j d, decks[j]? = some d → (cnt.getD (1 + j) 0#14).toNat = d.length) ∧
      ∀ i, decks.length < i → cnt.getD i 0#14 = s.cnt.getD i 0#14 := by
  obtain ⟨cnt, phase, idx, hload, hown, hrest⟩ := loadSources_usual sources decks 0 s.storeReset rfl hu.handles
    hu.script hf (by simpa using hcap)
  change _ = Run.done () (s.storeReset.afterSources sources decks cnt phase idx) at hload
  have hlen : sources.length = decks.length := by simpa using congrArg List.length hf
  have hrows := (State.afterSources_holdsRows (s := s.storeReset) rfl hcap sources cnt phase idx).setPhase .joining
  have husual := (hu.storeReset.afterSources sources decks cnt phase idx).setPhase .joining
  have hsave := hrows.saveDeck dest (start := 0) (n := decks.flatten.length) (by omega) husual
  rw [List.drop_zero, List.take_length] at hsave
  have hregister : ∀ j d, decks[j]? = some d →
      ((setCntList cnt 0 (BitVec.ofNat 14 decks.flatten.length)).getD (1 + j) 0#14).toNat = d.length := by
    intro j d hd
    rw [setCntList_getD, if_neg (by omega), ← toNat_ofNat_length_of_mem (List.mem_of_getElem? hd) hcap,
      ← hown j d hd]
  refine ⟨setCntList cnt 0 (BitVec.ofNat 14 decks.flatten.length), ?_, ?_, hregister, fun i hi => ?_⟩
  · rw [← hrows.count_eq] at hregister ⊢
    simp only [joinRun, hload, Run.bind_done, hrows.count, hsave, report_eq_setCollab, hlen,
      ← map_getD_eq_map_length hregister]
    rfl
  · rw [setCntList_getD, if_pos rfl, ← hrows.count_eq, hrows.count]
  · rw [setCntList_getD, if_neg (by omega)]
    exact hrest i (by omega) (.inr (by omega))

/-- Settles O47: every source is read before the destination is opened, so their rows are those they held before. -/
theorem joinConcatenatesDecks : Obligations.JoinConcatenatesDecks := by
  intro s sources dest quiet decks hh hne hs hf hcap
  obtain ⟨cnt, hrun, htotal, hown, hrest⟩ := joinRun_usual dest quiet ⟨hh, hs⟩ hf hcap
  obtain ⟨-, hfiles, hhandle, htrace⟩ := sourcesRead_spec (sources.zip decks) s.collab
  have hlen : sources.length = decks.length := by simpa using congrArg List.length hf
  have hexec : exec (.join sources dest quiet) s = _ := (if_neg hne).trans (congrArg Run.conclude hrun)
  refine ⟨_, hexec, rfl, htotal, hown, hrest,
    fun a ha => ?_, (Collab.reported_fileOf ..).trans (Collab.afterDest_fileOf_same ..), fun other hother => ?_, ?_⟩
  · exact read_storeCards_rows_outside (by simpa using hcap) (.inr (by simpa using ha))
  · refine (Collab.reported_fileOf ..).trans ((Collab.afterDest_fileOf_other _ _ _ _ hother).trans ?_)
    simp only [Collab.fileOf, hfiles]
  · simp [htrace, hhandle, hlen]

/-! ### PRINT -/

/-- The collaborators after these card images are printed (43_deckstore.md R128). -/
def Collab.afterPrint (c : Collab) (cfg : Config) (sink2 : Bool) (rows : List Row) : Collab :=
  { c with trace := c.trace ++ printCalls cfg sink2 rows }

/-- The state left by printing these card images, all the store holds (43_deckstore.md R128). -/
def State.afterPrint (s : State) (sink2 : Bool) (rows : List Row) : State :=
  (s.setIdx (s.idxAfter rows.length 0)).setCollab (s.collab.afterPrint s.config sink2 rows)

theorem State.HoldsRows.afterPrint {s : State} {rows : List Row} (h : s.HoldsRows rows) (sink2 : Bool)
    (printed : List Row) : (s.afterPrint sink2 printed).HoldsRows rows := h.congr rfl rfl

/-- Printing all the store holds (43_deckstore.md R128). -/
theorem State.HoldsRows.printCards {s : State} {rows : List Row} (h : s.HoldsRows rows) (hs : s.collab.script = [])
    (sink2 : Bool) : printCards sink2 rows.length 0 s = .done () (s.afterPrint sink2 rows) :=
  printCards_usual sink2 rows 0 s hs fun j _ => by rw [Nat.zero_add, h.cards]

/-- PRINT of a source that fits, its rows stored as the images of `stored` (43_deckstore.md R128). -/
theorem printRun_usual {source : Text} (quiet sink2 : Bool) {s : State} {rows stored : List Row} (hu : s.Usual)
    (hf : s.collab.fileOf source = some rows)
    (hc : rows.map (storedCells s.config .translated) = (stored.map Vector.toList).map .ok)
    (hcap : rows.length ≤ deckCapacity) :
    printRun source quiet sink2 s = .done () { s with
      deck := (s.storeReset.storeCards (stored.map Vector.toList)).deck,
      count := 0#14, idx := 0#14, mode := .raw, phase := .empty,
      cnt := setCntList s.cnt 0 (BitVec.ofNat 14 rows.length),
      collab := ((s.collab.afterSource source rows).afterPrint s.config sink2 stored).reported quiet .print
        [rows.length] } := by
  have hlen : stored.length = rows.length := by simpa using (congrArg List.length hc).symm
  have hload := loadDeck_stored (s := s.storeReset) hu.storeReset (.inl rfl) hf hc (by simpa using hcap)
  have hrows := (State.afterLoad_holdsRows (s := s.storeReset) rfl (hlen ▸ hcap) .translated source rows).setPhase
    .printing
  have husual := (hu.storeReset.afterLoad .translated source rows stored).setPhase .printing
  have hprint := hrows.printCards husual.script sink2
  have hprinted := hrows.afterPrint sink2 stored
  simp only [printRun, hload, Run.bind_done, hrows.count, hprint, hprinted.count, report_eq_setCollab]
  rw [hprinted.count_eq, hlen, ← setCntList_zero_zero s.cnt (BitVec.ofNat 14 rows.length)]
  rfl

/-- Settles O48: the images printed are those of the rows' characters. -/
theorem printEmitsEveryCard : Obligations.PrintEmitsEveryCard := by
  intro s source quiet sink2 rows texts hh hs hf hcap hlen htexts
  have hc := storedCells_translatedRow s.config rows texts hlen htexts
  have hrun := printRun_usual quiet sink2 ⟨hh, hs⟩ hf hc hcap
  have hexec : exec (.print source quiet sink2) s = _ := congrArg Run.conclude hrun
  refine ⟨_, hexec, rfl, fun a ha => ?_, Collab.reported_files .., ?_⟩
  · exact read_storeCards_rows_outside (by simpa [← hlen] using hcap) (.inr (by simpa [← hlen] using ha))
  · simp [Collab.afterPrint, printCalls, List.flatMap_map, translatedRow]

end Sys2Proof.Machine
end

section
/-! Presenting and decoding (spec/30_encoding.md R46, R47, R52 to R54, R65): the command byte and its ports, target
words, and what the decoder rejects. -/

namespace Sys2Proof.Machine

/-! ### The command byte (30_encoding.md R53) -/

@[simp] theorem onlyIf_true (i : Except Reject Instr) : onlyIf true i = i := rfl

@[simp] theorem onlyIf_false (i : Except Reject Instr) : onlyIf false i = .error .unusedBits := rfl

/-- A command byte reads back its `op_sel`, its mode bits and its quiet bit. -/
theorem commandByte_fields_of_lt {op mode : Nat} (hop : op < 32) (hmode : mode < 4) (quiet : Bool) :
    opSel (commandByte op mode quiet) = op ∧ modeBits (commandByte op mode quiet) = mode ∧
      quietBit (commandByte op mode quiet) = quiet :=
  commandByte_fields ⟨op, hop⟩ ⟨mode, hmode⟩ quiet

/-- A command byte that is its `op_sel` alone sets no bit an operation could leave unused. -/
theorem onlyIf_plainCommand {cmd : BitVec 8} (h : opSel cmd = cmd.toNat) (i : Except Reject Instr) :
    onlyIf (plainCommand cmd) i = i := by
  have h32 : cmd.toNat < 32 := h ▸ Nat.mod_lt _ (by decide)
  have hm : modeBits cmd = 0 := by simp [modeBits, Nat.div_eq_of_lt h32]
  have hq : quietBit cmd = false := by simp only [quietBit, decide_eq_false_iff_not]; omega
  simp [plainCommand, hm, hq]

theorem encodeForm_lt (f : TextForm) : encodeForm f < 4 := by cases f <;> decide

/-- The count of EXTRACT on its port, in two's complement (30_encoding.md R54). -/
theorem countPort_toInt {n : Int} (h : -16 ≤ n ∧ n ≤ 15) : (BitVec.ofInt 5 n).toInt = n :=
  BitVec.toInt_ofInt_eq_self (by decide) (by norm_num; omega) (by norm_num; omega)

theorem fieldPort_toNat {n : Nat} (h : fieldFits n = true) : (BitVec.ofNat 32 n).toNat = n :=
  port_toNat 32 n (by simpa [fieldFits] using h)

/-! ### Presentations read back -/

theorem decode_encode_extract (w : Word) (n : Int) (h : (Instr.extract w n).wellFormed = true) :
    decode (encode (.extract w n)) = .ok (.extract w n) := by
  simp only [Instr.wellFormed, Bool.and_eq_true, decide_eq_true_eq] at h
  rw [encode, decode, decodeCommand_extract, onlyIf_plainCommand, decodeWord_encodeWord w (wellFormed_of_fits w h.1)]
  · show Except.ok (Instr.extract w (BitVec.ofInt 5 n).toInt) = _
    rw [countPort_toInt h.2]
  all_goals rfl

theorem decode_encode_pack (op da ia : Nat) (sg : Sign) (h : (Instr.pack op da ia sg).wellFormed = true) :
    decode (encode (.pack op da ia sg)) = .ok (.pack op da ia sg) := by
  simp only [Instr.wellFormed, Bool.and_eq_true] at h
  obtain ⟨⟨hop, hda⟩, hia⟩ := h
  rw [encode, decode, decodeCommand_pack, onlyIf_plainCommand, fieldPort_toNat hop, fieldPort_toNat hda,
    fieldPort_toNat hia, decodeSign_encodeSign] <;> rfl

theorem decode_encode_asm (t : Text) (da ia : Nat) (sg : Sign) (h : (Instr.asm t da ia sg).wellFormed = true) :
    decode (encode (.asm t da ia sg)) = .ok (.asm t da ia sg) := by
  simp only [Instr.wellFormed, Bool.and_eq_true] at h
  obtain ⟨⟨ht, hda⟩, hia⟩ := h
  rw [encode, decode, decodeCommand_asm, onlyIf_plainCommand, decodeText_encodeText t ht, fieldPort_toNat hda,
    fieldPort_toNat hia, decodeSign_encodeSign] <;> rfl

theorem decode_encode_parsew (t : Text) (f : TextForm) (h : Text.fits t = true) :
    decode (encode (.parsew t f)) = .ok (.parsew t f) := by
  obtain ⟨hop, hmode, hquiet⟩ := commandByte_fields_of_lt (by decide : 0x0C < 32) (encodeForm_lt f) false
  refine (decodeCommand_parsew _ hop).trans ?_
  simp only [hmode, hquiet, decodeForm_encodeForm, decodeText_encodeText t h]
  rfl

theorem decode_encode_fmtw (w : Word) (f : TextForm) (h : w.fits = true) :
    decode (encode (.fmtw w f)) = .ok (.fmtw w f) := by
  obtain ⟨hop, hmode, hquiet⟩ := commandByte_fields_of_lt (by decide : 0x0D < 32) (encodeForm_lt f) false
  refine (decodeCommand_fmtw _ hop).trans ?_
  simp only [hmode, hquiet, decodeForm_encodeForm, decodeWord_encodeWord w (wellFormed_of_fits w h)]
  rfl

theorem decode_encode_load (t : Text) (m : Mode) (h : Text.fits t = true) :
    decode (encode (.load t m)) = .ok (.load t m) := by
  have hm : (if m = .raw then 0 else 1) < 4 := by split <;> decide
  obtain ⟨hop, hmode, hquiet⟩ := commandByte_fields_of_lt (by decide : 0x11 < 32) hm false
  refine (decodeCommand_load _ hop).trans ?_
  simp only [loadCommand, hmode, hquiet, decodeText_encodeText t h]
  cases m <;> rfl

theorem decode_encode_save (t : Text) (start count : Nat) (h : (Instr.save t start count).wellFormed = true) :
    decode (encode (.save t start count)) = .ok (.save t start count) := by
  simp only [Instr.wellFormed, Bool.and_eq_true, decide_eq_true_eq] at h
  obtain ⟨ht, hstart, hcount⟩ := h
  rw [encode, decode, decodeCommand_save, onlyIf_plainCommand, decodeText_encodeText t ht,
    port_toNat 14 start hstart, port_toNat 14 count hcount] <;> rfl

theorem decode_encode_split (tail : Bool) (n : Nat) (s d1 d2 : Text) (q : Bool)
    (h : (Instr.split tail n s d1 d2 q).wellFormed = true) :
    decode (encode (.split tail n s d1 d2 q)) = .ok (.split tail n s d1 d2 q) := by
  simp only [Instr.wellFormed, Bool.and_eq_true, decide_eq_true_eq] at h
  obtain ⟨⟨⟨hn, hs⟩, hd1⟩, hd2⟩ := h
  obtain ⟨hop, hmode, hquiet⟩ := commandByte_fields_of_lt (by decide : 0x13 < 32) (by decide : 0 < 4) q
  refine (decodeCommand_split _ hop).trans ?_
  simp only [hmode, hquiet, decodeText_encodeText s hs, decodeText_encodeText d1 hd1,
    decodeText_encodeText d2 hd2, decodeFlag_encodeFlag, port_toNat 32 n hn]
  rfl

theorem decode_encode_join (ss : List Text) (d : Text) (q : Bool) (h : (Instr.join ss d q).wellFormed = true) :
    decode (encode (.join ss d q)) = .ok (.join ss d q) := by
  simp only [Instr.wellFormed, Bool.and_eq_true] at h
  obtain ⟨hop, hmode, hquiet⟩ := commandByte_fields_of_lt (by decide : 0x14 < 32) (by decide : 0 < 4) q
  refine (decodeCommand_join _ hop).trans ?_
  simp only [hmode, hquiet, decodeTexts_encodeText ss h.1, decodeText_encodeText d h.2]
  rfl

theorem decode_encode_print (t : Text) (q sink2 : Bool) (h : Text.fits t = true) :
    decode (encode (.print t q sink2)) = .ok (.print t q sink2) := by
  obtain ⟨hop, hmode, hquiet⟩ := commandByte_fields_of_lt (by decide : 0x15 < 32) (by decide : 0 < 4) q
  refine (decodeCommand_print _ hop).trans ?_
  simp only [hmode, hquiet, decodeText_encodeText t h, decodeFlag_encodeFlag]
  rfl

/-- Settles O3: every port reads back what was put on it, and the command byte selects the operation's own row. The
last case is that of the 44 target words, each of which is looked up by its own opcode. -/
theorem decodeEncodeRoundTrip : Obligations.DecodeEncodeRoundTrip := by
  intro i h
  cases i with
  | extract w n => exact decode_encode_extract w n h
  | pack op da ia sg => exact decode_encode_pack op da ia sg h
  | format w =>
    rw [encode, decode, decodeCommand_format, onlyIf_plainCommand,
      decodeWord_encodeWord w (wellFormed_of_fits w h)] <;> rfl
  | parse t => rw [encode, decode, decodeCommand_parse, onlyIf_plainCommand, decodeText_encodeText t h] <;> rfl
  | ch2code c => rw [encode, decode, decodeCommand_ch2code, onlyIf_plainCommand] <;> rfl
  | code2ch k =>
    rw [encode, decode, decodeCommand_code2ch, onlyIf_plainCommand, port_toNat 7 k (of_decide_eq_true h)] <;> rfl
  | ch2punch c => rw [encode, decode, decodeCommand_ch2punch, onlyIf_plainCommand] <;> rfl
  | punch2ch m => rw [encode, decode, decodeCommand_punch2ch, onlyIf_plainCommand] <;> rfl
  | digzone d z =>
    rw [encode, decode, decodeCommand_digzone, onlyIf_plainCommand, port_toNat 4 d (of_decide_eq_true h),
      decodeZone_encodeZone] <;> rfl
  | disasm w =>
    rw [encode, decode, decodeCommand_disasm, onlyIf_plainCommand,
      decodeWord_encodeWord w (wellFormed_of_fits w h)] <;> rfl
  | asm t da ia sg => exact decode_encode_asm t da ia sg h
  | readsop k =>
    rw [encode, decode, decodeCommand_readsop, onlyIf_plainCommand, port_toNat 7 k (of_decide_eq_true h)] <;> rfl
  | parsew t f => exact decode_encode_parsew t f h
  | fmtw w f => exact decode_encode_fmtw w f h
  | dreset => rfl
  | load t m => exact decode_encode_load t m h
  | save t start count => exact decode_encode_save t start count h
  | split tail n s d1 d2 q => exact decode_encode_split tail n s d1 d2 q h
  | join ss d q => exact decode_encode_join ss d q h
  | print t q sink2 => exact decode_encode_print t q sink2 h
  | _ => exact decodeTarget_encodeTarget _ _ _ _ (by decide) h _ rfl

/-- Settles O2: the decoder evaluates on each of the seven presentations. -/
theorem specWordsDecode : Obligations.SpecWordsDecode := by
  refine ⟨rfl, rfl, rfl, rfl, rfl, rfl, ?_⟩
  exact decodeTarget_encodeTarget 69 .neg 1234 5678 (by decide) (by decide) _ rfl

/-! ### What the decoder rejects (30_encoding.md R65) -/

/-- A step on a command that decodes to no instruction. -/
theorem step_command_error {s : State} {p : InPorts} {rest : List Request} {why : Reject}
    (hp : s.pending = .command p :: rest) (hd : decodeCommand p = .error why) :
    step s = reject why { s with pending := rest } :=
  (step_request s _ rest hp).trans (serve_error (.command p) why _ hd)

theorem decodeCommand_reserved {p : InPorts}
    (h : opSel p.cmd = 0x0E ∨ opSel p.cmd = 0x0F ∨ 0x16 ≤ opSel p.cmd) :
    decodeCommand p = .error (.reservedOpSel (opSel p.cmd)) := by
  unfold decodeCommand
  split
  case h_21 => rfl
  all_goals omega

/-- The operations that use neither a mode bit nor the quiet bit (30_encoding.md R53). -/
theorem decodeCommand_plain {p : InPorts} (h : opSel p.cmd ≤ 0x0B ∨ opSel p.cmd = 0x10 ∨ opSel p.cmd = 0x12) :
    ∃ i, decodeCommand p = onlyIf (plainCommand p.cmd) i := by
  rcases h with h | h | h
  · interval_cases hop : opSel p.cmd
    exacts [⟨_, decodeCommand_extract p hop⟩, ⟨_, decodeCommand_pack p hop⟩, ⟨_, decodeCommand_format p hop⟩,
      ⟨_, decodeCommand_parse p hop⟩, ⟨_, decodeCommand_ch2code p hop⟩, ⟨_, decodeCommand_code2ch p hop⟩,
      ⟨_, decodeCommand_ch2punch p hop⟩, ⟨_, decodeCommand_punch2ch p hop⟩, ⟨_, decodeCommand_digzone p hop⟩,
      ⟨_, decodeCommand_disasm p hop⟩, ⟨_, decodeCommand_asm p hop⟩, ⟨_, decodeCommand_readsop p hop⟩]
  · exact ⟨_, decodeCommand_dreset p h⟩
  · exact ⟨_, decodeCommand_save p h⟩

/-- PARSEW and FMTW use the mode bits alone (30_encoding.md R53). -/
theorem decodeCommand_moded {p : InPorts} (h : opSel p.cmd = 0x0C ∨ opSel p.cmd = 0x0D) :
    ∃ i, decodeCommand p = onlyIf (!quietBit p.cmd) i := by
  rcases h with h | h
  · exact ⟨_, decodeCommand_parsew p h⟩
  · exact ⟨_, decodeCommand_fmtw p h⟩

/-- SPLIT, JOIN and PRINT use the quiet bit alone (30_encoding.md R53). -/
theorem decodeCommand_quietable {p : InPorts}
    (h : opSel p.cmd = 0x13 ∨ opSel p.cmd = 0x14 ∨ opSel p.cmd = 0x15) :
    ∃ i, decodeCommand p = onlyIf (modeBits p.cmd == 0) i := by
  rcases h with h | h | h
  · exact ⟨_, decodeCommand_split p h⟩
  · exact ⟨_, decodeCommand_join p h⟩
  · exact ⟨_, decodeCommand_print p h⟩

theorem plainCommand_eq_false {cmd : BitVec 8} (h : modeBits cmd ≠ 0 ∨ quietBit cmd = true) :
    plainCommand cmd = false := by
  rcases h with h | h <;> simp [plainCommand, h]

theorem loadCommand_eq_false {cmd : BitVec 8} (h : 2 ≤ modeBits cmd ∨ quietBit cmd = true) :
    loadCommand cmd = false := by
  rcases h with h | h
  · simp [loadCommand, show ¬ modeBits cmd < 2 by omega]
  · simp [loadCommand, h]

/-- A command with a bit set that its operation does not use is refused by the step. -/
theorem step_unusedBits {s : State} {p : InPorts} {rest : List Request} {used : Bool}
    (hp : s.pending = .command p :: rest) (hd : ∃ i, decodeCommand p = onlyIf used i) (hb : used = false) :
    step s = .next (State.withRefusal { s with pending := rest } (.presented .unusedBits)) := by
  obtain ⟨i, hi⟩ := hd
  subst hb
  exact step_command_error hp (hi.trans (onlyIf_false i))

/-- Settles O4: the decoder's answer for each group of operations that leaves the same bits unused. -/
theorem reservedCommandsRefused : Obligations.ReservedCommandsRefused := by
  intro s p rest hp
  refine ⟨fun h => step_command_error hp (decodeCommand_reserved h),
    fun h hb => step_unusedBits hp (decodeCommand_plain h) (plainCommand_eq_false hb),
    fun h hb => step_unusedBits hp (decodeCommand_moded h) (by simp [hb]),
    fun h hb => step_unusedBits hp ⟨_, decodeCommand_load p h⟩ (loadCommand_eq_false hb),
    fun h hb => step_unusedBits hp (decodeCommand_quietable h) (by simp [hb])⟩

/-- One nibble above 9 is enough for the digits to be none (30_encoding.md R46). -/
theorem decodeBcd_eq_none {k v j : Nat} (hj : j < k) (h : 10 ≤ v / 16 ^ j % 16) : decodeBcd k v = none := by
  induction k generalizing v j with
  | zero => omega
  | succ k ih =>
    rw [decodeBcd]
    split
    · cases j with
      | zero => simp at h; omega
      | succ j =>
        rw [Nat.pow_succ', ← Nat.div_div_eq_div_mul] at h
        rw [ih (Nat.lt_of_succ_lt_succ hj) h]; rfl
    · rfl

theorem decodeWord_badNibble {v : BitVec 41} {k : Nat} (hk : k < 10) (h : 10 ≤ v.toNat / 16 ^ k % 16) :
    decodeWord v = .error .badNibble := by
  have hlow : v.toNat % 2 ^ 40 / 16 ^ k % 16 = v.toNat / 16 ^ k % 16 := by
    interval_cases k <;> norm_num <;> omega
  rw [decodeWord, decodeBcd_eq_none hk (hlow ▸ h)]

/-- The commands with a word operand, each with the bits it does not use 0 (30_encoding.md R53, R54). -/
theorem decodeCommand_badNibble {p : InPorts} (hw : decodeWord p.word = .error .badNibble)
    (hc : p.cmd = 0x00#8 ∨ p.cmd = 0x02#8 ∨ p.cmd = 0x09#8 ∨ p.cmd = 0x0D#8 ∨ p.cmd = 0x2D#8 ∨ p.cmd = 0x4D#8) :
    decodeCommand p = .error .badNibble := by
  rcases hc with hc | hc | hc | hc | hc | hc
  · rw [decodeCommand_extract p (by rw [hc]; rfl), hc, hw]; rfl
  · rw [decodeCommand_format p (by rw [hc]; rfl), hc, hw]; rfl
  · rw [decodeCommand_disasm p (by rw [hc]; rfl), hc, hw]; rfl
  all_goals rw [decodeCommand_fmtw p (by rw [hc]; rfl), hc, hw]; rfl

/-- Settles O5: the word on the port is no value, whatever operation reads it. -/
theorem badNibbleRefused : Obligations.BadNibbleRefused := by
  intro s rest v k hk hv
  have hw := decodeWord_badNibble hk hv
  refine ⟨?_, fun hp => ?_⟩
  · rintro p rfl hc hp
    exact step_command_error hp (decodeCommand_badNibble hw hc)
  · have hd : decode (.target v) = .error .badNibble := by simp only [decode, decodeTarget, hw]; rfl
    exact (step_request s _ rest hp).trans (serve_error _ _ _ hd)

end Sys2Proof.Machine
end

section
/-! Textual forms (spec/30_encoding.md R56, R57, R61; spec/40_wordcodec.md R73 to R75; spec/42_instructioncodec.md
R104 to R109): what FORMAT writes, and what PARSE and the mnemonic form of PARSEW read. A scanner's position is
compared up to the spaces it skips next, so that a missing part of a text needs no case of its own. -/

namespace Sys2Proof.Machine

/-! ### Results by table and by arithmetic -/

/-- Settles O8: PACK is `packFields`, and the three fields have two, four and four digits. -/
theorem packReducesFields : Obligations.PackReducesFields := by
  intro s op da ia sg
  exact ⟨rfl, by omega⟩

/-- Settles O9: the digits are those of `renderDigits`, and the sign glyph stands after them. -/
theorem formatRendersDigits : Obligations.FormatRendersDigits := by
  intro s w _
  have hlen : (renderDigits 10 w.mag).length = 10 := renderDigits_length 10 w.mag
  refine ⟨formatSigned w, rfl, ?_, fun i hi => ?_, ?_⟩
  · simp [formatSigned, hlen]
  · rw [formatSigned, List.getElem?_append_left (by omega), renderDigits_getElem 10 w.mag i hi]
    rfl
  · rw [formatSigned, List.getElem?_append_right (by omega), hlen]
    cases w.sign <;> rfl

/-- Settles O14: the table has an entry for each of the hundred codes. -/
theorem codeToCharReadsTable : Obligations.CodeToCharReadsTable := by
  refine fun s k => ⟨fun h => ?_, fun h => ?_⟩
  · have hentry : codeToChar s.config k = s.config.codeTable[k]'h := by simp [codeToChar, codeAt, Vector.getD, h]
    rw [← hentry]
    exact if_pos h
  · exact if_neg (by omega)

theorem opcode_lt_of_mem {cfg : Config} (h : configOk cfg = true) {e : MnemonicEntry} (he : e ∈ cfg.mnemonics) :
    e.opcode < 100 := by
  simp only [configOk, mnemonicTableOk, Bool.and_eq_true, List.all_eq_true, decide_eq_true_eq] at h
  exact (h.2.1.1 e he).1

theorem mnemonicOk_of_mem {cfg : Config} (h : configOk cfg = true) {e : MnemonicEntry} (he : e ∈ cfg.mnemonics) :
    mnemonicOk e.mnemonic = true := by
  simp only [configOk, mnemonicTableOk, Bool.and_eq_true, List.all_eq_true, decide_eq_true_eq] at h
  exact (h.2.1.1 e he).2

/-- READSOP of an opcode is what the lookup of the opcode says (42_instructioncodec.md R104). -/
theorem execReadsop_of_lt {s : State} {op : Nat} (h : op < 100) :
    exec (.readsop op) s =
      .next (s.withResult (.operandFlag (lookupTag s.config op).isKnown (readsOperandOf s.config op))) :=
  if_pos h

/-- Settles O24: the entry is the one its opcode looks up, and an opcode of no entry looks up none. -/
theorem readsOperandByTable : Obligations.ReadsOperandByTable := by
  refine fun s hok => ⟨fun e he => ?_, fun op hop hno => ?_, fun op hop => if_neg (by omega)⟩
  · rw [execReadsop_of_lt (opcode_lt_of_mem hok he), lookupTag, readsOperandOf, lookupOpcode_of_mem _ hok e he]
    rfl
  · have hnone : lookupOpcode s.config op = none := by simpa [lookupOpcode] using hno
    rw [execReadsop_of_lt hop, lookupTag, readsOperandOf, hnone]
    rfl

/-- Settles O25: the numeric form is the word codec's own function, and mode 3 is refused by name. -/
theorem numericFormIsWordCodec : Obligations.NumericFormIsWordCodec :=
  fun _ t w => ⟨rfl, rfl, ⟨parseSigned t, rfl⟩, ⟨formatSigned w, rfl⟩, rfl, rfl⟩

/-! ### Runs of spaces (30_encoding.md R56) -/

@[simp] theorem skipSpaces_spaces (n : Nat) (t : Text) :
    skipSpaces (List.replicate n space ++ t) = skipSpaces t := by
  induction n with
  | zero => rfl
  | succ n ih => rw [List.replicate_succ, List.cons_append, skipSpaces, if_pos rfl, ih]

theorem skipSpaces_cons {x : Ch} (h : x ≠ space) (t : Text) : skipSpaces (x :: t) = x :: t := if_neg h

@[simp] theorem skipSpaces_skipSpaces (t : Text) : skipSpaces (skipSpaces t) = skipSpaces t := by
  induction t with
  | nil => rfl
  | cons x xs ih =>
    by_cases hx : x = space
    · simpa only [skipSpaces, if_pos hx] using ih
    · rw [skipSpaces_cons hx, skipSpaces_cons hx]

/-! ### Markers and fields (30_encoding.md R56, R57) -/

/-- A text does not begin with a character of the class `p`. -/
def BeginsOff (p : Ch → Bool) (t : Text) : Prop := ∀ x xs, t = x :: xs → p x = false

/-- A sign marker (30_encoding.md R57). -/
def isMarker (c : Ch) : Bool := c == plusCh || c == minusCh

theorem beginsOff_nil (p : Ch → Bool) : BeginsOff p [] := fun _ _ h => nomatch h

theorem beginsOff_cons {p : Ch → Bool} {x : Ch} {xs : Text} : BeginsOff p (x :: xs) ↔ p x = false :=
  ⟨fun h => h x xs rfl, by rintro h y ys ⟨⟩; exact h⟩

theorem scanSign_of_beginsOff (sg : Sign) {t : Text} (h : BeginsOff isMarker t) : scanSign sg t = (sg, t) := by
  cases t with
  | nil => rfl
  | cons x xs =>
    have hx := beginsOff_cons.mp h
    simp only [isMarker, Bool.or_eq_false_iff, beq_eq_false_iff_ne] at hx
    rw [scanSign, if_neg hx.1, if_neg hx.2]

/-- The front of a text: spaces, an optional marker, spaces. The marker sets the sign, and the scan goes on behind
all the spaces. -/
theorem scanSign_front (a b : Nat) (front : Option Sign) {t : Text}
    (h : front = none → BeginsOff isMarker (skipSpaces t)) :
    let r := scanSign .pos (skipSpaces (List.replicate a space ++ markText front ++ List.replicate b space ++ t))
    r.1 = front.getD .pos ∧ skipSpaces r.2 = skipSpaces t := by
  rw [List.append_assoc, List.append_assoc, skipSpaces_spaces]
  cases front with
  | none =>
    simp only [markText, List.nil_append, skipSpaces_spaces, scanSign_of_beginsOff _ (h rfl)]
    exact ⟨rfl, skipSpaces_skipSpaces t⟩
  | some sg => cases sg <;> exact ⟨rfl, skipSpaces_spaces b t⟩

theorem skipSpaces_digits {ds : Text} (hne : ds ≠ []) (hds : ∀ x ∈ ds, isDigitChar x = true) (t : Text) :
    skipSpaces (ds ++ t) = ds ++ t := by
  cases ds with
  | nil => exact absurd rfl hne
  | cons x xs => exact skipSpaces_cons (digit_not_marker x (hds x (by simp))).1 _

/-- A field of digits, or none: its last digits are kept, and the scan goes on behind it. -/
theorem scanField_skipSpaces (W : Nat) {ds t : Text} (hds : ∀ x ∈ ds, isDigitChar x = true)
    (hempty : ds = [] → BeginsOff isDigitChar (skipSpaces t)) (hfull : ds ≠ [] → BeginsOff isDigitChar t) :
    let r := scanField W (skipSpaces (ds ++ t))
    r.1 = digitsValue ds % 10 ^ W ∧ skipSpaces r.2 = skipSpaces t := by
  by_cases hne : ds = []
  · subst hne
    have hscan := scanField_digits W [] hds (skipSpaces t) (hempty rfl)
    simp only [List.nil_append] at hscan ⊢
    rw [hscan]
    exact ⟨rfl, skipSpaces_skipSpaces t⟩
  · rw [skipSpaces_digits hne hds, scanField_digits W ds hds t (hfull hne)]
    exact ⟨rfl, rfl⟩

/-- The end of a text: spaces, an optional marker, anything. -/
def tailText (d : Nat) (back : Option Sign) (rest : Text) : Text :=
  List.replicate d space ++ markText back ++ rest

section
variable {d : Nat} {back : Option Sign} {rest : Text} {P : Prop} (h : back = none → endsScan P rest)
include h

/-- Behind the spaces of a text's end stands its marker, or what ends the scan. -/
theorem skipSpaces_tailText : skipSpaces (tailText d back rest) = markText back ++ rest := by
  rw [tailText, List.append_assoc, skipSpaces_spaces]
  cases back with
  | none =>
    cases rest with
    | nil => rfl
    | cons x xs => exact skipSpaces_cons (h rfl).1 xs
  | some sg => cases sg <;> exact skipSpaces_cons (by decide) _

theorem tailText_beginsOff_digit (hp : P → 0 < d) : BeginsOff isDigitChar (tailText d back rest) :=
  trailing_not_digit d back rest h hp

theorem skipSpaces_tailText_beginsOff_digit (hp : ¬ P) :
    BeginsOff isDigitChar (skipSpaces (tailText d back rest)) := by
  rw [skipSpaces_tailText h]
  exact trailing_not_digit 0 back rest h fun hP => absurd hP hp

theorem scanSign_tailText (sg : Sign) :
    (scanSign sg (skipSpaces (tailText d back rest))).1 = back.getD sg := by
  rw [tailText, scanSign_trailing d back rest sg h]
  cases back <;> rfl

end

/-- The last field of a text, before its end: a digit ends the scan only where the field is full and set off. -/
theorem scanField_last (W : Nat) {ds : Text} (hds : ∀ x ∈ ds, isDigitChar x = true) {d : Nat} {back : Option Sign}
    {rest : Text} (h : back = none → endsScan (ds ≠ [] ∧ 0 < d) rest) :
    let r := scanField W (skipSpaces (ds ++ tailText d back rest))
    r.1 = digitsValue ds % 10 ^ W ∧ skipSpaces r.2 = skipSpaces (tailText d back rest) :=
  scanField_skipSpaces W hds (fun he => skipSpaces_tailText_beginsOff_digit h fun hp => hp.1 he)
    fun _ => tailText_beginsOff_digit h fun hp => hp.2

theorem lastMark_eq (front back : Option Sign) : lastMark front back = back.getD (front.getD .pos) := by
  cases back <;> cases front <;> rfl

/-! ### PARSE (40_wordcodec.md R75) -/

/-- What stands behind the front of a signed decimal is no marker where the front has none. -/
theorem digits_tailText_beginsOff_marker {ds : Text} (hds : ∀ x ∈ ds, isDigitChar x = true) {d : Nat}
    {back : Option Sign} {rest : Text} (hback : ds = [] → back = none) {P : Prop}
    (h : back = none → endsScan P rest) : BeginsOff isMarker (skipSpaces (ds ++ tailText d back rest)) := by
  cases ds with
  | nil =>
    obtain rfl := hback rfl
    rw [List.nil_append, skipSpaces_tailText h]
    cases rest with
    | nil => exact beginsOff_nil _
    | cons x xs =>
      obtain ⟨_, hplus, hminus, _⟩ := h rfl
      exact beginsOff_cons.mpr (by simp [isMarker, hplus, hminus])
  | cons x xs =>
    obtain ⟨_, hplus, hminus⟩ := digit_not_marker x (hds x (by simp))
    rw [skipSpaces_digits (by simp) hds]
    exact beginsOff_cons.mpr (by simp [isMarker, hplus, hminus])

/-- Settles O11: front, digits and end of the text are scanned in turn. -/
theorem parseReadsSignedDecimal : Obligations.ParseReadsSignedDecimal := by
  intro s a b d front back ds rest hback hds hrest
  have hfront := scanSign_front a b front (t := ds ++ tailText d back rest) fun hf =>
    digits_tailText_beginsOff_marker hds (fun he => hback he hf) hrest
  have hlast := scanField_last 10 hds hrest
  have hsign := scanSign_tailText (d := d) hrest (front.getD .pos)
  have hparse : parseSigned (List.replicate a space ++ markText front ++ List.replicate b space
      ++ (ds ++ tailText d back rest)) = ⟨lastMark front back, digitsValue ds % 10 ^ 10⟩ := by
    simp only [parseSigned, hfront, hlast, hsign, lastMark_eq]
  rw [← hparse, tailText]
  simp only [List.append_assoc]
  rfl

/-! ### The mnemonic form of PARSEW (42_instructioncodec.md R107) -/

theorem scanName_append {name t : Text} (hname : ∀ x ∈ name, isLetterOrDigit x = true)
    (ht : BeginsOff isLetterOrDigit t) : scanName (name ++ t) = name ∧ afterName (name ++ t) = t := by
  have hnil : t.takeWhile isLetterOrDigit = [] ∧ t.dropWhile isLetterOrDigit = t := by
    cases t with
    | nil => exact ⟨rfl, rfl⟩
    | cons x xs => simp [beginsOff_cons.mp ht]
  rw [scanName, afterName, List.takeWhile_append_of_pos hname, List.dropWhile_append_of_pos hname, hnil.1, hnil.2]
  exact ⟨List.append_nil name, rfl⟩

/-- A letter or a digit is no space and no marker. -/
theorem letterOrDigit_not_marker (x : Ch) (h : isLetterOrDigit x = true) : x ≠ space ∧ isMarker x = false := by
  revert h; revert x; decide

/-- A mnemonic is a non-empty run of letters and digits (10_state.md R21 condition 3). -/
theorem mnemonicOk_letters {t : Text} (h : mnemonicOk t = true) : t ≠ [] ∧ ∀ x ∈ t, isLetterOrDigit x = true := by
  cases t with
  | nil => cases h
  | cons x xs =>
    simp only [mnemonicOk, Bool.and_eq_true, List.all_eq_true, Bool.or_eq_true] at h
    obtain ⟨⟨hx, hxs⟩, _⟩ := h
    refine ⟨by simp, fun y hy => ?_⟩
    rcases List.mem_cons.mp hy with rfl | hy
    · simp [isLetterOrDigit, hx]
    · rcases hxs y hy with h | h <;> simp [isLetterOrDigit, h]

theorem skipSpaces_letters {name : Text} (hne : name ≠ []) (hname : ∀ x ∈ name, isLetterOrDigit x = true) (t : Text) :
    skipSpaces (name ++ t) = name ++ t := by
  cases name with
  | nil => exact absurd rfl hne
  | cons x xs => exact skipSpaces_cons (letterOrDigit_not_marker x (hname x (by simp))).1 _

theorem letters_beginsOff_marker {name : Text} (hne : name ≠ []) (hname : ∀ x ∈ name, isLetterOrDigit x = true)
    (t : Text) : BeginsOff isMarker (name ++ t) := by
  cases name with
  | nil => exact absurd rfl hne
  | cons x xs => exact beginsOff_cons.mpr (letterOrDigit_not_marker x (hname x (by simp))).2

/-- Spaces set what stands before them off from what stands behind. -/
theorem beginsOff_spaces {p : Ch → Bool} (hp : p space = false) {n : Nat} {t : Text} (h : n = 0 → BeginsOff p t) :
    BeginsOff p (List.replicate n space ++ t) := by
  cases n with
  | zero => exact h rfl
  | succ n => exact beginsOff_cons.mpr hp

theorem beginsOff_of_head {p : Ch → Bool} {t : Text} (h : ∀ x ∈ t.head?, p x = false) : BeginsOff p t := by
  rintro x xs rfl
  exact h x rfl

theorem beginsOff_of_scanName {t : Text} (h : scanName t = []) : BeginsOff isLetterOrDigit t := by
  rintro x xs rfl
  by_contra hx
  simp [scanName, hx] at h

/-- What stands behind a mnemonic: spaces, a field or none, spaces, a field or none, and the end of the text. -/
def fieldsText (p : Nat) (ds : Text) (q : Nat) (es tail : Text) : Text :=
  List.replicate p space ++ (ds ++ (List.replicate q space ++ (es ++ tail)))

section
variable {p q r : Nat} {ds es rest : Text} {back : Option Sign}

/-- The name ends where the mnemonic does: a field is set off by spaces, and without one the end of the text begins
with no letter or digit. -/
theorem fieldsText_beginsOff_letter (hp : ds ≠ [] → 0 < p) (hq : es ≠ [] → ds ≠ [] ∧ 0 < q)
    (h : back = none → p = 0 → q = 0 → r = 0 → scanName rest = []) :
    BeginsOff isLetterOrDigit (fieldsText p ds q es (tailText r back rest)) := by
  refine beginsOff_spaces (by decide) fun hp0 => ?_
  obtain rfl : ds = [] := by_contra fun hne => absurd (hp hne) (by omega)
  obtain rfl : es = [] := by_contra fun hne => (hq hne).1 rfl
  rw [List.nil_append, List.nil_append, tailText, List.append_assoc]
  refine beginsOff_spaces (by decide) fun hq0 => beginsOff_spaces (by decide) fun hr0 => ?_
  cases back with
  | none => exact beginsOff_of_scanName (h rfl hp0 hq0 hr0)
  | some sg => cases sg <;> exact beginsOff_cons.mpr (by decide)

/-- The first field. Where it is missing so is the second, and the scan goes on at the end of the text. -/
theorem scanField_first (hds : ∀ x ∈ ds, isDigitChar x = true) (hq : es ≠ [] → ds ≠ [] ∧ 0 < q)
    (h : back = none → endsScan (es ≠ [] ∧ 0 < r) rest) :
    let f := scanField 4 (skipSpaces (fieldsText p ds q es (tailText r back rest)))
    f.1 = digitsValue ds % 10 ^ 4 ∧ skipSpaces f.2 = skipSpaces (es ++ tailText r back rest) := by
  rw [fieldsText, skipSpaces_spaces, ← skipSpaces_spaces q (es ++ tailText r back rest)]
  refine scanField_skipSpaces 4 hds (fun hempty => ?_) fun _ => beginsOff_spaces (by decide) fun hq0 => ?_
  · obtain rfl : es = [] := by_contra fun hne => (hq hne).1 hempty
    rw [skipSpaces_spaces]
    exact skipSpaces_tailText_beginsOff_digit h fun hP => hP.1 rfl
  · obtain rfl : es = [] := by_contra fun hne => absurd (hq hne).2 (by omega)
    exact tailText_beginsOff_digit h fun hP => hP.2

end

/-- A field of four digits is packed as it is (30_encoding.md R55). -/
theorem packFields_of_lt {op : Nat} (hop : op < 100) (da ia : Nat) (sg : Sign) :
    packFields op (da % 10 ^ 4) (ia % 10 ^ 4) sg = ⟨sg, op * 10 ^ 8 + da % 10 ^ 4 * 10 ^ 4 + ia % 10 ^ 4⟩ := by
  simp only [packFields, Word.mk.injEq, true_and]
  omega

theorem parseMnemonic_known {cfg : Config} (hok : configOk cfg = true) {e : MnemonicEntry} (he : e ∈ cfg.mnemonics)
    (a b p q r : Nat) (front back : Option Sign) {ds es rest : Text} (hp : ds ≠ [] → 0 < p)
    (hds : ∀ x ∈ ds, isDigitChar x = true) (hq : es ≠ [] → ds ≠ [] ∧ 0 < q) (hes : ∀ x ∈ es, isDigitChar x = true)
    (hend : back = none → endsScan (es ≠ [] ∧ 0 < r) rest)
    (hname : back = none → p = 0 → q = 0 → r = 0 → scanName rest = []) :
    parseMnemonic cfg (List.replicate a space ++ markText front ++ List.replicate b space
        ++ (e.mnemonic ++ fieldsText p ds q es (tailText r back rest))) =
      .ok ⟨lastMark front back, e.opcode * 10 ^ 8 + digitsValue ds % 10 ^ 4 * 10 ^ 4 + digitsValue es % 10 ^ 4⟩ := by
  obtain ⟨hne, hletters⟩ := mnemonicOk_letters (mnemonicOk_of_mem hok he)
  have hskip := skipSpaces_letters hne hletters (fieldsText p ds q es (tailText r back rest))
  have hfront := scanSign_front a b front fun _ => hskip ▸ letters_beginsOff_marker hne hletters _
  have hscan := scanName_append hletters (fieldsText_beginsOff_letter hp hq hname)
  have hfirst := scanField_first (p := p) hds hq hend
  have hlast := scanField_last 4 hes hend
  have hsign := scanSign_tailText (d := r) hend (front.getD .pos)
  simp only [parseMnemonic, hfront, hskip, hscan, lookupMnemonic_of_mem cfg hok e he, hfirst, hlast, hsign,
    packFields_of_lt (opcode_lt_of_mem hok he), lastMark_eq]

theorem parseMnemonic_unknown {cfg : Config} (a b : Nat) (front : Option Sign) {name rest : Text}
    (hname : ∀ x ∈ name, isLetterOrDigit x = true) (hrest : BeginsOff isLetterOrDigit rest)
    (hempty : name = [] → skipSpaces rest = rest ∧ (front = none → BeginsOff isMarker rest))
    (hno : ∀ e ∈ cfg.mnemonics, e.mnemonic ≠ name) :
    parseMnemonic cfg (List.replicate a space ++ markText front ++ List.replicate b space ++ (name ++ rest)) =
      .error name := by
  have hnone : lookupMnemonic cfg name = none := by simpa [lookupMnemonic] using hno
  have hbody : skipSpaces (name ++ rest) = name ++ rest ∧ (front = none → BeginsOff isMarker (name ++ rest)) := by
    by_cases hne : name = []
    · subst hne; exact hempty rfl
    · exact ⟨skipSpaces_letters hne hname rest, fun _ => letters_beginsOff_marker hne hname rest⟩
  obtain ⟨hskip, hmark⟩ := hbody
  have hfront := scanSign_front a b front (t := name ++ rest) (by rwa [hskip])
  simp only [parseMnemonic, hfront, hskip, scanName_append hname hrest, hnone]

/-- Settles O28: the text of a table mnemonic is scanned part by part, and a name of no entry is not looked past. -/
theorem mnemonicTextAssembles : Obligations.MnemonicTextAssembles := by
  refine ⟨?_, ?_⟩
  · intro s e a b p q r front back ds es rest hok he hp hds hq hes hrest
    have hparse := parseMnemonic_known hok he a b p q r front back hp hds hq hes (fun hb => (hrest hb).1)
      fun hb => (hrest hb).2
    simp only [fieldsText, tailText, ← List.append_assoc] at hparse
    simp only [exec, execParsew, hparse]
    rfl
  · intro s a b front name rest hname hrest hempty hno
    have hparse := parseMnemonic_unknown a b front hname (beginsOff_of_head hrest) (fun he => ?_) hno
    · simp only [← List.append_assoc] at hparse
      simp only [exec, execParsew, hparse]
      rfl
    · cases rest with
      | nil => exact ⟨rfl, fun _ => beginsOff_nil _⟩
      | cons x xs =>
        obtain ⟨hspace, hmark⟩ := hempty he x rfl
        refine ⟨skipSpaces_cons hspace xs, fun hf => beginsOff_cons.mpr ?_⟩
        obtain ⟨hplus, hminus⟩ := hmark hf
        simp [isMarker, hplus, hminus]

end Sys2Proof.Machine
end

section
/-! The command line (spec/30_encoding.md R62, R63; spec/60_exceptions.md R147) and the partition SPLIT's count asks
for (spec/43_deckstore.md R124). -/

namespace Sys2Proof.Machine

/-- Settles O45: both counts are taken from `min n total`. -/
theorem splitCountsPartition : Obligations.SplitCountsPartition := by
  intro n total
  refine ⟨rfl, rfl, fun tail => ?_, ?_, ?_⟩
  · cases tail <;> simp only [splitCounts, if_true, Bool.false_eq_true, if_false] <;> omega
  · simp [splitCounts]
  · simp [splitCounts]

/-- Settles O52: the operation's own error runs the abort sequence, which with no handle open releases none; a line
that is no operation raises the error plainly. -/
theorem malformedArgumentOutcome : Obligations.MalformedArgumentOutcome := by
  refine ⟨fun s dest quiet hh => abort_malformedArgument s hh, fun s l sink2 rest hp hd => ?_⟩
  exact (step_request s _ rest hp).trans (serve_error (.line l sink2) .malformedLine _ hd)

/-! ### Counts (30_encoding.md R62) -/

/-- A run of digits writes a number of at most as many digits. -/
theorem digitsValue_lt {ds : Text} (h : ∀ x ∈ ds, isDigitChar x = true) : digitsValue ds < 10 ^ ds.length := by
  induction ds using List.reverseRecOn with
  | nil => decide
  | append_singleton ds x ih =>
    have hx : x.toNat ≤ 57 := by
      have := h x (by simp)
      simp only [isDigitChar, Bool.and_eq_true, decide_eq_true_eq] at this
      exact this.2
    have hds := ih fun y hy => h y (by simp [hy])
    rw [digitsValue] at hds
    rw [digitsValue, List.foldl_append, List.length_append, List.length_singleton, Nat.pow_succ]
    simp only [List.foldl_cons, List.foldl_nil]
    omega

/-- A count is an optional `-` and one to nine digits, and nothing else is (30_encoding.md R62). -/
theorem countSpec_eq_some {t : Text} {tail : Bool} {n : Nat} :
    countSpec t = some (tail, n) ↔ ∃ ds : Text, t = (if tail then [minusCh] else []) ++ ds ∧ 1 ≤ ds.length ∧
      ds.length ≤ 9 ∧ (∀ x ∈ ds, isDigitChar x = true) ∧ digitsValue ds = n := by
  constructor
  · intro h
    simp only [countSpec, Option.ite_none_right_eq_some, Option.some.injEq, Prod.mk.injEq, List.all_eq_true] at h
    obtain ⟨⟨h1, h9, hds⟩, htail, hn⟩ := h
    refine ⟨_, ?_, h1, h9, hds, hn⟩
    cases t with
    | nil => subst htail; rfl
    | cons x xs =>
      by_cases hx : x = minusCh
      · subst hx; subst htail; simp
      · subst htail; simp [hx]
  · rintro ⟨ds, rfl, h1, h9, hds, rfl⟩
    have hhead : (((if tail then [minusCh] else []) ++ ds).head? == some minusCh) = tail := by
      cases tail with
      | true => rfl
      | false =>
        cases ds with
        | nil => rfl
        | cons x xs => simpa using (digit_not_marker x (hds x (by simp))).2.2
    have hrest : (if tail then ((if tail then [minusCh] else []) ++ ds).tail
        else (if tail then [minusCh] else []) ++ ds) = ds := by cases tail <;> rfl
    simp only [countSpec, hhead, hrest, List.all_eq_true]
    rw [if_pos ⟨h1, h9, hds⟩]

/-! ### The arguments of JOIN (30_encoding.md R63) -/

/-- The arguments of JOIN are one source or more, `AS`, and a destination that is not `AS`. -/
theorem joinArgs_eq_some {args sources : List Text} {dest : Text} :
    joinArgs args = some (sources, dest) ↔ args = sources ++ [asToken, dest] ∧ sources ≠ [] ∧ dest ≠ asToken := by
  constructor
  · intro h
    unfold joinArgs at h
    split at h
    next d kw ss hrev =>
      simp only [Option.ite_none_right_eq_some, Option.some.injEq, Prod.mk.injEq] at h
      obtain ⟨⟨rfl, hd, hss⟩, rfl, rfl⟩ := h
      refine ⟨?_, by simpa using hss, hd⟩
      rw [← List.reverse_reverse args, hrev]
      simp
    next => cases h
  · rintro ⟨rfl, hss, hd⟩
    simp [joinArgs, hss, hd]

/-! ### Lines (30_encoding.md R63) -/

/-- The first words of a line: `-Q` or none. -/
def quietWords (quiet : Bool) : List Text := if quiet then [quietToken] else []

/-- The operation that a line's words name, before the lengths of the names are looked at. -/
theorem verbLine_of_lineOf {quiet : Bool} {ts : List Text} {l : Text} (sink2 : Bool)
    (hl : lineOf (quietWords quiet ++ ts) l) (hts : quiet = false → ts.head? ≠ some quietToken) :
    (verbLine ts quiet sink2 = none → decodeLine l sink2 = .error .malformedLine) ∧
      ∀ i, verbLine ts quiet sink2 = some i → i.wellFormed = true → decodeLine l sink2 = .ok i := by
  have htokens := tokens_lineOf _ _ hl
  have hquiet : ((quietWords quiet ++ ts).head? == some quietToken) = quiet := by
    cases quiet with
    | true => rfl
    | false => simpa [quietWords] using hts rfl
  have hrest : (if quiet then (quietWords quiet ++ ts).tail else quietWords quiet ++ ts) = ts := by
    cases quiet <;> rfl
  refine ⟨fun h => ?_, fun i h hi => ?_⟩
  · simp only [decodeLine, htokens, hquiet, hrest, h]
  · simp only [decodeLine, htokens, hquiet, hrest, h, if_pos hi]

section
variable {quiet : Bool} {verb : Text} {args : List Text} {l : Text} (sink2 : Bool)
  (hl : lineOf (quietWords quiet ++ verb :: args) l) (hverb : quiet = false → verb ≠ quietToken)
include hl hverb

theorem decodeLine_verb {i : Instr} (h : verbArgs verb args quiet sink2 = some i) (hi : i.wellFormed = true) :
    decodeLine l sink2 = .ok i :=
  (verbLine_of_lineOf sink2 hl fun hq => by simpa using hverb hq).2 i h hi

theorem decodeLine_malformed (h : verbArgs verb args quiet sink2 = none) :
    decodeLine l sink2 = .error .malformedLine :=
  (verbLine_of_lineOf sink2 hl fun hq => by simpa using hverb hq).1 h

end

/-! ### The operation of each verb -/

section
variable (args : List Text) (quiet sink2 : Bool)

theorem verbArgs_split_four (c s d1 d2 : Text) :
    verbArgs splitToken [c, s, d1, d2] quiet sink2 = (countSpec c).map fun k => .split k.1 k.2 s d1 d2 quiet := rfl

theorem verbArgs_split_none (h : args.length ≠ 4) : verbArgs splitToken args quiet sink2 = none := by
  unfold verbArgs
  rw [if_pos rfl]
  split
  · exact absurd rfl h
  · rfl

theorem verbArgs_join :
    verbArgs joinToken args quiet sink2 = (joinArgs args).map fun a => .join a.1 a.2 quiet := by
  unfold verbArgs
  rw [if_neg (by decide), if_pos rfl]

theorem verbArgs_print_one (s : Text) : verbArgs printToken [s] quiet sink2 = some (.print s quiet sink2) := rfl

theorem verbArgs_print_none (h : args.length ≠ 1) : verbArgs printToken args quiet sink2 = none := by
  unfold verbArgs
  rw [if_neg (by decide), if_neg (by decide), if_pos rfl]
  split
  · exact absurd rfl h
  · rfl

theorem verbArgs_other {verb : Text} (hs : verb ≠ splitToken) (hj : verb ≠ joinToken) (hp : verb ≠ printToken) :
    verbArgs verb args quiet sink2 = none := by
  unfold verbArgs
  rw [if_neg hs, if_neg hj, if_neg hp]

end

/-! ### The lines of each verb -/

theorem fits_of_length {t : Text} (h : t.length ≤ 80) : Text.fits t = true := by simpa [Text.fits, textMax] using h

section
variable {quiet : Bool} {l : Text} (sink2 : Bool)

theorem decodeLine_split {tail : Bool} {ds n1 n2 n3 : Text} (h1 : 1 ≤ ds.length) (h9 : ds.length ≤ 9)
    (hds : ∀ x ∈ ds, isDigitChar x = true) (hnames : ∀ n ∈ [n1, n2, n3], n.length ≤ 80)
    (hl : lineOf (quietWords quiet ++ [splitToken, (if tail then [minusCh] else []) ++ ds, n1, n2, n3]) l) :
    decodeLine l sink2 = .ok (.split tail (digitsValue ds) n1 n2 n3 quiet) := by
  have hcount : countSpec ((if tail then [minusCh] else []) ++ ds) = some (tail, digitsValue ds) :=
    countSpec_eq_some.mpr ⟨ds, rfl, h1, h9, hds, rfl⟩
  have hvalue : digitsValue ds < 2 ^ 32 :=
    (digitsValue_lt hds).trans ((Nat.pow_le_pow_right (by decide) h9).trans_lt (by decide))
  refine decodeLine_verb sink2 hl (fun _ => by decide) (by rw [verbArgs_split_four, hcount]; rfl) ?_
  simp only [List.mem_cons, List.not_mem_nil, or_false, forall_eq_or_imp, forall_eq] at hnames
  obtain ⟨hn1, hn2, hn3⟩ := hnames
  simp only [Instr.wellFormed, Bool.and_eq_true, decide_eq_true_eq]
  exact ⟨⟨⟨hvalue, fits_of_length hn1⟩, fits_of_length hn2⟩, fits_of_length hn3⟩

theorem decodeLine_join {sources : List Text} {dest : Text} (hne : sources ≠ []) (hdest : dest ≠ asToken)
    (hnames : ∀ n ∈ dest :: sources, n.length ≤ 80)
    (hl : lineOf (quietWords quiet ++ joinToken :: (sources ++ [asToken, dest])) l) :
    decodeLine l sink2 = .ok (.join sources dest quiet) := by
  have hargs := joinArgs_eq_some.mpr ⟨rfl, hne, hdest⟩
  refine decodeLine_verb sink2 hl (fun _ => by decide) (by rw [verbArgs_join, hargs]; rfl) ?_
  simp only [List.mem_cons, forall_eq_or_imp] at hnames
  simp only [Instr.wellFormed, Bool.and_eq_true, List.all_eq_true]
  exact ⟨fun n hn => fits_of_length (hnames.2 n hn), fits_of_length hnames.1⟩

theorem decodeLine_print {n : Text} (hn : n.length ≤ 80) (hl : lineOf (quietWords quiet ++ [printToken, n]) l) :
    decodeLine l sink2 = .ok (.print n quiet sink2) :=
  decodeLine_verb sink2 hl (fun _ => by decide) (verbArgs_print_one quiet sink2 n) (fits_of_length hn)

theorem decodeLine_noVerb (hl : lineOf (quietWords quiet) l) : decodeLine l sink2 = .error .malformedLine :=
  (verbLine_of_lineOf (ts := []) sink2 (by rwa [List.append_nil]) (by simp)).1 rfl

theorem decodeLine_split_badCount {count n1 n2 n3 : Text}
    (hbad : ∀ (tail : Bool) (ds : Text), count = (if tail then [minusCh] else []) ++ ds → 1 ≤ ds.length →
      ds.length ≤ 9 → ∃ x ∈ ds, isDigitChar x = false)
    (hl : lineOf (quietWords quiet ++ [splitToken, count, n1, n2, n3]) l) :
    decodeLine l sink2 = .error .malformedLine := by
  refine decodeLine_malformed sink2 hl (fun _ => by decide) ?_
  rw [verbArgs_split_four, Option.map_eq_none_iff, Option.eq_none_iff_forall_ne_some]
  rintro ⟨tail, n⟩ hcount
  obtain ⟨ds, hds, h1, h9, hdigits, _⟩ := countSpec_eq_some.mp hcount
  obtain ⟨x, hx, hxd⟩ := hbad tail ds hds h1 h9
  simp [hdigits x hx] at hxd

theorem decodeLine_join_badArgs {args : List Text}
    (hbad : ∀ (sources : List Text) (dest : Text), args = sources ++ [asToken, dest] →
      sources = [] ∨ dest = asToken)
    (hl : lineOf (quietWords quiet ++ joinToken :: args) l) : decodeLine l sink2 = .error .malformedLine := by
  refine decodeLine_malformed sink2 hl (fun _ => by decide) ?_
  rw [verbArgs_join, Option.map_eq_none_iff, Option.eq_none_iff_forall_ne_some]
  rintro ⟨sources, dest⟩ hargs
  obtain ⟨hsplit, hne, hdest⟩ := joinArgs_eq_some.mp hargs
  exact (hbad sources dest hsplit).elim hne hdest

end

/-- Settles O53: the words of the line are its tokens, and each verb accepts the arguments its grammar names and no
others. -/
theorem commandLinesDecode : Obligations.CommandLinesDecode := fun quiet sink2 _ =>
  ⟨fun _ _ _ _ _ h1 h9 hds hnames hl => decodeLine_split sink2 h1 h9 hds hnames hl,
   fun _ _ hne hdest hnames hl => decodeLine_join sink2 hne hdest hnames hl,
   fun _ hn hl => decodeLine_print sink2 hn hl,
   fun hl => decodeLine_noVerb sink2 hl,
   fun _ args hs hj hp hverb hl =>
     decodeLine_malformed sink2 hl hverb (verbArgs_other args quiet sink2 hs hj hp),
   fun args hlen hl =>
     decodeLine_malformed sink2 hl (fun _ => by decide) (verbArgs_split_none args quiet sink2 hlen),
   fun _ _ _ _ hbad hl => decodeLine_split_badCount sink2 hbad hl,
   fun _ hbad hl => decodeLine_join_badArgs sink2 hbad hl,
   fun args hlen hl =>
     decodeLine_malformed sink2 hl (fun _ => by decide) (verbArgs_print_none args quiet sink2 hlen)⟩

end Sys2Proof.Machine
end

section
/-! WordCodec's laws (spec/40_wordcodec.md R70 to R72, R78, R79): the closed forms of EXTRACT, the round trip of FORMAT
and PARSE, and the fields and codes that repeated EXTRACTs peel. The count of an EXTRACT is read off the digit-group
laws of Laws/Codec.lean, and FORMAT's text is one of the texts `parseReadsSignedDecimal` reads. -/

namespace Sys2Proof.Machine

/-! ### EXTRACT (R72) -/

/-- EXTRACT answers what `extractDigits` peels, for a count it accepts. -/
theorem exec_extract_of_accepted (w : Word) {n : Int} (s : State) (hn : -9 ≤ n ∧ n ≤ 9) :
    exec (.extract w n) s = .next (s.withResult (.extracted (extractDigits w n).1 (extractDigits w n).2)) :=
  if_neg (by omega)

theorem exec_extract_of_refused (w : Word) {n : Int} (s : State) (hn : n < -9 ∨ 9 < n) :
    exec (.extract w n) s = .next (s.withRefusal .badDigitCount) :=
  if_pos hn

theorem exec_extract_leading {w : Word} (hw : w.WellFormed) {k : Nat} (h1 : 1 ≤ k) (h9 : k ≤ 9) (s : State) :
    exec (.extract w (k : Int)) s =
      .next (s.withResult (.extracted (w.mag / 10 ^ (10 - k)) ⟨w.sign, w.mag % 10 ^ (10 - k) * 10 ^ k⟩)) := by
  rw [exec_extract_of_accepted w s (by omega), extractDigits_leading w k hw h1 h9]

theorem exec_extract_trailing (w : Word) {k : Nat} (h1 : 1 ≤ k) (h9 : k ≤ 9) (s : State) :
    exec (.extract w (-(k : Int))) s =
      .next (s.withResult (.extracted (w.mag % 10 ^ k) ⟨w.sign, w.mag / 10 ^ k⟩)) := by
  rw [exec_extract_of_accepted w s (by omega), extractDigits_trailing w k h1]

theorem exec_extract_zero (w : Word) (s : State) :
    exec (.extract w 0) s = .next (s.withResult (.extracted 0 w)) := by
  rw [exec_extract_of_accepted w s (by omega), extractDigits_zero]

/-- Settles O7: one law per sign of the count, and the refusal of a count out of range. -/
theorem extractPeelsDigits : Obligations.ExtractPeelsDigits :=
  fun s w hw =>
    ⟨fun _ h1 h9 => exec_extract_leading hw h1 h9 s,
     fun _ h1 h9 => exec_extract_trailing w h1 h9 s,
     exec_extract_zero w s,
     fun _ hn => exec_extract_of_refused w s hn⟩

/-! ### Peeling fields (R78) -/

/-- EXTRACT of a word whose magnitude is a group of `k` digits before the rest: it answers the group, and the rest
moves to the front of the remainder. -/
theorem exec_extract_field {k : Nat} (h1 : 1 ≤ k) (h9 : k ≤ 9) {m g r : Nat} (hg : g < 10 ^ k)
    (hr : r < 10 ^ (10 - k)) (hm : m = g * 10 ^ (10 - k) + r) (sg : Sign) (s : State) :
    exec (.extract ⟨sg, m⟩ (k : Int)) s = .next (s.withResult (.extracted g ⟨sg, r * 10 ^ k⟩)) := by
  have hword : (⟨sg, m⟩ : Word).WellFormed := by
    calc m = 10 ^ (10 - k) * g + r := by rw [hm, Nat.mul_comm]
      _ < 10 ^ k * 10 ^ (10 - k) := Nat.mul_add_lt_mul_of_lt_of_lt hg hr
      _ = wordMod := by rw [← Nat.pow_add, Nat.add_sub_cancel' (by omega)]
  obtain ⟨hgroup, hrest⟩ : m / 10 ^ (10 - k) = g ∧ m % 10 ^ (10 - k) = r :=
    (Nat.div_mod_unique (by positivity)).mpr ⟨by rw [hm, Nat.mul_comm, Nat.add_comm], hr⟩
  rw [exec_extract_leading hword h1 h9, hgroup, hrest]

/-- EXTRACT by 2 of a word that begins with an operation code or a CharCode. -/
theorem exec_extract_two {m g r : Nat} (hg : g ≤ 99) (hr : r < 10 ^ 8) (hm : m = g * 10 ^ 8 + r) (sg : Sign)
    (s : State) : exec (.extract ⟨sg, m⟩ 2) s = .next (s.withResult (.extracted g ⟨sg, r * 10 ^ 2⟩)) :=
  exec_extract_field (k := 2) (by omega) (by omega) (by omega) hr hm sg s

/-- EXTRACT by 4 of a word that begins with an address. -/
theorem exec_extract_four {m g r : Nat} (hg : g ≤ 9999) (hr : r < 10 ^ 6) (hm : m = g * 10 ^ 6 + r) (sg : Sign)
    (s : State) : exec (.extract ⟨sg, m⟩ 4) s = .next (s.withResult (.extracted g ⟨sg, r * 10 ^ 4⟩)) :=
  exec_extract_field (k := 4) (by omega) (by omega) (by omega) hr hm sg s

/-- PACK of fields that fit their widths drops nothing. -/
theorem exec_pack_of_le {op da ia : Nat} (hop : op ≤ 99) (hda : da ≤ 9999) (hia : ia ≤ 9999) (sg : Sign)
    (s : State) :
    exec (.pack op da ia sg) s = .next (s.withResult (.word ⟨sg, op * 10 ^ 8 + da * 10 ^ 4 + ia⟩)) := by
  rw [(packReducesFields s op da ia sg).1, Nat.mod_eq_of_lt (by omega : op < 100),
    Nat.mod_eq_of_lt (by omega : da < 10000), Nat.mod_eq_of_lt (by omega : ia < 10000)]

/-- Settles O12: each EXTRACT answers the leading field and moves the fields behind it to the front, until the last
one leaves nothing. -/
theorem fieldPeelLaw : Obligations.FieldPeelLaw := by
  constructor
  · intro s op da ia sg hop hda hia
    refine ⟨_, _, _, rfl, exec_pack_of_le hop hda hia sg s,
      exec_extract_two (r := da * 10 ^ 4 + ia) hop ?_ ?_ sg s,
      exec_extract_four (r := ia * 10 ^ 2) hda ?_ ?_ sg s,
      exec_extract_four (r := 0) hia ?_ ?_ sg s⟩ <;> omega
  · intro s k0 k1 k2 k3 k4 sg h0 h1 h2 h3 h4
    refine ⟨_, _, _, _,
      exec_extract_two (r := k1 * 10 ^ 6 + k2 * 10 ^ 4 + k3 * 10 ^ 2 + k4) h0 ?_ ?_ sg s,
      exec_extract_two (r := k2 * 10 ^ 6 + k3 * 10 ^ 4 + k4 * 10 ^ 2) h1 ?_ ?_ sg s,
      exec_extract_two (r := k3 * 10 ^ 6 + k4 * 10 ^ 4) h2 ?_ ?_ sg s,
      exec_extract_two (r := k4 * 10 ^ 6) h3 ?_ ?_ sg s,
      exec_extract_two (r := 0) h4 ?_ ?_ sg s⟩ <;> omega

/-! ### FORMAT and PARSE (R79) -/

theorem exec_format_eq_iff {w : Word} {s : State} {t : Text} :
    exec (.format w) s = .next (s.withResult (.text t)) ↔ formatSigned w = t := by
  refine ⟨fun h => ?_, fun h => h ▸ rfl⟩
  have hstate : s.withResult (.text (formatSigned w)) = s.withResult (.text t) := Host.Outcome.next.inj h
  exact Port.text.inj (congrArg State.out hstate)

theorem exec_parse_eq_iff {t : Text} {s : State} {w : Word} :
    exec (.parse t) s = .next (s.withResult (.word w)) ↔ parseSigned t = w := by
  refine ⟨fun h => ?_, fun h => h ▸ rfl⟩
  have hstate : s.withResult (.word (parseSigned t)) = s.withResult (.word w) := Host.Outcome.next.inj h
  exact Port.word.inj (congrArg State.out hstate)

/-- PARSE keeps at most ten digits of any text, so what it reads is a word. -/
theorem parseSigned_wellFormed (t : Text) : (parseSigned t).WellFormed :=
  scanFieldFrom_lt 10 _ 0 (by norm_num)

/-- The glyph FORMAT writes is the marker PARSE reads. -/
theorem markText_some_eq_signGlyph (sg : Sign) : markText (some sg) = [signGlyph sg] := by
  cases sg <;> rfl

/-- The text of a word is ten digits and a trailing marker, which PARSE reads as R75 says. -/
theorem parseSigned_formatSigned {w : Word} (hw : w.WellFormed) : parseSigned (formatSigned w) = w := by
  have hne : renderDigits 10 w.mag ≠ [] := by simp [renderDigits]
  have hread := exec_parse_eq_iff.mp <|
    parseReadsSignedDecimal State.reset 0 0 0 none (some w.sign) (renderDigits 10 w.mag) []
      (fun he => absurd he hne) (renderDigits_digits 10 w.mag) nofun
  have hmag : digitsValue (renderDigits 10 w.mag) % 10 ^ 10 = w.mag := by
    rw [digitsValue_renderDigits, Nat.mod_mod]
    exact Nat.mod_eq_of_lt hw
  rw [hmag, markText_some_eq_signGlyph, List.append_nil, List.append_assoc] at hread
  exact hread

/-- Settles O10: PARSE is a left inverse of FORMAT on well-formed words, which also keeps the texts of the two zeros
apart; a text that FORMAT of its own parse gives back is the text of that parse. -/
theorem formatParseRoundTrip : Obligations.FormatParseRoundTrip := by
  refine ⟨fun s w hw => ?_, fun s heq => ?_, fun s t u w hparse hformat => ?_⟩
  · exact ⟨formatSigned w, rfl, exec_parse_eq_iff.mpr (parseSigned_formatSigned hw)⟩
  · have htext : formatSigned ⟨.neg, 0⟩ = formatSigned ⟨.pos, 0⟩ := exec_format_eq_iff.mp heq
    have hzeros : (⟨.neg, 0⟩ : Word) = ⟨.pos, 0⟩ := by
      rw [← parseSigned_formatSigned (w := ⟨.neg, 0⟩) (by decide), htext, parseSigned_formatSigned (by decide)]
    exact absurd hzeros (by decide)
  · obtain rfl := exec_parse_eq_iff.mp hparse
    obtain rfl := exec_format_eq_iff.mp hformat
    constructor
    · intro hsame
      exact ⟨parseSigned t, parseSigned_wellFormed t, exec_format_eq_iff.mpr hsame⟩
    · rintro ⟨v, hv, hwritten⟩
      obtain rfl := exec_format_eq_iff.mp hwritten
      rw [parseSigned_formatSigned hv]

end Sys2Proof.Machine
end

section
/-! CharCodec's laws (spec/41_charcodec.md R85, R86, R88, R90, R92 to R94) and the printed line
(spec/43_deckstore.md R127). Each operation's answer is said once, by what its lookup gives; the lookups are
characterised from Laws/Codec.lean and the conditions on the tables, and the laws of R88, R92 and R93 compose the two.
-/

namespace Sys2Proof.Machine

/-! ### CH2CODE (R85, R86) -/

theorem fold_eq_ite (x : Ch) : fold x = if 97 ≤ x.toNat ∧ x.toNat ≤ 122 then x - 32#7 else x := by
  simp [fold, isLower]

theorem exec_ch2code_eq_iff {x : Ch} {s : State} {k : Nat} :
    exec (.ch2code x) s = .next (s.withResult (.code k)) ↔ charToCode s.config x = k := by
  refine ⟨fun h => ?_, fun h => h ▸ rfl⟩
  have hstate : s.withResult (.code (charToCode s.config x)) = s.withResult (.code k) := Host.Outcome.next.inj h
  exact Port.code.inj (congrArg State.out hstate)

theorem charToCode_of_not_inRepertoire {cfg : Config} {x : Ch} (h : ¬ inRepertoire cfg (fold x) = true) :
    charToCode cfg x = 0 :=
  if_neg h

/-- The code of a repertoire character is the least one of its upper case (R86). -/
theorem charToCode_of_inRepertoire {cfg : Config} {x : Ch} (h : inRepertoire cfg (fold x) = true) :
    charToCode cfg x < 100 ∧ codeAt cfg (charToCode cfg x) = fold x ∧
      ∀ j, j < charToCode cfg x → codeAt cfg j ≠ fold x := by
  obtain ⟨_, hsome⟩ := Bool.and_eq_true_iff.mp h
  obtain ⟨k, hk⟩ := Option.isSome_iff_exists.mp hsome
  have hcode : charToCode cfg x = k := by rw [charToCode, if_pos h, hk, Option.getD_some]
  rw [hcode]
  exact codeOf_some cfg (fold x) k hk

/-- The least code of a character's upper case is its only candidate for CH2CODE's answer. -/
theorem charToCode_eq_of_least {cfg : Config} {x : Ch} {k : Nat} (hx : fold x ≠ placeholder) (hk : k < 100)
    (hat : codeAt cfg k = fold x) (hleast : ∀ j, j < k → codeAt cfg j ≠ fold x) : charToCode cfg x = k := by
  obtain ⟨_, hcode, hbelow⟩ := charToCode_of_inRepertoire ((inRepertoire_iff cfg (fold x)).mpr ⟨hx, k, hk, hat⟩)
  have hnotlt : ¬ charToCode cfg x < k := fun hlt => hleast _ hlt hcode
  have hnotgt : ¬ k < charToCode cfg x := fun hlt => hbelow _ hlt hat
  omega

/-- Settles O13: the premise on the upper-cased character is that it is in the repertoire. -/
theorem charCodeIsLeast : Obligations.CharCodeIsLeast := by
  intro s x
  simp only [← fold_eq_ite, true_and]
  refine ⟨charToCode s.config x, rfl, ?_⟩
  rw [← inRepertoire_iff]
  by_cases hrep : inRepertoire s.config (fold x) = true
  · obtain ⟨hlt, hcode, hbelow⟩ := charToCode_of_inRepertoire hrep
    exact ⟨hlt, fun _ => ⟨hcode, hbelow⟩, fun hno => absurd hrep hno⟩
  · rw [charToCode_of_not_inRepertoire hrep]
    exact ⟨by omega, fun hyes => absurd hyes hrep, fun _ => rfl⟩

/-! ### The code table (10_state.md R18) and CODE2CH after CH2CODE (R88) -/

/-- The conditions of a well-formed code table that the laws of CharCodec use (10_state.md R18). -/
theorem codeTable_of_configOk {c : Config} (h : configOk c = true) :
    codeAt c 0 = space ∧ (∀ k, k < 100 → isLower (codeAt c k) = false) ∧
      ∀ d, d ≤ 9 → BitVec.ofNat 7 (48 + d) ∈ c.codeTable.toList := by
  simp only [configOk, codeTableOk, Bool.and_eq_true, List.all_eq_true, List.mem_range, beq_iff_eq,
    Bool.not_eq_true', List.contains_iff_mem] at h
  obtain ⟨⟨⟨⟨⟨⟨⟨⟨hspace, hentry⟩, _⟩, hdigit⟩, _⟩, _⟩, _⟩, _⟩, _⟩ := h
  exact ⟨hspace, fun k hk => (hentry k hk).2, fun d hd => hdigit d (by omega)⟩

/-- An entry of a well-formed code table is its own upper case. -/
theorem fold_codeAt {c : Config} (h : configOk c = true) {k : Nat} (hk : k < 100) :
    fold (codeAt c k) = codeAt c k := by
  obtain ⟨_, hlower, _⟩ := codeTable_of_configOk h
  simp [fold, hlower k hk]

/-- Code 0 is the space's, so a placeholder's code is another. -/
theorem ne_zero_of_codeAt_eq_placeholder {c : Config} (h : configOk c = true) {k : Nat}
    (hk : codeAt c k = placeholder) : k ≠ 0 := by
  rintro rfl
  obtain ⟨hspace, _⟩ := codeTable_of_configOk h
  exact absurd (hspace.symm.trans hk) (by decide)

theorem charToCode_placeholder (cfg : Config) : charToCode cfg placeholder = 0 := by
  have hfold : fold placeholder = placeholder := by decide
  refine charToCode_of_not_inRepertoire fun hrep => ?_
  rw [hfold, inRepertoire_iff] at hrep
  exact hrep.1 rfl

/-- CH2CODE of the entry of code k gives the least code j of the same entry. -/
theorem charToCode_codeAt_of_least {c : Config} (h : configOk c = true) {j k : Nat} (hj : j < 100) (hk : k < 100)
    (hsame : codeAt c j = codeAt c k) (hne : codeAt c k ≠ placeholder)
    (hleast : ∀ i, i < j → codeAt c i ≠ codeAt c k) : charToCode c (codeAt c k) = j := by
  have hfold : fold (codeAt c k) = codeAt c k := fold_codeAt h hk
  exact charToCode_eq_of_least (by rwa [hfold]) hj (by rwa [hfold]) (by rwa [hfold])

/-- CH2CODE gives a code back exactly where its entry is no placeholder and it is the entry's least code. -/
theorem charToCode_codeAt_eq_self_iff {c : Config} (h : configOk c = true) {k : Nat} (hk : k < 100) :
    charToCode c (codeAt c k) = k ↔
      codeAt c k ≠ placeholder ∧ ∀ j, j < k → codeAt c j ≠ codeAt c k := by
  refine ⟨fun heq => ?_, fun ⟨hne, hleast⟩ => charToCode_codeAt_of_least h hk hk rfl hne hleast⟩
  have hne : codeAt c k ≠ placeholder := fun hp => by
    rw [hp, charToCode_placeholder] at heq
    exact ne_zero_of_codeAt_eq_placeholder h hp heq.symm
  have hfold : fold (codeAt c k) = codeAt c k := fold_codeAt h hk
  have hrep : inRepertoire c (fold (codeAt c k)) = true :=
    (inRepertoire_iff c _).mpr ⟨by rwa [hfold], k, hk, hfold.symm⟩
  obtain ⟨_, _, hleast⟩ := charToCode_of_inRepertoire hrep
  rw [heq, hfold] at hleast
  exact ⟨hne, hleast⟩

theorem exec_code2ch_of_lt {s : State} {k : Nat} (hk : k < 100) :
    exec (.code2ch k) s = .next (s.withResult (.char (codeAt s.config k))) :=
  if_pos hk

/-- Settles O15: CH2CODE gives the least code, so a code of CODE2CH comes back exactly where it is the least one. -/
theorem codeMappingLossyOneWay : Obligations.CodeMappingLossyOneWay := by
  refine fun s hok => ⟨fun x hrep => ?_, fun k hk _ hp => ?_, fun j k hjk hk hsame hne hleast => ?_, fun k hk => ?_⟩
  · obtain ⟨hlt, hcode, _⟩ := charToCode_of_inRepertoire hrep
    exact ⟨charToCode s.config x, rfl, by rw [exec_code2ch_of_lt hlt, hcode]⟩
  · exact ⟨by rw [exec_code2ch_of_lt hk, hp], exec_ch2code_eq_iff.mpr (charToCode_placeholder s.config)⟩
  · exact ⟨exec_code2ch_of_lt hk,
      exec_ch2code_eq_iff.mpr (charToCode_codeAt_of_least hok (by omega) hk hsame hne hleast)⟩
  · rw [exec_ch2code_eq_iff]
    exact charToCode_codeAt_eq_self_iff hok hk

/-! ### PUNCH2CH and CH2PUNCH (R90, R93) -/

theorem exec_ch2punch_eq (x : Ch) (s : State) :
    exec (.ch2punch x) s = .next (s.withResult (.mask (holAt s.config x))) := rfl

theorem exec_punch2ch_of_some {s : State} {m : Cell} {x : Ch} (h : punchToChar s.config m = some x) :
    exec (.punch2ch m) s = .next (s.withResult (.char x)) := by
  rw [exec, execPunch2ch, h]; rfl

theorem exec_punch2ch_of_none {s : State} {m : Cell} (h : punchToChar s.config m = none) :
    exec (.punch2ch m) s = .next (s.withError 0x08#8 (.invalidPunch m none)) := by
  rw [exec, execPunch2ch, h]; rfl

theorem exec_punch2ch_eq_iff {m : Cell} {s : State} {x : Ch} :
    exec (.punch2ch m) s = .next (s.withResult (.char x)) ↔ punchToChar s.config m = some x := by
  refine ⟨fun h => ?_, exec_punch2ch_of_some⟩
  cases hm : punchToChar s.config m with
  | some y =>
    rw [exec_punch2ch_of_some hm] at h
    have hstate : s.withResult (.char y) = s.withResult (.char x) := Host.Outcome.next.inj h
    exact congrArg some (Port.char.inj (congrArg State.out hstate))
  | none =>
    rw [exec_punch2ch_of_none hm] at h
    have hstate : s.withError 0x08#8 (.invalidPunch m none) = s.withResult (.char x) := Host.Outcome.next.inj h
    exact nomatch congrArg State.out hstate

/-- In a well-formed table a mask decodes to the one printable character that has it. -/
theorem punchToChar_eq_some_iff {c : Config} (h : configOk c = true) {m : Cell} {x : Ch} :
    punchToChar c m = some x ↔ isPrintable x = true ∧ holAt c x = m := by
  refine ⟨punchToChar_some c m x, fun ⟨hx, hm⟩ => ?_⟩
  cases hdecode : punchToChar c m with
  | some y =>
    obtain ⟨hy, hym⟩ := punchToChar_some c m y hdecode
    rw [holAt_injective c h y x hy hx (hym.trans hm.symm)]
  | none => exact absurd hm ((punchToChar_none c m).mp hdecode x hx)

theorem invalidPunch_upperBits : invalidPunch &&& 0xF000#16 ≠ 0#16 := by decide

/-- The controls and 127 have the invalid punch (10_state.md R19). -/
theorem holAt_of_control {c : Config} (h : configOk c = true) {x : Ch} (hx : x.toNat < 32 ∨ x = 127#7) :
    holAt c x = invalidPunch := by
  obtain ⟨hcontrol, h127, _⟩ := holAt_of_configOk h
  rcases hx with hx | rfl
  · exact hcontrol x hx
  · exact h127

/-- The printable characters are those whose mask is row bits alone. -/
theorem isPrintable_iff_rowBits {c : Config} (h : configOk c = true) {x : Ch} :
    isPrintable x = true ↔ holAt c x &&& 0xF000#16 = 0#16 := by
  obtain ⟨_, _, hrows, _⟩ := holAt_of_configOk h
  refine ⟨hrows x, fun hx => ?_⟩
  by_contra hno
  have hcontrol : x.toNat < 32 ∨ x = 127#7 := by
    simp only [isPrintable, Bool.and_eq_true, decide_eq_true_eq] at hno
    bv_omega
  rw [holAt_of_control h hcontrol] at hx
  exact invalidPunch_upperBits hx

/-- No printable character has a mask with a bit of 15 to 12 (R90). -/
theorem punchToChar_of_upperBits {c : Config} (h : configOk c = true) {m : Cell} (hm : m &&& 0xF000#16 ≠ 0#16) :
    punchToChar c m = none := by
  rw [punchToChar_none]
  rintro x hx rfl
  exact hm ((isPrintable_iff_rowBits h).mp hx)

/-- Settles O17: PUNCH2CH raises its error exactly where the lookup gives no character. -/
theorem punchToCharDecodes : Obligations.PunchToCharDecodes :=
  fun s m hok =>
    ⟨fun _ hx hm => exec_punch2ch_of_some ((punchToChar_eq_some_iff hok).mpr ⟨hx, hm⟩),
     fun hno => exec_punch2ch_of_none ((punchToChar_none s.config m).mpr hno),
     fun hm => exec_punch2ch_of_none (punchToChar_of_upperBits hok hm)⟩

/-- Settles O18: the lookup of a mask inverts the table on the printable characters, and the invalid punch, the mask
of every other character, is none of theirs. -/
theorem punchBijection : Obligations.PunchBijection := by
  intro s hok
  refine ⟨fun x hx => ?_, fun m x hdecode => ?_, fun x hx => ?_⟩
  · have hvalid : holAt s.config x ≠ invalidPunch := fun hinvalid =>
      invalidPunch_upperBits (hinvalid ▸ (isPrintable_iff_rowBits hok).mp hx)
    exact ⟨holAt s.config x, rfl, hvalid, exec_punch2ch_of_some ((punchToChar_eq_some_iff hok).mpr ⟨hx, rfl⟩)⟩
  · obtain ⟨_, hmask⟩ := (punchToChar_eq_some_iff hok).mp (exec_punch2ch_eq_iff.mp hdecode)
    rw [exec_ch2punch_eq, hmask]
  · exact ⟨by rw [exec_ch2punch_eq, holAt_of_control hok hx],
      exec_punch2ch_of_none (punchToChar_of_upperBits hok invalidPunch_upperBits)⟩

/-! ### Overprinting (R92) -/

/-- A zoned digit's mask is the digit's with its zone row (10_state.md R20 condition 4). -/
theorem overprint_of_configOk {c : Config} (h : configOk c = true) {d : Nat} (hd : d ≤ 9) :
    (∃ g, zoneAt c .plus d = some g ∧ holAt c g = holAt c (BitVec.ofNat 7 (48 + d)) ||| row12) ∧
      ∃ g, zoneAt c .minus d = some g ∧ holAt c g = holAt c (BitVec.ofNat 7 (48 + d)) ||| row11 := by
  simp only [configOk, zoneTableOk, Bool.and_eq_true, List.all_eq_true, List.mem_range, beq_iff_eq,
    Option.map_eq_some_iff] at h
  obtain ⟨⟨_, ⟨_, hoverprint⟩⟩, _⟩ := h
  exact hoverprint d (by omega)

/-- PUNCH2CH of a digit's mask with rows added gives the character that has that mask: it is row bits alone. -/
theorem exec_punch2ch_overprint {s : State} (h : configOk s.config = true) {d : Nat} (hd : d ≤ 9) {row : Cell}
    (hrow : row &&& 0xF000#16 = 0#16) {g : Ch}
    (hg : holAt s.config g = holAt s.config (BitVec.ofNat 7 (48 + d)) ||| row) :
    exec (.punch2ch (holAt s.config (BitVec.ofNat 7 (48 + d)) ||| row)) s = .next (s.withResult (.char g)) := by
  obtain ⟨_, _, _, _, hdigit⟩ := holAt_of_configOk h
  have hbit : rowBit d &&& 0xF000#16 = 0#16 := by interval_cases d <;> decide
  have hrows : holAt s.config g &&& 0xF000#16 = 0#16 := by
    rw [hg, hdigit d hd, BitVec.and_or_distrib_right, hbit, hrow, BitVec.or_zero]
  exact exec_punch2ch_of_some ((punchToChar_eq_some_iff h).mpr ⟨(isPrintable_iff_rowBits h).mpr hrows, hg⟩)

/-- Settles O20: condition 4 of the zone table gives the masks, and PUNCH2CH gives back the glyph that has one. -/
theorem overprintMasks : Obligations.OverprintMasks := by
  intro s d hok hd
  obtain ⟨hnone, _⟩ := zoneTable_of_configOk hok
  obtain ⟨⟨gp, hgp, hplus⟩, gm, hgm, hminus⟩ := overprint_of_configOk hok hd
  exact ⟨_, gp, gm, _, execDigzone_of_some (hnone d hd), execDigzone_of_some hgp, execDigzone_of_some hgm,
    exec_ch2punch_eq _ s, by rw [exec_ch2punch_eq, hplus], by rw [exec_ch2punch_eq, hminus],
    exec_punch2ch_overprint hok hd (by decide) hplus, exec_punch2ch_overprint hok hd (by decide) hminus⟩

/-! ### The printed line (43_deckstore.md R127) -/

/-- A character is stripped where it is a space and all that follows is. -/
theorem stripTrailing_cons (x : Ch) (t : Text) :
    stripTrailing (x :: t) = if stripTrailing t = [] ∧ x = space then [] else x :: stripTrailing t := by
  cases h : stripTrailing t <;> simp [stripTrailing, h]

theorem stripTrailing_length_le (t : Text) : (stripTrailing t).length ≤ t.length := by
  induction t with
  | nil => simp [stripTrailing]
  | cons x t ih =>
    rw [stripTrailing_cons]
    split
    · simp
    · simpa using ih

theorem stripTrailing_getLast?_ne_space (t : Text) : (stripTrailing t).getLast? ≠ some space := by
  induction t with
  | nil => simp [stripTrailing]
  | cons x t ih =>
    rw [stripTrailing_cons]
    split
    · simp
    next hkept =>
      cases hrest : stripTrailing t with
      | nil => simpa using fun hx => hkept ⟨hrest, hx⟩
      | cons y ys => rwa [List.getLast?_cons_cons, ← hrest]

/-- Read with a space past the end, a text is what is left of it without its trailing spaces. -/
theorem getD_stripTrailing (t : Text) (k : Nat) : (stripTrailing t).getD k space = t.getD k space := by
  induction t generalizing k with
  | nil => rfl
  | cons x t ih =>
    rw [stripTrailing_cons]
    split
    next hblank =>
      obtain ⟨hrest, rfl⟩ := hblank
      cases k with
      | zero => rfl
      | succ k => rw [List.getD_cons_succ, ← ih k, hrest]; rfl
    · cases k with
      | zero => rfl
      | succ k => rw [List.getD_cons_succ, List.getD_cons_succ, ih k]

theorem printRow_getD (cfg : Config) (r : Row) (k : Fin 80) :
    (printRow cfg r).getD k.val space = printChar cfg r[k] := by
  rw [printRow, getD_stripTrailing]
  simp

/-- Every digit is in the repertoire of a well-formed table (10_state.md R18). -/
theorem inRepertoire_digit {c : Config} (h : configOk c = true) {d : Nat} (hd : d ≤ 9) :
    inRepertoire c (BitVec.ofNat 7 (48 + d)) = true := by
  obtain ⟨_, _, hdigit⟩ := codeTable_of_configOk h
  obtain ⟨k, hk, hat⟩ := List.mem_iff_getElem.mp (hdigit d hd)
  have hk : k < 100 := by simpa using hk
  refine (inRepertoire_iff c _).mpr ⟨by bv_omega, k, hk, ?_⟩
  simpa [codeAt, Vector.getD, hk] using hat

/-- The zero that replaces `?` and `!` is in the repertoire, so it is not printed as a space. -/
theorem printChar_of_configOk {c : Config} (h : configOk c = true) (m : Cell) :
    printChar c m =
      if fold (m.setWidth 7) = ch '?' ∨ fold (m.setWidth 7) = ch '!' then ch '0'
      else if inRepertoire c (fold (m.setWidth 7)) then fold (m.setWidth 7) else space := by
  have hrep : inRepertoire c (ch '0') = true := inRepertoire_digit h (d := 0) (by omega)
  by_cases hzero : fold (m.setWidth 7) = ch '?' ∨ fold (m.setWidth 7) = ch '!'
  · simp only [printChar, if_pos hzero, hrep, if_true]
  · simp only [printChar, if_neg hzero]

/-- Settles O49: the row is mapped character by character, and stripping is unseen by a reader that takes a space
past the end. -/
theorem printRowSanitizes : Obligations.PrintRowSanitizes := by
  refine fun cfg r hok => ⟨?_, stripTrailing_getLast?_ne_space _, fun k => ?_⟩
  · have hlen := stripTrailing_length_le (r.toList.map (printChar cfg))
    simpa [printRow] using hlen
  · exact (printRow_getD cfg r k).trans (printChar_of_configOk hok r[k])

end Sys2Proof.Machine
end

section
/-! InstructionCodec's laws (spec/42_instructioncodec.md R102, R103, R108, R110 to R113). DISASM and ASM are said by
what the table lookups give, the mnemonic listing is read back by R107's law of its text, and the character form is
said place by place: the code at each place of a text, and the entry at each place of a word. -/

namespace Sys2Proof.Machine

/-! ### Lookups (R100, R101) -/

theorem lookupTag_of_mem {cfg : Config} (h : configOk cfg = true) {e : MnemonicEntry} (he : e ∈ cfg.mnemonics) :
    lookupTag cfg e.opcode = .known e.mnemonic := by
  rw [lookupTag, lookupOpcode_of_mem cfg h e he]

theorem lookupTag_of_no_entry {cfg : Config} {op : Nat} (hno : ∀ e ∈ cfg.mnemonics, e.opcode ≠ op) :
    lookupTag cfg op = .unknown op := by
  have hnone : lookupOpcode cfg op = none := by simpa [lookupOpcode] using hno
  rw [lookupTag, hnone]

/-! ### DISASM and ASM (R102, R103, R112) -/

/-- DISASM answers the three fields under the tag its opcode looks up. -/
theorem exec_disasm_eq {w : Word} (hw : w.WellFormed) (s : State) :
    exec (.disasm w) s = .next (s.withResult (.disassembled
      ⟨lookupTag s.config (w.mag / 10 ^ 8), w.mag / 10 ^ 8, w.mag / 10 ^ 4 % 10 ^ 4, w.mag % 10 ^ 4⟩)) := by
  rw [← disassemble_eq s.config w hw]
  rfl

/-- Settles O21: the tag is known exactly where the opcode has an entry. -/
theorem disassembleGivesFields : Obligations.DisassembleGivesFields := by
  refine fun s w hok hw => ⟨fun e he hop => ?_, fun hno => ?_⟩
  · rw [exec_disasm_eq hw, ← hop, lookupTag_of_mem hok he]
  · rw [exec_disasm_eq hw, lookupTag_of_no_entry hno]

/-- An opcode of a well-formed table fits its field, so packing reduces the addresses only. -/
theorem packFields_of_opcode_lt {op : Nat} (hop : op < 100) (da ia : Nat) (sg : Sign) :
    packFields op da ia sg = ⟨sg, op * 10 ^ 8 + da % 10000 * 10 ^ 4 + ia % 10000⟩ := by
  rw [packFields, Nat.mod_eq_of_lt hop]

/-- Settles O22: the mnemonic looks up its own entry, and a name of no entry looks up none. -/
theorem assembleByMnemonic : Obligations.AssembleByMnemonic := by
  refine fun s da ia sg hok => ⟨fun e he => ?_, fun name hno => ?_⟩
  · rw [← packFields_of_opcode_lt (opcode_lt_of_mem hok he)]
    simp only [exec, execAsm, lookupMnemonic_of_mem s.config hok e he]
    rfl
  · have hnone : lookupMnemonic s.config name = none := by simpa [lookupMnemonic] using hno
    simp only [exec, execAsm, hnone]
    rfl

/-- Settles O23: the fields of the assembled word are the opcode and the reduced addresses, and the opcode looks up the
entry it was taken from. -/
theorem assembleDisassembleRoundTrip : Obligations.AssembleDisassembleRoundTrip := by
  intro s da ia sg e hok he
  have hop : e.opcode < 100 := opcode_lt_of_mem hok he
  refine ⟨_, rfl, (assembleByMnemonic s da ia sg hok).1 e he, ?_, by omega, by omega⟩
  generalize hm : e.opcode * 10 ^ 8 + da % 10000 * 10 ^ 4 + ia % 10000 = m
  have hword : (⟨sg, m⟩ : Word).WellFormed := by simp only [Word.WellFormed, wordMod]; omega
  have hopcode : m / 10 ^ 8 = e.opcode := by omega
  have hdata : m / 10 ^ 4 % 10 ^ 4 = da % 10000 := by omega
  have hinstr : m % 10 ^ 4 = ia % 10000 := by omega
  rw [(disassembleGivesFields s _ hok hword).1 e he hopcode.symm]
  simp only [hopcode, hdata, hinstr]

/-! ### The mnemonic listing (R110) -/

theorem signGlyph_eq_ite (sg : Sign) : signGlyph sg = if sg = .pos then 43#7 else 45#7 := by
  cases sg <;> rfl

theorem fmtMnemonic_of_known {cfg : Config} {w : Word} (hw : w.WellFormed) {name : Text}
    (htag : lookupTag cfg (w.mag / 10 ^ 8) = .known name) :
    fmtMnemonic cfg w = name ++ [space] ++ renderDigits 4 (w.mag / 10 ^ 4 % 10 ^ 4) ++ [space]
      ++ renderDigits 4 (w.mag % 10 ^ 4) ++ [signGlyph w.sign] := by
  simp only [fmtMnemonic, disassemble_eq cfg w hw, htag]

theorem fmtMnemonic_of_unknown {cfg : Config} {w : Word} (hw : w.WellFormed) {op : Nat}
    (htag : lookupTag cfg (w.mag / 10 ^ 8) = .unknown op) :
    fmtMnemonic cfg w = unknownOpcodeText ++ renderDigits 2 op ++ [space] ++ renderDigits 4 (w.mag / 10 ^ 4 % 10 ^ 4)
      ++ [space] ++ renderDigits 4 (w.mag % 10 ^ 4) ++ [signGlyph w.sign] := by
  simp only [fmtMnemonic, disassemble_eq cfg w hw, htag]

/-- The listing of a table mnemonic is a text of R107 with single spaces and the marker at its end. -/
theorem exec_parsew_listing {s : State} (hok : configOk s.config = true) {e : MnemonicEntry}
    (he : e ∈ s.config.mnemonics) (da ia : Nat) (sg : Sign) :
    exec (.parsew (e.mnemonic ++ [space] ++ renderDigits 4 da ++ [space] ++ renderDigits 4 ia ++ [signGlyph sg])
      .mnemonic) s =
      .next (s.withResult (.word ⟨sg, e.opcode * 10 ^ 8 + da % 10 ^ 4 * 10 ^ 4 + ia % 10 ^ 4⟩)) := by
  have hfield : renderDigits 4 da ≠ [] := by simp [renderDigits]
  have hread := mnemonicTextAssembles.1 s e 0 0 1 1 0 none (some sg) (renderDigits 4 da) (renderDigits 4 ia) [] hok he
    (fun _ => one_pos) (renderDigits_digits 4 da) (fun _ => ⟨hfield, one_pos⟩) (renderDigits_digits 4 ia) nofun
  rw [digitsValue_renderDigits, digitsValue_renderDigits, Nat.mod_mod, Nat.mod_mod, markText_some_eq_signGlyph] at hread
  simpa only [List.replicate_zero, List.replicate_one, markText, List.nil_append, List.append_nil, lastMark] using hread

/-- Settles O26: the listing's fields are those DISASM gives, and PARSEW packs them again. -/
theorem mnemonicFormRoundTrip : Obligations.MnemonicFormRoundTrip := by
  intro s w e hok hw he hop
  have htag : lookupTag s.config (w.mag / 10 ^ 8) = .known e.mnemonic := hop ▸ lookupTag_of_mem hok he
  have hmag : e.opcode * 10 ^ 8 + w.mag / 10 ^ 4 % 10 ^ 4 % 10 ^ 4 * 10 ^ 4 + w.mag % 10 ^ 4 % 10 ^ 4 = w.mag := by
    omega
  rw [← signGlyph_eq_ite, exec_parsew_listing hok he, hmag, ← fmtMnemonic_of_known hw htag]
  exact ⟨rfl, rfl⟩

/-- The first word of an unknown opcode's listing (R110). -/
def unknownText : Text := [ch 'u', ch 'n', ch 'k', ch 'n', ch 'o', ch 'w', ch 'n']

/-- A mnemonic has no lowercase letter (10_state.md R21 condition 3). -/
theorem mnemonic_ne_unknownText {cfg : Config} (h : configOk cfg = true) {e : MnemonicEntry} (he : e ∈ cfg.mnemonics) :
    e.mnemonic ≠ unknownText :=
  fun heq => absurd (heq ▸ mnemonicOk_of_mem h he : mnemonicOk unknownText = true) (by decide)

/-- What begins with `unknown` and a space is assembled by no well-formed table. -/
theorem exec_parsew_unknownText {s : State} (hok : configOk s.config = true) (rest : Text) :
    exec (.parsew (unknownText ++ space :: rest) .mnemonic) s =
      .next (s.withError 0x02#8 (.unknownMnemonic unknownText)) :=
  mnemonicTextAssembles.2 s 0 0 none unknownText (space :: rest) (by decide) (by rintro _ ⟨⟩; rfl) nofun
    fun _ he => mnemonic_ne_unknownText hok he

/-- Settles O27: the listing begins with a word that no well-formed table has as a mnemonic. -/
theorem unknownOpcodeListing : Obligations.UnknownOpcodeListing := by
  refine fun s w hok hw hno => ⟨fmtMnemonic s.config w, rfl, ?_, ?_⟩
  · rw [← signGlyph_eq_ite]
    exact fmtMnemonic_of_unknown hw (lookupTag_of_no_entry hno)
  · rw [fmtMnemonic_of_unknown hw (lookupTag_of_no_entry hno)]
    exact exec_parsew_unknownText hok _

/-! ### Five codes in a word (R108) -/

/-- The magnitude of five two-digit codes, the first one leftmost. -/
def fiveCodes (k : Nat → Nat) : Nat := k 0 * 10 ^ 8 + k 1 * 10 ^ 6 + k 2 * 10 ^ 4 + k 3 * 10 ^ 2 + k 4

theorem forall_lt_five {p : Nat → Prop} (h : ∀ i, i < 5 → p i) : p 0 ∧ p 1 ∧ p 2 ∧ p 3 ∧ p 4 :=
  ⟨h 0 (by omega), h 1 (by omega), h 2 (by omega), h 3 (by omega), h 4 (by omega)⟩

section
variable {k : Nat → Nat} (hk : ∀ i, i < 5 → k i < 100)
include hk

theorem fiveCodes_lt : fiveCodes k < wordMod := by
  obtain ⟨h0, h1, h2, h3, h4⟩ := forall_lt_five hk
  simp only [fiveCodes, wordMod]
  omega

/-- The code `i` places from the right is read back by a shift of `i` places. -/
theorem fiveCodes_place {i : Nat} (hi : i < 5) : fiveCodes k / 100 ^ i % 100 = k (4 - i) := by
  obtain ⟨h0, h1, h2, h3, h4⟩ := forall_lt_five hk
  unfold fiveCodes
  interval_cases i <;> simp only [Nat.reduceSub] <;> omega

end

/-- A magnitude is the five codes read from it. -/
theorem fiveCodes_eq_of_places {k : Nat → Nat} {m : Nat} (hm : m < wordMod)
    (h : ∀ i, i < 5 → k (4 - i) = m / 100 ^ i % 100) : fiveCodes k = m := by
  obtain ⟨h0, h1, h2, h3, h4⟩ := forall_lt_five h
  simp only [Nat.reduceSub] at h0 h1 h2 h3 h4
  rw [fiveCodes, h0, h1, h2, h3, h4]
  unfold wordMod at hm
  omega

/-! ### PARSEW in character mode (R108) -/

/-- The code of the character at a place of a text; 0 for a missing one. -/
def codeOfPlace (cfg : Config) (t : Text) (i : Nat) : Nat := (t[i]?.map (charToCode cfg)).getD 0

theorem codeOfPlace_of_some {cfg : Config} {t : Text} {i : Nat} {x : Ch} (h : t[i]? = some x) :
    codeOfPlace cfg t i = charToCode cfg x := by
  rw [codeOfPlace, h, Option.map_some, Option.getD_some]

theorem codeOfPlace_of_none {cfg : Config} {t : Text} {i : Nat} (h : t[i]? = none) : codeOfPlace cfg t i = 0 := by
  rw [codeOfPlace, h, Option.map_none, Option.getD_none]

theorem codeOfPlace_tail (cfg : Config) (t : Text) (i : Nat) : codeOfPlace cfg t.tail i = codeOfPlace cfg t (i + 1) := by
  rw [codeOfPlace, List.getElem?_tail, codeOfPlace]

theorem charToCode_lt (cfg : Config) (x : Ch) : charToCode cfg x < 100 := by
  by_cases h : inRepertoire cfg (fold x) = true
  · exact (charToCode_of_inRepertoire h).1
  · rw [charToCode_of_not_inRepertoire h]
    omega

theorem codeOfPlace_lt (cfg : Config) (t : Text) (i : Nat) : codeOfPlace cfg t i < 100 := by
  cases hx : t[i]? with
  | none => rw [codeOfPlace_of_none hx]; omega
  | some x => rw [codeOfPlace_of_some hx]; exact charToCode_lt cfg x

/-- One round of `packCodes`, whether or not there is a character left. -/
theorem packCodes_succ (cfg : Config) (n m : Nat) (t : Text) :
    packCodes cfg (n + 1) m t = packCodes cfg n (m * 100 + codeOfPlace cfg t 0) t.tail := by
  cases t <;> rfl

theorem parseCharacter_eq (cfg : Config) (t : Text) : parseCharacter cfg t = ⟨.pos, fiveCodes (codeOfPlace cfg t)⟩ := by
  simp only [parseCharacter, packCodes_succ, codeOfPlace_tail, packCodes, fiveCodes, Nat.reduceAdd, Word.mk.injEq,
    true_and]
  omega

theorem exec_parsew_character (t : Text) (s : State) :
    exec (.parsew t .character) s = .next (s.withResult (.word ⟨.pos, fiveCodes (codeOfPlace s.config t)⟩)) := by
  rw [← parseCharacter_eq]
  rfl

/-- Settles O29: the codes are those of the five places of the text. -/
theorem characterTextPacks : Obligations.CharacterTextPacks := fun s t =>
  ⟨codeOfPlace s.config t,
    fun _ _ _ hx => exec_ch2code_eq_iff.mpr (codeOfPlace_of_some hx).symm,
    fun _ _ hx => codeOfPlace_of_none hx,
    exec_parsew_character t s⟩

/-! ### FMTW in character mode, and the round trip (R111, R113) -/

theorem peelCodes_length (cfg : Config) (n : Nat) (w : Word) : (peelCodes cfg n w).length = n := by
  induction n generalizing w with
  | zero => rfl
  | succ n ih => simp [peelCodes, ih]

/-- Peeling a code moves the codes behind it to the front, so the entries stand in the order of the word's places. -/
theorem peelCodes_getElem? (cfg : Config) {n i : Nat} {w : Word} (hw : w.WellFormed) (hi : i < n) (h5 : i < 5) :
    (peelCodes cfg n w)[i]? = some (codeAt cfg (w.mag / 100 ^ (4 - i) % 100)) := by
  induction n generalizing i w with
  | zero => omega
  | succ n ih =>
    have hmag : w.mag < 10000000000 := hw
    have hpeel : extractDigits w 2 = (w.mag / 10 ^ 8, ⟨w.sign, w.mag % 10 ^ 8 * 10 ^ 2⟩) :=
      extractDigits_leading w 2 hw (by omega) (by omega)
    simp only [peelCodes, hpeel]
    cases i with
    | zero =>
      have hfirst : w.mag / 10 ^ 8 = w.mag / 100 ^ 4 % 100 := by omega
      rw [List.getElem?_cons_zero, codeToChar, hfirst]
    | succ i =>
      have hrest : w.mag % 10 ^ 8 * 10 ^ 2 < wordMod := by unfold wordMod; omega
      have hplace : w.mag % 10 ^ 8 * 10 ^ 2 / 100 ^ (4 - i) % 100 = w.mag / 100 ^ (4 - (i + 1)) % 100 := by
        have : i < 4 := by omega
        interval_cases i <;> omega
      rw [List.getElem?_cons_succ, ih hrest (by omega) (by omega), hplace]

theorem fmtCharacter_getElem? (cfg : Config) {w : Word} (hw : w.WellFormed) {i : Nat} (hi : i < 5) :
    (fmtCharacter cfg w)[i]? = some (codeAt cfg (w.mag / 100 ^ (4 - i) % 100)) :=
  peelCodes_getElem? cfg hw hi hi

/-- The entry of a repertoire text's code at a place is the upper case of its character; past the end it is the
space. -/
theorem codeAt_codeOfPlace {cfg : Config} (h : configOk cfg = true) {t : Text}
    (ht : ∀ x ∈ t, inRepertoire cfg (fold x) = true) (i : Nat) :
    codeAt cfg (codeOfPlace cfg t i) = (t[i]?.map fold).getD space := by
  cases hx : t[i]? with
  | none =>
    obtain ⟨hspace, _⟩ := codeTable_of_configOk h
    rw [codeOfPlace_of_none hx, hspace]
    rfl
  | some x =>
    obtain ⟨_, hcode, _⟩ := charToCode_of_inRepertoire (ht x (List.mem_of_getElem? hx))
    rw [codeOfPlace_of_some hx, hcode]
    rfl

/-- A text padded with spaces to five characters, place by place. -/
theorem padded_getElem? {t : Text} (ht : t.length ≤ 5) {i : Nat} (hi : i < 5) :
    (t ++ List.replicate (5 - t.length) space)[i]? = some (t[i]?.getD space) := by
  by_cases hlt : i < t.length
  · rw [List.getElem?_append_left hlt, List.getElem?_eq_getElem hlt, Option.getD_some]
  · rw [List.getElem?_append_right (by omega), List.getElem?_replicate, if_pos (by omega),
      List.getElem?_eq_none (by omega), Option.getD_none]

theorem fmtCharacter_parseCharacter {cfg : Config} (h : configOk cfg = true) {t : Text} (hlen : t.length ≤ 5)
    (ht : ∀ x ∈ t, inRepertoire cfg (fold x) = true) (sg : Sign) :
    fmtCharacter cfg ⟨sg, fiveCodes (codeOfPlace cfg t)⟩ = t.map fold ++ List.replicate (5 - t.length) space := by
  have hcodes : ∀ i, i < 5 → codeOfPlace cfg t i < 100 := fun i _ => codeOfPlace_lt cfg t i
  refine List.ext_getElem? fun i => ?_
  by_cases hi : i < 5
  · have hpad := padded_getElem? (t := t.map fold) (by rwa [List.length_map]) hi
    rw [List.length_map, List.getElem?_map] at hpad
    rw [fmtCharacter_getElem? cfg (fiveCodes_lt hcodes) hi, fiveCodes_place hcodes (by omega),
      show 4 - (4 - i) = i by omega, codeAt_codeOfPlace h ht, hpad]
  · rw [List.getElem?_eq_none (by rw [fmtCharacter, peelCodes_length]; omega),
      List.getElem?_eq_none (by simp; omega)]

/-- PARSEW of FMTW of a word: at each place, CH2CODE of the entry of the code there. -/
theorem codeOfPlace_fmtCharacter (cfg : Config) {w : Word} (hw : w.WellFormed) {i : Nat} (hi : i < 5) :
    codeOfPlace cfg (fmtCharacter cfg w) (4 - i) = charToCode cfg (codeAt cfg (w.mag / 100 ^ i % 100)) := by
  rw [codeOfPlace_of_some (fmtCharacter_getElem? cfg hw (by omega)), show 4 - (4 - i) = i by omega]

/-- Settles O30: the laws of R88 at each of the five places. -/
theorem characterFormRoundTrip : Obligations.CharacterFormRoundTrip := by
  refine fun s hok => ⟨fun t hlen ht => ?_, fun w hw => ?_⟩
  · refine ⟨_, exec_parsew_character t s, ?_⟩
    rw [← fmtCharacter_parseCharacter hok hlen ht .pos]
    rfl
  · refine ⟨fmtCharacter s.config w, fiveCodes (codeOfPlace s.config (fmtCharacter s.config w)), rfl,
      peelCodes_length s.config 5 w, fun i hi => fmtCharacter_getElem? s.config hw hi, exec_parsew_character _ s,
      fun i hi hplaceholder => ?_, fun hleast => ?_⟩
    · rw [fiveCodes_place (fun j _ => codeOfPlace_lt s.config _ j) hi, codeOfPlace_fmtCharacter s.config hw hi,
        hplaceholder, charToCode_placeholder]
    · refine fiveCodes_eq_of_places hw fun i hi => ?_
      rw [codeOfPlace_fmtCharacter s.config hw hi]
      exact (charToCode_codeAt_eq_self_iff hok (Nat.mod_lt _ (by omega))).mpr (hleast i hi)

end Sys2Proof.Machine
end

section
/-! How the DeckStore operations refuse and abort (spec/43_deckstore.md R121 to R126, R128, R132;
spec/60_exceptions.md R151, R152, R154, R155, R158) while the collaborators answer as usual. A load that raises an
error ends its operation by the abort sequence, whatever the operation would have done next. -/

namespace Sys2Proof.Machine

/-! ### Before anything is opened -/

/-- Settles O33: DRESET is `storeReset()` and a completion. -/
theorem deckResetEmptiesStore : Obligations.DeckResetEmptiesStore := fun s => complete_eq .completed s.storeReset

/-- Settles O41: each operation tests its refusal before it does anything else. -/
theorem deckRefusals : Obligations.DeckRefusals := by
  refine fun s => ⟨fun name m hloaded hmode => ?_, fun name start n hcount hmode => ?_,
    fun tail n source dest quiet => ?_⟩
  · exact (if_pos ⟨hloaded, hmode⟩).trans (refuse_eq .modeMismatch s)
  · exact (if_pos ⟨hcount, hmode⟩).trans (refuse_eq .notRaw s)
  · exact (if_pos rfl).trans (refuse_eq .sameDestination s)

/-- SAVE is refused of a populated Translated buffer alone (43_deckstore.md R123). -/
theorem not_saveRefused {s : State} (h : s.count = 0#14 ∨ s.mode = .raw) :
    ¬ (s.count ≠ 0#14 ∧ s.mode = .translated) := by
  rintro ⟨hcount, hmode⟩
  rcases h with h0 | hraw
  · exact hcount h0
  · rw [hraw] at hmode; cases hmode

/-- Settles O43: the range is tested before the destination is opened, and `OutOfRange` spares the store. -/
theorem saveOutOfRangeKeepsBuffer : Obligations.SaveOutOfRangeKeepsBuffer := by
  intro s name start n hhandles hraw hrange
  calc exec (.save name start n) s
      = abort ⟨.outOfRange, some name, none⟩ s := (if_neg (not_saveRefused hraw)).trans (if_pos hrange)
    _ = _ := abort_outOfRange (some name) none s hhandles

/-- LOAD is refused of a Loaded buffer in the other mode alone (43_deckstore.md R122). -/
theorem exec_load_eq_conclude (name : Text) {mode : Mode} {s : State} (h : s.phase = .empty ∨ s.mode = mode) :
    exec (.load name mode) s = (loadDeck name mode s).conclude := by
  refine if_neg ?_
  rintro ⟨hphase, hmode⟩
  rcases h with hempty | rfl
  · rw [hphase] at hempty; cases hempty
  · exact hmode rfl

/-! ### Characters of a row (43_deckstore.md R122) -/

/-- The characters of a row's columns, a space for a column that has none. -/
def charsOf (cfg : Config) (r : Row) : Vector Ch 80 := r.map fun m => (punchToChar cfg m).getD space

theorem translatesTo_charsOf {cfg : Config} {r : Row} (h : ∀ k : Fin 80, (punchToChar cfg r[k]).isSome = true) :
    translatesTo cfg r (charsOf cfg r) := by
  intro k
  obtain ⟨c, hc⟩ := Option.isSome_iff_exists.mp (h k)
  have hk : (charsOf cfg r)[k] = (punchToChar cfg r[k]).getD space := Vector.getElem_map ..
  rw [hk, hc, Option.getD_some]

/-- Rows whose every column has a character are all stored in Translated mode. -/
theorem exists_storedCells_translated {cfg : Config} {rows : List Row}
    (h : ∀ r ∈ rows, ∀ k : Fin 80, (punchToChar cfg r[k]).isSome = true) :
    ∃ cards : List (List Cell), rows.map (storedCells cfg .translated) = cards.map .ok := by
  refine ⟨rows.map fun r => (charsOf cfg r).toList.map (BitVec.setWidth 16), ?_⟩
  rw [List.map_map]
  exact List.map_congr_left fun r hr => storedCells_translated cfg r _ (translatesTo_charsOf (h r hr))

/-- The scan of a row's columns stops at the first that has no character. -/
theorem translateCells_error {cfg : Config} {before : List Cell} {m : Cell} (after : List Cell) (n : Nat)
    (hbefore : ∀ x ∈ before, (punchToChar cfg x).isSome = true) (hm : punchToChar cfg m = none) :
    translateCells cfg n (before ++ m :: after) = .error (n + before.length, m) := by
  induction before generalizing n with
  | nil => simp [translateCells, hm]
  | cons x xs ih =>
    obtain ⟨c, hc⟩ := Option.isSome_iff_exists.mp (hbefore x List.mem_cons_self)
    simp only [List.cons_append, translateCells, hc, ih (n + 1) fun y hy => hbefore y (List.mem_cons_of_mem x hy),
      List.length_cons, Nat.add_assoc, Nat.add_comm 1]
    rfl

/-- A row with a bad column is not stored in Translated mode; the lowest one is reported (60_exceptions.md R154). -/
theorem storedCells_translated_error {cfg : Config} {r : Row} {k : Fin 80}
    (hbefore : ∀ j : Fin 80, j < k → (punchToChar cfg r[j]).isSome = true) (hk : punchToChar cfg r[k] = none) :
    storedCells cfg .translated r = .error (k.val, r[k]) := by
  have hlen : k.val < r.toList.length := by simp
  have hdrop : r.toList.drop k = r[k] :: r.toList.drop (k + 1) := by simpa using List.drop_eq_getElem_cons hlen
  have htake : ∀ x ∈ r.toList.take k, (punchToChar cfg x).isSome = true := by
    intro x hx
    obtain ⟨j, hj, rfl⟩ := List.mem_take_iff_getElem.mp hx
    have hjk : j < k.val := by omega
    simpa using hbefore ⟨j, by omega⟩ hjk
  calc storedCells cfg .translated r
      = translateCells cfg 0 (r.toList.take k ++ r[k] :: r.toList.drop (k + 1)) := by
        rw [← hdrop, List.take_append_drop]; rfl
    _ = .error (k.val, r[k]) := by
      rw [translateCells_error _ _ htake hk, List.length_take_of_le hlen.le, Nat.zero_add]

/-! ### The loop of LOAD (43_deckstore.md R122) -/

section Loop
variable (h : Nat) (name : Text) {room : Nat} {s : State} {r : Row} {rs : List Row}

/-- One row delivered and stored. -/
theorem loadRows_stored_row {cells : List Cell} (hs : s.collab.script = [])
    (hr : lookupKey h s.collab.readers = some (r :: rs)) (hc : storedCells s.config s.mode r = .ok cells) :
    ∃ i c, loadRows h name (room + 1) s = loadRows h name room (((s.putCard cells).setIdx i).setCollab c) ∧
      c.script = [] ∧ lookupKey h c.readers = some rs := by
  refine ⟨s.count, { s.collab.note (.read h) true with readers := setKey h rs s.collab.readers }, ?_,
    by simp [Collab.note, hs], lookupKey_setKey_same ..⟩
  simp only [loadRows, readRow_usual_row h name r rs s hs hr, Run.bind_done, storeRow, State.setCollab_config,
    State.setIdx_config, State.setCollab_mode, State.setIdx_mode, hc]
  rfl

/-- One row delivered and not stored, for a column that has no character. -/
theorem loadRows_bad_row {col : Nat} {m : Cell} (hs : s.collab.script = [])
    (hr : lookupKey h s.collab.readers = some (r :: rs)) (hc : storedCells s.config s.mode r = .error (col, m)) :
    ∃ c, loadRows h name (room + 1) s = .raised ⟨.invalidPunch m (some col), some name, some s.count⟩
      ((s.setIdx s.count).setCollab c) ∧ c.script = [] := by
  refine ⟨{ s.collab.note (.read h) true with readers := setKey h rs s.collab.readers }, ?_,
    by simp [Collab.note, hs]⟩
  simp only [loadRows, readRow_usual_row h name r rs s hs hr, Run.bind_done, storeRow, State.setCollab_config,
    State.setIdx_config, State.setCollab_mode, State.setIdx_mode, hc]
  rfl

end Loop

/-- A run of rows delivered and stored, with the rest of the source still to come. -/
theorem loadRows_stored_rows (h : Nat) (name : Text) (room : Nat) {rest : List Row} (good : List Row)
    (cards : List (List Cell)) (s : State) (hs : s.collab.script = [])
    (hr : lookupKey h s.collab.readers = some (good ++ rest))
    (hc : good.map (storedCells s.config s.mode) = cards.map .ok) :
    ∃ i c, loadRows h name (good.length + room) s
        = loadRows h name room (((s.storeCards cards).setIdx i).setCollab c) ∧
      c.script = [] ∧ lookupKey h c.readers = some rest := by
  induction good generalizing cards s with
  | nil =>
    obtain rfl : cards = [] := by simpa using hc.symm
    exact ⟨s.idx, s.collab, by rw [List.length_nil, Nat.zero_add]; rfl, hs, hr⟩
  | cons r rs ih =>
    obtain ⟨cells, cards, rfl⟩ : ∃ x xs, cards = x :: xs := List.exists_cons_of_ne_nil (by rintro rfl; simp at hc)
    obtain ⟨hcells, hcards⟩ := List.cons.inj hc
    obtain ⟨i, c, hstep, hs', hr'⟩ := loadRows_stored_row h name (room := rs.length + room) hs hr hcells
    obtain ⟨i', c', hloop, hrest⟩ := ih cards (((s.putCard cells).setIdx i).setCollab c) hs' hr' hcards
    refine ⟨i', c', ?_, hrest⟩
    rw [List.length_cons, Nat.add_right_comm, hstep, hloop, State.storeCards_setCollab, State.storeCards_setIdx]
    rfl

/-! ### LOAD of a bad column (43_deckstore.md R122, 60_exceptions.md R154) -/

/-- LOAD's state once its source is open, before the first read (43_deckstore.md R122). -/
def State.sourceOpened (s : State) (mode : Mode) (name : Text) (rows : List Row) : State :=
  { s with
    mode := mode, phase := .loading, openHandles := [s.collab.nextHandle],
    collab := (s.collab.note (.openRead name) true).grantReader name rows }

theorem beginLoad_eq {mode : Mode} {s : State} (h : s.phase = .empty ∨ s.mode = mode) :
    beginLoad mode s = { s with mode := mode, phase := .loading } := by
  by_cases hphase : s.phase = .empty
  · simp [beginLoad, hphase, State.setMode, State.setPhase]
  · obtain rfl := h.resolve_left hphase
    simp [beginLoad, hphase, State.setPhase]

theorem openRead_beginLoad {name : Text} {mode : Mode} {s : State} {rows : List Row} (hu : s.Usual)
    (hm : s.phase = .empty ∨ s.mode = mode) (hf : s.collab.fileOf name = some rows) :
    openRead name (beginLoad mode s) = .done s.collab.nextHandle (s.sourceOpened mode name rows) := by
  rw [beginLoad_eq hm, openRead_usual name { s with mode := mode, phase := .loading } rows hu.script hf]
  simp only [State.addHandle, State.setCollab, State.sourceOpened, hu.handles, List.nil_append]

/-- LOAD of a source whose rows before a bad one are stored: the bad row's index is reported, with the handle still
open. -/
theorem loadDeck_bad_row {name : Text} {mode : Mode} {s : State} {good rest : List Row} {bad : Row} {col : Nat}
    {m : Cell} {cards : List (List Cell)} (hu : s.Usual) (hm : s.phase = .empty ∨ s.mode = mode)
    (hf : s.collab.fileOf name = some (good ++ bad :: rest)) (hcap : s.count.toNat + good.length < deckCapacity)
    (hgood : good.map (storedCells s.config mode) = cards.map .ok)
    (hbad : storedCells s.config mode bad = .error (col, m)) :
    ∃ deck count idx c, loadDeck name mode s = .raised
        ⟨.invalidPunch m (some col), some name, some (BitVec.ofNat 14 (s.count.toNat + good.length))⟩
        { s with deck := deck, count := count, idx := idx, mode := mode, phase := .loading,
                 openHandles := [s.collab.nextHandle], collab := c } ∧
      c.script = [] := by
  obtain ⟨opened, hopened⟩ : ∃ t, t = s.sourceOpened mode name (good ++ bad :: rest) := ⟨_, rfl⟩
  have hcount : opened.count = s.count := by rw [hopened]; rfl
  have hlen : good.length = cards.length := by simpa using congrArg List.length hgood
  have hindex : (opened.storeCards cards).count = BitVec.ofNat 14 (s.count.toNat + good.length) := by
    rw [hlen, ← hcount, ← opened.storeCards_count cards (by rw [hcount]; omega), BitVec.ofNat_toNat,
      BitVec.setWidth_eq]
  obtain ⟨room, hroom⟩ : ∃ room, deckCapacity - s.count.toNat = good.length + (room + 1) :=
    ⟨deckCapacity - s.count.toNat - good.length - 1, by omega⟩
  obtain ⟨i, c, hprefix, hscript, hreaders⟩ := loadRows_stored_rows s.collab.nextHandle name (room + 1) good cards
    opened (by rw [hopened]; exact congrArg List.tail hu.script) (by rw [hopened]; exact lookupKey_setKey_same ..)
    (by rw [hopened]; exact hgood)
  have hstored := opened.storeCards_eq cards
  obtain ⟨c', hraise, hscript'⟩ := loadRows_bad_row s.collab.nextHandle name (room := room)
    (s := ((opened.storeCards cards).setIdx i).setCollab c) hscript hreaders
    (by rw [hstored, hopened]; exact hbad)
  refine ⟨(opened.storeCards cards).deck, (opened.storeCards cards).count, (opened.storeCards cards).count, c', ?_,
    hscript'⟩
  rw [loadDeck, openRead_beginLoad hu hm hf, ← hopened, Run.bind_done, hcount, hroom, hprefix, hraise,
    Run.bind_raised, ← hindex, hstored, hopened]
  rfl

/-- The abort sequence with one handle open, which the usual collaborators release (60_exceptions.md R158). -/
theorem abort_one_handle {e : Raised} {s : State} {h : Nat} (hh : s.openHandles = [h]) (hs : s.collab.script = [])
    (hr : e.report ≠ .outOfRange) :
    abort e s = .next ((State.recordError { s with
      collab := (s.collab.note (.release h) true).close h, openHandles := [] } e.name e.index).storeReset.finish
        e.report.status (.failed e.report)) := by
  simp only [abort, hh, Collab.releaseAll, Collab.release_usual _ _ hs, if_neg hr]

/-- Settles O38: the rows before the bad one are stored, and the abort sequence releases the source. -/
theorem loadInvalidPunchAborts : Obligations.LoadInvalidPunchAborts := by
  intro s name good bad rest k hhandles hmode hscript hfile hcap hgood hbefore hk
  obtain ⟨cards, hcards⟩ := exists_storedCells_translated hgood
  obtain ⟨deck, count, idx, c, hload, hc⟩ := loadDeck_bad_row ⟨hhandles, hscript⟩ hmode hfile hcap hcards
    (storedCells_translated_error hbefore hk)
  have hexec := exec_load_eq_conclude name hmode
  rw [hload, conclude_raised, abort_one_handle rfl hc (by simp)] at hexec
  refine ⟨_, hexec, ?_⟩
  rw [hhandles]
  rfl

/-! ### The capacity (43_deckstore.md R132) -/

/-- `t` is how an operation ends whose load of `source` in state `s` was delivered a card too many: the abort sequence
of `DeckTooLarge`, after one read more than there was room for (43_deckstore.md R132, 60_exceptions.md R151, R158). -/
def State.AbortsTooLarge (s : State) (source : Text) (t : State) : Prop :=
  t = { s with deck := t.deck, count := 0#14, idx := 0#14, mode := .raw, phase := .empty,
               status := 0x05#8, out := .failed .deckTooLarge, errName := source, errIdx := 10000#14,
               collab := t.collab } ∧
  t.collab.files = s.collab.files ∧
  t.collab.trace = s.collab.trace ++ (.openRead source, true) ::
    (List.replicate (deckCapacity + 1 - s.count.toNat) (.read s.collab.nextHandle, true)
      ++ [(.release s.collab.nextHandle, true)])

/-- The rows that have room can all be stored and a row is left: the load raises an error, and its abort sequence ends
the operation. -/
theorem loadDeck_aborts_tooLarge {source : Text} {mode : Mode} {s : State} {rows : List Row} {cards : List (List Cell)}
    (hu : s.Usual) (hm : s.phase = .empty ∨ s.mode = mode) (hf : s.collab.fileOf source = some rows)
    (hc : (rows.take (deckCapacity - s.count.toNat)).map (storedCells s.config mode) = cards.map .ok)
    (hcount : s.count.toNat ≤ deckCapacity) (hlen : deckCapacity < s.count.toNat + rows.length) :
    ∃ e t u, loadDeck source mode s = .raised e t ∧ abort e t = .next u ∧ s.AbortsTooLarge source u :=
  loadDeck_tooLarge source mode s rows cards hu.handles hu.script hf (by rwa [beginLoad_mode hm]) hcount hlen

section TooLarge
variable {s : State} {source : Text} {rows : List Row}

theorem exec_load_tooLarge (hu : s.Usual) (hm : s.phase = .empty ∨ s.mode = .raw)
    (hcount : s.count.toNat ≤ deckCapacity) (hf : s.collab.fileOf source = some rows)
    (hlen : deckCapacity < s.count.toNat + rows.length) :
    ∃ t, exec (.load source .raw) s = .next t ∧ s.AbortsTooLarge source t := by
  obtain ⟨e, t, u, hload, habort, hends⟩ := loadDeck_aborts_tooLarge hu hm hf (storedCells_raw _ _) hcount hlen
  exact ⟨u, by rw [exec_load_eq_conclude source hm, hload, conclude_raised, habort], hends⟩

theorem exec_split_tooLarge (tail : Bool) (n : Nat) {dest1 dest2 : Text} (quiet : Bool) (hu : s.Usual)
    (hne : dest1 ≠ dest2) (hf : s.collab.fileOf source = some rows) (hlen : deckCapacity < rows.length) :
    ∃ t, exec (.split tail n source dest1 dest2 quiet) s = .next t ∧ s.storeReset.AbortsTooLarge source t := by
  obtain ⟨e, t, u, hload, habort, hends⟩ := loadDeck_aborts_tooLarge (mode := .raw) hu.storeReset (.inl rfl) hf
    (storedCells_raw _ _) (Nat.zero_le _) (by simpa using hlen)
  exact ⟨u, by simp only [exec, execSplit, if_neg hne, splitRun, hload, Run.bind_raised, conclude_raised, habort],
    hends⟩

theorem exec_print_tooLarge (quiet sink2 : Bool) (hu : s.Usual) (hf : s.collab.fileOf source = some rows)
    (hlen : deckCapacity < rows.length)
    (hchars : ∀ r ∈ rows.take deckCapacity, ∀ k : Fin 80, (punchToChar s.config r[k]).isSome = true) :
    ∃ t, exec (.print source quiet sink2) s = .next t ∧ s.storeReset.AbortsTooLarge source t := by
  obtain ⟨cards, hcards⟩ := exists_storedCells_translated hchars
  obtain ⟨e, t, u, hload, habort, hends⟩ := loadDeck_aborts_tooLarge (mode := .translated) hu.storeReset (.inl rfl) hf
    hcards (Nat.zero_le _) (by simpa using hlen)
  exact ⟨u, by simp only [exec, execPrint, printRun, hload, Run.bind_raised, conclude_raised, habort], hends⟩

/-- JOIN ends at the source that does not fit, in the state the sources before it left (43_deckstore.md R126). -/
theorem exec_join_tooLarge {before : List Text} (after : List Text) (dest : Text) (quiet : Bool)
    {decks : List (List Row)} (hu : s.Usual) (hbefore : before.map s.collab.fileOf = decks.map some)
    (hf : s.collab.fileOf source = some rows) (hcap : decks.flatten.length ≤ deckCapacity)
    (hlen : deckCapacity < decks.flatten.length + rows.length) :
    ∃ cnt phase idx t, exec (.join (before ++ source :: after) dest quiet) s = .next t ∧
      (s.storeReset.afterSources before decks cnt phase idx).AbortsTooLarge source t ∧
      (∀ j d, decks[j]? = some d → cnt.getD (1 + j) 0#14 = BitVec.ofNat 14 d.length) ∧
      ∀ i, decks.length < i → cnt.getD i 0#14 = s.cnt.getD i 0#14 := by
  obtain ⟨cnt, phase, idx, hsources, hown, hother⟩ := loadSources_usual before decks 0 s.storeReset rfl hu.handles
    hu.script hbefore (by simpa using hcap)
  change _ = Run.done () (s.storeReset.afterSources before decks cnt phase idx) at hsources
  have hcount := (State.afterSources_holdsRows (s := s.storeReset) rfl hcap before cnt phase idx).count
  have hfile : (s.storeReset.afterSources before decks cnt phase idx).collab.fileOf source = some rows := by
    obtain ⟨-, hfiles, -, -⟩ := sourcesRead_spec (before.zip decks) s.collab
    rw [← hf, Collab.fileOf, Collab.fileOf, ← hfiles]
    rfl
  obtain ⟨e, t, u, hload, habort, hends⟩ := loadDeck_aborts_tooLarge (mode := .raw)
    (hu.storeReset.afterSources before decks cnt phase idx) (.inr rfl) hfile (storedCells_raw _ _)
    (by rwa [hcount]) (by rwa [hcount])
  refine ⟨cnt, phase, idx, u, ?_, hends, hown, fun i hi => hother i (by omega) (.inr (by omega))⟩
  rw [exec, execJoin, if_neg (by simp), joinRun, loadSources_append, hsources, Run.bind_done, loadSources, hload,
    Run.bind_raised, Run.bind_raised, conclude_raised, habort]

end TooLarge

/-- Settles O37: each operation ends with the abort sequence of its load; JOIN's is that of the source that does not
fit, after the calls of the sources before it. -/
theorem deckCapacityBoundary : Obligations.DeckCapacityBoundary := by
  refine ⟨fun s name rows hh hm hcount hs hf => ?_,
    fun s tail n source dest1 dest2 quiet rows hh hne hs hf hlen => ?_,
    fun s before after source dest quiet decks rows hh hs hbefore hf hcap hlen => ?_,
    fun s source quiet sink2 rows hh hs hf hlen hchars => ?_⟩
  · by_cases hfits : s.count.toNat + rows.length ≤ 10000
    · exact ⟨_, execLoad_stored ⟨hh, hs⟩ hm hf (storedCells_raw _ _) hfits, hh, iff_of_true rfl hfits,
        fun hlen => absurd hfits (Nat.not_le.mpr hlen)⟩
    · obtain ⟨t, hexec, ht, hcalls⟩ := exec_load_tooLarge ⟨hh, hs⟩ hm hcount hf (Nat.not_le.mp hfits)
      have hstatus : t.status = 0x05#8 := congrArg State.status ht
      exact ⟨t, hexec, (congrArg State.openHandles ht).trans hh, iff_of_false (by rw [hstatus]; decide) hfits,
        fun _ => ⟨ht, hcalls⟩⟩
  · exact exec_split_tooLarge tail n quiet ⟨hh, hs⟩ hne hf hlen
  · obtain ⟨cnt, phase, idx, t, hexec, ⟨ht, hfiles, htrace⟩, hown, hother⟩ :=
      exec_join_tooLarge after dest quiet ⟨hh, hs⟩ hbefore hf hcap hlen
    have hcnt : t.cnt = cnt := congrArg State.cnt ht
    have hcount := (State.afterSources_holdsRows (s := s.storeReset) rfl hcap before cnt phase idx).count
    obtain ⟨-, hread, hhandle, hcalls⟩ := sourcesRead_spec (before.zip decks) s.collab
    have hnames : before.length = decks.length := by simpa using congrArg List.length hbefore
    refine ⟨t, hexec, ?_, fun j d hd => ?_, fun i hi => ?_, hfiles.trans hread, ?_⟩
    · rw [hcnt]; exact ht
    · rw [State.getCnt, hcnt, hown j d hd, toNat_ofNat_length_of_mem (List.mem_of_getElem? hd) hcap]
    · rw [State.getCnt, hcnt, hother i hi, State.getCnt]
    · rw [hcount] at htrace
      simpa [State.afterSources, hcalls, hhandle, hnames] using htrace
  · exact exec_print_tooLarge quiet sink2 ⟨hh, hs⟩ hf hlen hchars

end Sys2Proof.Machine
end

section
/-! How every operation ends (spec/00_scope.md R8, spec/60_exceptions.md section 1, R158,
spec/70_reset_and_hazards.md R170), whatever the collaborators answer. Each part of a run is followed by two things it
leaves, the handles it may leave open and the record of a refusal; `exec_ends` then says once which endings an
instruction has, and the statements about handles and about STATUS are read off those. -/

namespace Sys2Proof.Machine

/-! ### Handles and the record of a refusal along a run -/

/-- No handle is open but these, and the record of a refusal (log entry 2) is this. -/
structure State.Within (handles : List Nat) (record : Bool) (t : State) : Prop where
  handles : t.openHandles ⊆ handles
  record : t.launchFault = record

theorem State.Within.self (s : State) : s.Within s.openHandles s.launchFault := ⟨fun _ h => h, rfl⟩

section Within
variable {handles : List Nat} {record : Bool}

theorem State.Within.congr {s t : State} (hs : s.Within handles record) (hh : t.openHandles = s.openHandles)
    (hr : t.launchFault = s.launchFault) : t.Within handles record :=
  ⟨hh ▸ hs.handles, hr.trans hs.record⟩

theorem State.LoadFrame.within {s t : State} (h : s.LoadFrame t) (hs : s.Within handles record) :
    t.Within handles record :=
  hs.congr (by rw [h]) (by rw [h])

theorem State.WriteFrame.within {s t : State} (h : s.WriteFrame t) (hs : s.Within handles record) :
    t.Within handles record :=
  hs.congr (by rw [h]) (by rw [h])

/-- Where a run is done, at most these handles are open; where it is done or raises an error, the record of a refusal
is as before. The handles open where it raises an error are the abort sequence's to release (60_exceptions.md R158). -/
def Run.LeavesOpen {α : Type} (record : Bool) (handles : α → List Nat) : Run α → Prop
  | .done a t => t.Within (handles a) record
  | .raised _ t => t.launchFault = record
  | .halted _ => True

theorem Run.LeavesOpen.bind {α β : Type} {mid : α → List Nat} {last : β → List Nat} {r : Run α}
    {k : α → State → Run β} (hr : r.LeavesOpen record mid)
    (hk : ∀ a u, u.Within (mid a) record → (k a u).LeavesOpen record last) : (r.bind k).LeavesOpen record last := by
  cases r with
  | done a u => exact hk a u hr
  | raised e u => exact hr
  | halted f => trivial

theorem Run.Holds.leavesOpen {α : Type} {r : Run α} (hr : r.Holds (State.Within handles record)) :
    r.LeavesOpen record fun _ => handles := by
  cases r with
  | done a t => exact hr
  | raised e t => exact hr.record
  | halted f => trivial

section Parts
variable {s : State} (hs : s.Within handles record)
include hs

/-- A call that opens adds the handle it is answered (20_memory.md R38). -/
theorem Run.leavesOpen_of_open {r : Run Nat} (hdone : ∀ h t, r = .done h t → ∃ c, t = (s.setCollab c).addHandle h)
    (hraised : ∀ e t, r = .raised e t → e.report ≠ .outOfRange ∧ ∃ c, t = s.setCollab c) :
    r.LeavesOpen record fun h => handles ++ [h] := by
  cases r with
  | done h t =>
    obtain ⟨c, rfl⟩ := hdone h t rfl
    have hleft : s.openHandles ⊆ handles ++ [h] := List.subset_append_of_subset_left _ hs.handles
    exact ⟨List.append_subset.mpr ⟨hleft, List.subset_append_right _ _⟩, hs.record⟩
  | raised e t =>
    obtain ⟨-, c, rfl⟩ := hraised e t rfl
    exact hs.record
  | halted f => trivial

theorem openRead_leavesOpen (name : Text) : (openRead name s).LeavesOpen record fun h => handles ++ [h] :=
  Run.leavesOpen_of_open hs (openRead_spec name s).1 (openRead_spec name s).2

theorem openWrite_leavesOpen (name : Text) : (openWrite name s).LeavesOpen record fun h => handles ++ [h] :=
  Run.leavesOpen_of_open hs (openWrite_spec name s).1 (openWrite_spec name s).2

theorem loadRows_leavesOpen (h : Nat) (name : Text) (room : Nat) :
    (loadRows h name room s).LeavesOpen record fun _ => handles :=
  ((loadRows_holds h name room s).mono fun _ hf => State.LoadFrame.within hf hs).leavesOpen

theorem saveRows_leavesOpen (h : Nat) (name : Text) (start n : Nat) :
    (saveRows h name start n s).LeavesOpen record fun _ => handles := by
  unfold saveRows
  split
  · exact hs.record
  · exact ((writeCards_holds h name n start s).mono fun _ hf => State.WriteFrame.within hf hs).leavesOpen

theorem printCards_leavesOpen (sink2 : Bool) (left i : Nat) :
    (printCards sink2 left i s).LeavesOpen record fun _ => handles :=
  ((printCards_holds sink2 left i s).mono fun _ hf => State.WriteFrame.within hf hs).leavesOpen

theorem beginLoad_within (mode : Mode) : (beginLoad mode s).Within handles record := by
  unfold beginLoad
  split <;> exact hs.congr rfl rfl

/-- Reporting the counts and resetting the store, the end of SPLIT, JOIN and PRINT (43_deckstore.md R125 to R128). -/
theorem report_storeReset_leavesOpen (quiet : Bool) (op : DeckOp) (counts : List Nat) :
    (Run.done () (report quiet op counts s).storeReset).LeavesOpen record fun _ => handles := by
  obtain ⟨c, hc⟩ := report_eq quiet op counts s
  rw [hc]
  exact hs.congr rfl rfl

end Parts

/-- A released handle is open no more, whatever the answer (20_memory.md R38; log entry 9). -/
theorem releaseHandle_leavesOpen {s : State} {h : Nat} (hs : s.Within (handles ++ [h]) record) (name : Text) :
    (releaseHandle h name s).LeavesOpen record fun _ => handles := by
  refine (toRun_holds _ _ _ _ _ fun c => ⟨fun x hx => ?_, hs.record⟩ : Run.Holds _ _).leavesOpen
  obtain ⟨hx, hne⟩ := List.mem_filter.mp hx
  rcases List.mem_append.mp (hs.handles hx) with hmem | hlast
  · exact hmem
  · exact absurd (List.mem_singleton.mp hlast) (by simpa using hne)

/-! ### Loading, saving and the operations made of them -/

section Operations
variable {s : State} (hs : s.Within handles record)
include hs

/-- LOAD closes the source it opens (43_deckstore.md R122). -/
theorem loadDeck_leavesOpen (name : Text) (mode : Mode) :
    (loadDeck name mode s).LeavesOpen record fun _ => handles :=
  (openRead_leavesOpen (beginLoad_within hs mode) name).bind fun h _ hu =>
    (loadRows_leavesOpen hu h name _).bind fun _ _ hv =>
      (releaseHandle_leavesOpen hv name).bind fun _ _ hw => hw.congr rfl rfl

/-- Saving closes the destination it opens (43_deckstore.md R123). -/
theorem saveDeck_leavesOpen (name : Text) (start n : Nat) :
    (saveDeck name start n s).LeavesOpen record fun _ => handles :=
  (openWrite_leavesOpen hs name).bind fun h _ hu =>
    (saveRows_leavesOpen hu h name start n).bind fun _ _ hv => releaseHandle_leavesOpen hv name

theorem loadSources_leavesOpen (names : List Text) (j : Nat) :
    (loadSources j names s).LeavesOpen record fun _ => handles := by
  induction names generalizing j s with
  | nil => exact hs
  | cons name names ih =>
    exact (loadDeck_leavesOpen hs name .raw).bind fun _ u hu =>
      ih (s := u.setCnt _ _) (hu.congr rfl rfl) (j + 1)

theorem splitRun_leavesOpen (tail : Bool) (n : Nat) (source dest1 dest2 : Text) (quiet : Bool) :
    (splitRun tail n source dest1 dest2 quiet s).LeavesOpen record fun _ => handles :=
  (loadDeck_leavesOpen (s := s.storeReset) (hs.congr rfl rfl) source .raw).bind fun _ u hu =>
    (saveDeck_leavesOpen (s := u.setPhase .splitting) (hu.congr rfl rfl) dest1 0 _).bind fun _ _ hv =>
      (saveDeck_leavesOpen hv dest2 _ _).bind fun _ w hw =>
        report_storeReset_leavesOpen (s := (w.setCnt 0 _).setCnt 1 _) (hw.congr rfl rfl) ..

theorem joinRun_leavesOpen (sources : List Text) (dest : Text) (quiet : Bool) :
    (joinRun sources dest quiet s).LeavesOpen record fun _ => handles :=
  (loadSources_leavesOpen (s := s.storeReset) (hs.congr rfl rfl) sources 0).bind fun _ u hu =>
    (saveDeck_leavesOpen (s := u.setPhase .joining) (hu.congr rfl rfl) dest 0 _).bind fun _ v hv =>
      report_storeReset_leavesOpen (s := v.setCnt 0 _) (hv.congr rfl rfl) ..

theorem printRun_leavesOpen (source : Text) (quiet sink2 : Bool) :
    (printRun source quiet sink2 s).LeavesOpen record fun _ => handles :=
  (loadDeck_leavesOpen (s := s.storeReset) (hs.congr rfl rfl) source .translated).bind fun _ u hu =>
    (printCards_leavesOpen (s := u.setPhase .printing) (hu.congr rfl rfl) sink2 _ 0).bind fun _ v hv =>
      report_storeReset_leavesOpen (s := v.setCnt 0 _) (hv.congr rfl rfl) ..

end Operations
end Within

/-! ### The endings of an instruction -/

/-- The four ways an instruction that answers `t` in state `s` ends (00_scope.md R8): completed with no handle left
open that was not; an error of a pure operation; the abort sequence, in a state with the same record of a refusal;
refused. -/
inductive Ends (s t : State) : Prop where
  | completed (out : Port) (u : State) (hu : u.Within s.openHandles s.launchFault)
      (ht : t = u.finish statusOk out)
  | errorRaised (e : ErrorReport) (ht : raisePlain e s = .next t)
  | aborted (e : Raised) (u : State) (hu : u.launchFault = s.launchFault) (ht : abort e u = .next t)
  | refused (why : RefuseReason) (ht : refuse why s = .next t)

theorem PureEnd.answer_ends (e : PureEnd) {s t : State} (h : e.answer s = .next t) : Ends s t := by
  cases e with
  | result out => exact .completed out s (.self s) (complete_next_iff.mp h)
  | error e => exact .errorRaised e h
  | refusal why => exact .refused why h

theorem Run.LeavesOpen.conclude_ends {s t : State} {r : Run Unit}
    (hr : r.LeavesOpen s.launchFault fun _ => s.openHandles) (h : r.conclude = .next t) : Ends s t := by
  rcases conclude_next h with ⟨u, rfl, ht⟩ | ⟨e, u, rfl, habort⟩
  · exact .completed .completed u hr ht
  · exact .aborted e u hr habort

/-- The last case is that of the operations that are no DeckStore operation. -/
theorem exec_ends (i : Instr) {s t : State} (h : exec i s = .next t) : Ends s t := by
  by_cases hd : isDeckOp i = false
  · obtain ⟨e, he⟩ := exec_endsPurely i hd s.config
    exact e.answer_ends ((he s rfl).symm.trans h)
  have hself := State.Within.self s
  cases i with
  | dreset => exact .completed .completed s.storeReset (hself.congr rfl rfl) (complete_next_iff.mp h)
  | load name mode =>
    simp only [exec, execLoad] at h
    split at h
    · exact .refused _ h
    · exact (loadDeck_leavesOpen hself name mode).conclude_ends h
  | save name start n =>
    simp only [exec, execSave] at h
    split at h
    · exact .refused _ h
    split at h
    · exact .aborted _ s rfl h
    · refine Run.LeavesOpen.conclude_ends ?_ h
      exact (saveDeck_leavesOpen hself name start n).bind fun _ _ hu => hu.congr rfl rfl
  | split tail n source dest1 dest2 quiet =>
    simp only [exec, execSplit] at h
    split at h
    · exact .refused _ h
    · exact (splitRun_leavesOpen hself tail n source dest1 dest2 quiet).conclude_ends h
  | join sources dest quiet =>
    simp only [exec, execJoin] at h
    split at h
    · exact .aborted _ s rfl h
    · exact (joinRun_leavesOpen hself sources dest quiet).conclude_ends h
  | print source quiet sink2 => exact (printRun_leavesOpen hself source quiet sink2).conclude_ends h
  | _ => exact absurd rfl hd

/-- The abort sequence leaves no handle open, writes the error's STATUS, and keeps the record of a refusal
(60_exceptions.md R158). -/
theorem abort_registers {e : Raised} {s t : State} (h : abort e s = .next t) :
    t.openHandles = [] ∧ t.status = e.report.status ∧ t.launchFault = s.launchFault := by
  obtain ⟨c, -, rfl⟩ := abort_next h
  split <;> exact ⟨rfl, rfl, rfl⟩

/-- Settles O57: a completed operation has closed what it opened, the abort sequence releases every handle, and the
other endings open none. -/
theorem handlesReleasedOnEveryPath : Obligations.HandlesReleasedOnEveryPath := by
  intro i s t hhandles h
  cases exec_ends i h with
  | completed out u hu ht =>
    subst ht
    exact List.subset_nil.mp (hhandles ▸ hu.handles)
  | errorRaised e ht => cases ht; exact hhandles
  | aborted e u hu ht => exact (abort_registers ht).1
  | refused why ht => cases ht; exact hhandles

/-! ### STATUS (60_exceptions.md R145, R146) -/

theorem statusByte_fields {kind sub : Nat} (hkind : kind < 16) (hsub : sub < 16) :
    statusKind (statusByte kind sub) = kind ∧ statusSub (statusByte kind sub) = sub := by
  simp only [statusKind, statusSub, statusByte, BitVec.toNat_ofNat]
  omega

/-- The sub-kinds of an I/O error are 1 to 7 (60_exceptions.md R146). -/
theorem ioSub_bounds (stage : IoStage) (e : CollabErr) : 1 ≤ ioSub stage e ∧ ioSub stage e ≤ 7 := by
  cases stage with
  | opening => cases e <;> simp [ioSub]
  | _ => simp [ioSub]

theorem ErrorReport.kind_mem (e : ErrorReport) : e.kind ∈ [1, 2, 5, 6, 7, 8] := by
  cases e <;> simp [ErrorReport.kind]

/-- An error has a sub-kind exactly if it is an I/O error (60_exceptions.md R146). -/
theorem ErrorReport.sub_spec (e : ErrorReport) :
    (e.kind = 7 → 1 ≤ e.sub ∧ e.sub ≤ 7) ∧ (e.kind ≠ 7 → e.sub = 0) := by
  cases e with
  | ioError stage x => exact ⟨fun _ => ioSub_bounds stage x, fun h => absurd rfl h⟩
  | _ => simp [ErrorReport.kind, ErrorReport.sub]

/-- A STATUS byte of the form `StatusKindsWritten` speaks of. -/
def statusOfSpec (st : BitVec 8) : Prop :=
  statusKind st ∈ [0, 1, 2, 5, 6, 7, 8, 15] ∧ (statusKind st = 7 → 1 ≤ statusSub st ∧ statusSub st ≤ 7) ∧
    (statusKind st ≠ 7 → statusSub st = 0)

/-- An error's STATUS is of that form, and is not that of a refusal. -/
theorem ErrorReport.status_spec (e : ErrorReport) : statusOfSpec e.status ∧ e.status ≠ statusRefused := by
  have hkind := e.kind_mem
  obtain ⟨hio, hother⟩ := e.sub_spec
  simp only [List.mem_cons, List.not_mem_nil, or_false] at hkind
  have hsub : e.sub ≤ 7 := by
    by_cases h7 : e.kind = 7
    · exact (hio h7).2
    · rw [hother h7]; omega
  obtain ⟨hk, hs⟩ := statusByte_fields (show e.kind < 16 by omega) (show e.sub < 16 by omega)
  refine ⟨?_, fun hrefused => ?_⟩
  · simp only [statusOfSpec, ErrorReport.status, hk, hs]
    exact ⟨by simp only [List.mem_cons]; omega, hio, hother⟩
  · have h15 : e.kind = 15 := hk.symm.trans (congrArg statusKind hrefused)
    omega

theorem statusOk_spec : statusOfSpec statusOk := ⟨by decide, by decide, by decide⟩

theorem statusRefused_spec : statusOfSpec statusRefused := ⟨by decide, by decide, by decide⟩

/-- An ending that is no refusal leaves the record of one as it was (log entry 2). -/
theorem State.safe_iff_of_sameRecord {s t : State} (hr : t.launchFault = s.launchFault)
    (hne : t.status ≠ statusRefused) : t.Safe ↔ s.Safe ∧ t.status ≠ statusRefused := by
  rw [State.Safe, hr]
  exact (and_iff_left hne).symm

/-- Each ending writes its own STATUS, and the refusal alone sets the record. -/
theorem Ends.status_spec {s t : State} (h : Ends s t) :
    statusOfSpec t.status ∧ (t.Safe ↔ s.Safe ∧ t.status ≠ statusRefused) := by
  cases h with
  | completed out u hu ht =>
    subst ht
    exact ⟨statusOk_spec, State.safe_iff_of_sameRecord hu.record (show statusOk ≠ statusRefused by decide)⟩
  | errorRaised e ht =>
    cases ht
    exact ⟨e.status_spec.1, State.safe_iff_of_sameRecord rfl e.status_spec.2⟩
  | aborted e u hu ht =>
    obtain ⟨-, hstatus, hrecord⟩ := abort_registers ht
    have hspec := e.report.status_spec
    rw [← hstatus] at hspec
    exact ⟨hspec.1, State.safe_iff_of_sameRecord (hrecord.trans hu) hspec.2⟩
  | refused why ht =>
    cases ht
    exact ⟨statusRefused_spec, fun hsafe => Bool.noConfusion hsafe, fun hsafe => absurd rfl hsafe.2⟩

/-- Settles O60: every instruction has one of the endings. -/
theorem statusKindsWritten : Obligations.StatusKindsWritten := by
  intro i s t h
  obtain ⟨⟨hkind, hio, hother⟩, hsafe⟩ := (exec_ends i h).status_spec
  exact ⟨hkind, hio, hother, hsafe⟩

/-- Settles O51: each STATUS selects its row; the sub-kinds of a collaborator's own error carry it. -/
theorem exitStatusMapping : Obligations.ExitStatusMapping := by
  refine ⟨fun _ => rfl, fun _ => rfl, fun _ => rfl, fun _ => rfl, fun _ => rfl, fun _ => rfl, fun _ => rfl,
    fun _ => rfl, fun stage e hstatus => ?_, fun _ _ => rfl⟩
  rcases hstatus with hopen | hread | hwrite | hclose
  · rw [hopen]; rfl
  · rw [hread]; rfl
  · rw [hwrite]; rfl
  · rw [hclose]; rfl

end Sys2Proof.Machine
end

section
/-! LOAD and SAVE where a collaborator answers an error (spec/60_exceptions.md R146, R153, R156 to R158,
spec/70_reset_and_hazards.md R173). The script answers the calls before the error as usual: one law per call for such
an answer and for an error, the run of calls before the error by induction, then the abort sequence. -/

namespace Sys2Proof.Machine

/-! ### One answer of the script -/

section Answers
variable {c : Collab} {later : List Reply} {e : CollabErr}

theorem Collab.openRead_of_usual {name : Text} {rows : List Row} (hs : c.script = .usual :: later)
    (hf : c.fileOf name = some rows) :
    c.openRead name = .ok c.nextHandle ((c.note (.openRead name) true).grantReader name rows) := by
  simp [Collab.openRead, Collab.nextReply, hs, hf]

theorem Collab.openRead_of_error (name : Text) (hs : c.script = .error e :: later) :
    c.openRead name = .error e (c.note (.openRead name) false) := by
  simp [Collab.openRead, Collab.nextReply, hs]

theorem Collab.read_of_usual {h : Nat} {r : Row} {rs : List Row} (hs : c.script = .usual :: later)
    (hr : lookupKey h c.readers = some (r :: rs)) :
    c.read h = .ok (some r) { c.note (.read h) true with readers := setKey h rs c.readers } := by
  simp [Collab.read, Collab.nextReply, hs, hr]

theorem Collab.read_of_error (h : Nat) (hs : c.script = .error e :: later) :
    c.read h = .error e (c.note (.read h) false) := by
  simp [Collab.read, Collab.nextReply, hs]

theorem Collab.openWrite_of_usual (name : Text) (hs : c.script = .usual :: later) :
    c.openWrite name = .ok c.nextHandle ((c.note (.openWrite name) true).grantWriter name) := by
  simp [Collab.openWrite, Collab.nextReply, hs]

theorem Collab.write_of_usual (h : Nat) (row : Row) (hs : c.script = .usual :: later) :
    c.write h row = .ok () ((c.note (.write h row) true).append h row) := by
  simp [Collab.write, Collab.nextReply, hs]

theorem Collab.write_of_error (h : Nat) (row : Row) (hs : c.script = .error e :: later) :
    c.write h row = .error e (c.note (.write h row) false) := by
  simp [Collab.write, Collab.nextReply, hs]

/-- A release that is answered at all closes its handle, whatever the answer (20_memory.md R38; log entry 9). -/
theorem Collab.releaseAll_singleton (h : Nat) (hs : c.script.head? ≠ some .silent) :
    ∃ ok, c.releaseAll [h] = some ((c.note (.release h) ok).close h) := by
  have hreply : c.nextReply ≠ .silent := by
    rw [Collab.nextReply, List.headD_eq_head?_getD]
    cases hhead : c.script.head? with
    | none => simp
    | some r => rw [hhead] at hs; simpa using hs
  rw [Collab.releaseAll, Collab.release]
  cases hr : c.nextReply with
  | silent => exact absurd hr hreply
  | error e => exact ⟨false, rfl⟩
  | _ => exact ⟨true, rfl⟩

end Answers

/-- An operation that ends by the abort sequence with one handle open, whose release is answered
(60_exceptions.md R158). -/
theorem next_of_abort_one_handle {o : Host.Outcome State Fault Refusal} {e : Raised} {s : State} {h : Nat}
    (ho : o = abort e s) (hh : s.openHandles = [h]) (hs : s.collab.script.head? ≠ some .silent)
    (hr : e.report ≠ .outOfRange) :
    ∃ c, c.files = s.collab.files ∧
      o = .next ((State.recordError { s with collab := c, openHandles := [] } e.name e.index).storeReset.finish
        e.report.status (.failed e.report)) := by
  obtain ⟨ok, hrel⟩ := s.collab.releaseAll_singleton h hs
  exact ⟨(s.collab.note (.release h) ok).close h, rfl, by simp only [ho, abort, hh, hrel, if_neg hr]⟩

/-! ### LOAD whose open fails -/

/-- What LOAD writes before it opens its source (43_deckstore.md R122). -/
theorem exists_beginLoad_eq (mode : Mode) (s : State) :
    ∃ m, beginLoad mode s = { s with mode := m, phase := .loading } := by
  unfold beginLoad
  split
  · exact ⟨mode, rfl⟩
  · exact ⟨s.mode, rfl⟩

/-- A load whose open is answered with an error: no handle is added and no card index recorded
(60_exceptions.md R153). -/
theorem loadDeck_open_error {name : Text} (mode : Mode) {s : State} {e : CollabErr} {later : List Reply}
    (hs : s.collab.script = .error e :: later) :
    ∃ m, loadDeck name mode s = .raised ⟨.ioError .opening e, some name, none⟩
      { s with mode := m, phase := .loading, collab := s.collab.note (.openRead name) false } := by
  obtain ⟨m, hbegin⟩ := exists_beginLoad_eq mode s
  refine ⟨m, ?_⟩
  rw [loadDeck, hbegin, openRead, Collab.openRead_of_error name hs]
  rfl

/-- Settles O39: the error is raised before a handle is open, so the abort sequence calls no collaborator. -/
theorem loadOpenErrorAborts : Obligations.LoadOpenErrorAborts := by
  intro s name m e rest hhandles hmode hscript
  obtain ⟨mode, hload⟩ := loadDeck_open_error (name := name) m hscript
  have hexec : exec (.load name m) s = (loadDeck name m s).conclude :=
    if_neg fun ⟨hphase, hne⟩ => hne (hmode hphase)
  rw [hexec, hload, conclude_raised, Collab.note, hscript]
  refine (abort_no_handle _ _ ?_ ?_).trans ?_
  · exact hhandles
  · simp
  · cases e <;> rfl

/-! ### LOAD whose read fails -/

section Loop
variable (h : Nat) (name : Text) {s : State}

/-- The read of the next card answered with an error, also where there is no room for the card
(60_exceptions.md R157). -/
theorem loadRows_read_error (room : Nat) {e : CollabErr} {later : List Reply}
    (hs : s.collab.script = .error e :: later) :
    loadRows h name room s = .raised ⟨.ioError .reading e, some name, some s.count⟩
      ((s.setIdx s.count).setCollab (s.collab.note (.read h) false)) := by
  have hread : readRow h name (s.setIdx s.count) = .raised ⟨.ioError .reading e, some name, some s.count⟩
      ((s.setIdx s.count).setCollab (s.collab.note (.read h) false)) := by
    rw [readRow, State.setIdx_collab, Collab.read_of_error h hs]
    rfl
  cases room with
  | zero => rw [loadRows, hread, Run.bind_raised]
  | succ room => rw [loadRows, hread, Run.bind_raised]

/-- One row delivered by an answer of the script and stored. -/
theorem loadRows_answered_row (room : Nat) {r : Row} {rs : List Row} {later : List Reply} {cells : List Cell}
    (hs : s.collab.script = .usual :: later) (hr : lookupKey h s.collab.readers = some (r :: rs))
    (hc : storedCells s.config s.mode r = .ok cells) :
    ∃ i c, loadRows h name (room + 1) s = loadRows h name room (((s.putCard cells).setIdx i).setCollab c) ∧
      c.script = later ∧ lookupKey h c.readers = some rs ∧ c.files = s.collab.files := by
  have hread : readRow h name (s.setIdx s.count) = .done (some r) ((s.setIdx s.count).setCollab
      { s.collab.note (.read h) true with readers := setKey h rs s.collab.readers }) := by
    rw [readRow, State.setIdx_collab, Collab.read_of_usual hs hr]
    rfl
  refine ⟨s.count, { s.collab.note (.read h) true with readers := setKey h rs s.collab.readers }, ?_,
    congrArg List.tail hs, lookupKey_setKey_same .., rfl⟩
  simp only [loadRows, hread, Run.bind_done, storeRow, State.setCollab_config, State.setIdx_config,
    State.setCollab_mode, State.setIdx_mode, hc]
  rfl

end Loop

/-- A run of rows so delivered and stored: the files are as before, and the rest of the script still answers. -/
theorem loadRows_answered_rows (h : Nat) (name : Text) (room : Nat) {rest : List Row} {later : List Reply}
    (good : List Row) (cards : List (List Cell)) (s : State)
    (hs : s.collab.script = List.replicate good.length .usual ++ later)
    (hr : lookupKey h s.collab.readers = some (good ++ rest))
    (hc : good.map (storedCells s.config s.mode) = cards.map .ok) :
    ∃ i c, loadRows h name (good.length + room) s
        = loadRows h name room (((s.storeCards cards).setIdx i).setCollab c) ∧
      c.script = later ∧ c.files = s.collab.files := by
  induction good generalizing cards s with
  | nil =>
    obtain rfl : cards = [] := by simpa using hc.symm
    exact ⟨s.idx, s.collab, by rw [List.length_nil, Nat.zero_add]; rfl, hs, rfl⟩
  | cons r rs ih =>
    obtain ⟨cells, cards, rfl⟩ : ∃ x xs, cards = x :: xs := List.exists_cons_of_ne_nil (by rintro rfl; simp at hc)
    obtain ⟨hcells, hcards⟩ := List.cons.inj hc
    obtain ⟨i, c, hstep, hs', hr', hf'⟩ := loadRows_answered_row h name (rs.length + room) hs hr hcells
    obtain ⟨i', c', hloop, hscript, hfiles⟩ := ih cards (((s.putCard cells).setIdx i).setCollab c) hs' hr' hcards
    refine ⟨i', c', ?_, hscript, hfiles.trans hf'⟩
    rw [List.length_cons, Nat.add_right_comm, hstep, hloop, State.storeCards_setCollab, State.storeCards_setIdx]
    rfl

/-- A Raw load of a source whose read of card `k` is answered with an error: the card's index is reported, with the
handle still open (60_exceptions.md R153, R157). -/
theorem loadDeck_read_error {name : Text} {s : State} {rows : List Row} {k : Nat} {e : CollabErr} {later : List Reply}
    (hh : s.openHandles = []) (hm : s.phase = .empty ∨ s.mode = .raw)
    (hs : s.collab.script = List.replicate (1 + k) .usual ++ .error e :: later)
    (hf : s.collab.fileOf name = some rows) (hk : k ≤ rows.length) (hcap : s.count.toNat + k ≤ deckCapacity) :
    ∃ deck count idx c, loadDeck name .raw s = .raised
        ⟨.ioError .reading e, some name, some (BitVec.ofNat 14 (s.count.toNat + k))⟩
        { s with deck := deck, count := count, idx := idx, mode := .raw, phase := .loading,
                 openHandles := [s.collab.nextHandle], collab := c } ∧
      c.script = later ∧ c.files = s.collab.files := by
  rw [Nat.add_comm, List.replicate_succ, List.cons_append] at hs
  obtain ⟨opened, hopened⟩ : ∃ t, t = s.sourceOpened .raw name rows := ⟨_, rfl⟩
  have hopen : openRead name (beginLoad .raw s) = .done s.collab.nextHandle opened := by
    rw [beginLoad_eq hm, openRead, Collab.openRead_of_usual hs hf, hopened]
    simp only [Answer.toRun, Run.bind_done, State.addHandle, State.setCollab, State.sourceOpened, hh, List.nil_append]
  have hcount : opened.count = s.count := by rw [hopened]; rfl
  have hlen : (rows.take k).length = k := List.length_take_of_le hk
  obtain ⟨room, hroom⟩ : ∃ room, deckCapacity - s.count.toNat = (rows.take k).length + room :=
    ⟨deckCapacity - s.count.toNat - k, by omega⟩
  obtain ⟨i, c, hloop, hscript, hfiles⟩ := loadRows_answered_rows s.collab.nextHandle name room
    (rest := rows.drop k) (later := .error e :: later) (rows.take k) ((rows.take k).map Vector.toList) opened
    (by rw [hopened, hlen]; exact congrArg List.tail hs)
    (by rw [hopened, List.take_append_drop]; exact lookupKey_setKey_same ..)
    (by rw [hopened]; exact storedCells_raw _ _)
  obtain ⟨stored, hstored⟩ : ∃ t, t = opened.storeCards ((rows.take k).map Vector.toList) := ⟨_, rfl⟩
  have hindex : stored.count = BitVec.ofNat 14 (s.count.toNat + k) := by
    have hnat : stored.count.toNat = s.count.toNat + k := by
      rw [hstored, storeCards_rows_count (by rw [hcount, hlen]; exact hcap), hcount, hlen]
    rw [← hnat, BitVec.ofNat_toNat, BitVec.setWidth_eq]
  rw [← hstored] at hloop
  refine ⟨stored.deck, stored.count, stored.count, c.note (.read s.collab.nextHandle) false, ?_,
    congrArg List.tail hscript, hfiles.trans (by rw [hopened]; rfl)⟩
  have hframe : stored = { opened with deck := stored.deck, count := stored.count } := by
    rw [hstored]; exact opened.storeCards_eq _
  rw [loadDeck, hopen, Run.bind_done, hcount, hroom, hloop, loadRows_read_error _ _ room hscript, Run.bind_raised,
    ← hindex, hframe, hopened]
  rfl

/-- Settles O40: the cards before the error are stored, and the abort sequence releases the source. -/
theorem loadReadErrorAborts : Obligations.LoadReadErrorAborts := by
  intro s name rows k e rest hhandles hmode hscript hsilent hfile hk hcap
  obtain ⟨deck, count, idx, c, hload, hlater, hfiles⟩ := loadDeck_read_error hhandles hmode hscript hfile hk hcap
  have hexec := exec_load_eq_conclude name hmode
  rw [hload, conclude_raised] at hexec
  obtain ⟨c', hfiles', hend⟩ := next_of_abort_one_handle hexec rfl (by rwa [hlater]) (by simp)
  refine ⟨_, hend, ?_, hfiles'.trans hfiles⟩
  rw [hhandles]
  rfl

/-! ### SAVE whose write fails -/

section Writing
variable (h : Nat) (name : Text) {s : State}

theorem Collab.append_fileOf {c : Collab} {written : List Row} (row : Row) (hw : lookupKey h c.writers = some name)
    (hf : c.fileOf name = some written) : (c.append h row).fileOf name = some (written ++ [row]) := by
  rw [Collab.append, hw]
  simp only [hf, Option.getD_some]
  exact lookupKey_setKey_same ..

theorem Collab.append_writers_script (c : Collab) (row : Row) :
    (c.append h row).writers = c.writers ∧ (c.append h row).script = c.script := by
  unfold Collab.append
  split <;> exact ⟨rfl, rfl⟩

/-- The write of the next card answered with an error (60_exceptions.md R153). -/
theorem writeCards_write_error (left i : Nat) {row : Row} {e : CollabErr} {later : List Reply}
    (hs : s.collab.script = .error e :: later) (hr : s.readCard i = some row) :
    writeCards h name (left + 1) i s = .raised ⟨.ioError .writing e, some name, some (BitVec.ofNat 14 i)⟩
      ((s.setIdx (BitVec.ofNat 14 i)).setCollab (s.collab.note (.write h row) false)) := by
  simp only [writeCards, readCard_setIdx, hr, writeRow, State.setIdx_collab, Collab.write_of_error h row hs,
    Answer.toRun, Run.bind_raised, State.setIdx_idx]

/-- One card taken by an answer of the script: it stands after what the destination held. -/
theorem writeCards_answered_card (left i : Nat) {row : Row} {written : List Row} {later : List Reply}
    (hs : s.collab.script = .usual :: later) (hw : lookupKey h s.collab.writers = some name)
    (hf : s.collab.fileOf name = some written) (hr : s.readCard i = some row) :
    ∃ c, writeCards h name (left + 1) i s
        = writeCards h name left (i + 1) ((s.setIdx (BitVec.ofNat 14 i)).setCollab c) ∧
      c.script = later ∧ lookupKey h c.writers = some name ∧ c.fileOf name = some (written ++ [row]) := by
  obtain ⟨hwriters, hscript⟩ := (s.collab.note (.write h row) true).append_writers_script h row
  refine ⟨(s.collab.note (.write h row) true).append h row, ?_, hscript.trans (congrArg List.tail hs),
    hwriters ▸ hw, Collab.append_fileOf h name row hw hf⟩
  simp only [writeCards, readCard_setIdx, hr, writeRow, State.setIdx_collab, Collab.write_of_usual h row hs,
    Answer.toRun, Run.bind_done]

end Writing

/-- A run of cards so taken: the destination holds them after what it held, and the rest of the script still
answers. -/
theorem writeCards_answered_cards (h : Nat) (name : Text) (left : Nat) {later : List Reply} (rows : List Row)
    (written : List Row) (i : Nat) (s : State)
    (hs : s.collab.script = List.replicate rows.length .usual ++ later)
    (hw : lookupKey h s.collab.writers = some name) (hf : s.collab.fileOf name = some written)
    (hr : ∀ j, j < rows.length → s.readCard (i + j) = rows[j]?) :
    ∃ idx c, writeCards h name (rows.length + left) i s
        = writeCards h name left (i + rows.length) ((s.setIdx idx).setCollab c) ∧
      c.script = later ∧ c.fileOf name = some (written ++ rows) := by
  induction rows generalizing written i s with
  | nil => exact ⟨s.idx, s.collab, by rw [List.length_nil, Nat.zero_add]; rfl, hs, by rw [hf, List.append_nil]⟩
  | cons row rows ih =>
    have hfirst : s.readCard i = some row := hr 0 (by simp)
    have hrest : ∀ j, j < rows.length → s.readCard (i + 1 + j) = rows[j]? := fun j hj => by
      rw [Nat.add_assoc, Nat.add_comm 1 j]
      exact hr (j + 1) (by simpa using hj)
    obtain ⟨c, hstep, hs', hw', hf'⟩ := writeCards_answered_card h name (rows.length + left) i hs hw hf hfirst
    obtain ⟨idx, c', hloop, hscript, hfile⟩ := ih (written ++ [row]) (i + 1)
      ((s.setIdx (BitVec.ofNat 14 i)).setCollab c) hs' hw' hf' hrest
    refine ⟨idx, c', ?_, hscript, by rw [hfile, List.append_assoc]; rfl⟩
    rw [List.length_cons, Nat.add_right_comm, hstep, hloop, Nat.add_assoc, Nat.add_comm 1]
    rfl

/-- Saving a range whose `k`-th write is answered with an error: the card's index is reported, with the handle still
open and the rows before it written (60_exceptions.md R153, 70_reset_and_hazards.md R173). -/
theorem saveDeck_write_error {s : State} {rows : List Row} (hrows : s.HoldsRows rows) (name : Text)
    {start n k : Nat} {e : CollabErr} {later : List Reply} (hh : s.openHandles = [])
    (hs : s.collab.script = List.replicate (1 + k) .usual ++ .error e :: later)
    (hrange : start + n ≤ rows.length) (hk : k < n) :
    ∃ idx c, saveDeck name start n s = .raised
        ⟨.ioError .writing e, some name, some (BitVec.ofNat 14 (start + k))⟩
        { s with idx := idx, openHandles := [s.collab.nextHandle], collab := c } ∧
      c.script = later ∧ c.fileOf name = some ((rows.drop start).take k) := by
  rw [Nat.add_comm, List.replicate_succ, List.cons_append] at hs
  obtain ⟨opened, hopened⟩ : ∃ t, t = { s with
      openHandles := [s.collab.nextHandle],
      collab := (s.collab.note (.openWrite name) true).grantWriter name } := ⟨_, rfl⟩
  have hopen : openWrite name s = .done s.collab.nextHandle opened := by
    rw [openWrite, Collab.openWrite_of_usual name hs, hopened]
    simp only [Answer.toRun, Run.bind_done, State.addHandle, State.setCollab, hh, List.nil_append]
  have hholds : opened.HoldsRows rows := hrows.congr (by rw [hopened]) (by rw [hopened])
  have hlen : ((rows.drop start).take k).length = k := by simp; omega
  obtain ⟨left, hleft⟩ : ∃ left, n = ((rows.drop start).take k).length + (left + 1) := ⟨n - k - 1, by omega⟩
  obtain ⟨row, hrow⟩ : ∃ row, opened.readCard (start + k) = some row :=
    ⟨rows[start + k], by rw [hholds.cards, List.getElem?_eq_getElem]⟩
  obtain ⟨idx, c, hloop, hscript, hfile⟩ := writeCards_answered_cards s.collab.nextHandle name (left + 1)
    (later := .error e :: later) ((rows.drop start).take k) [] start opened
    (by rw [hopened, hlen]; exact congrArg List.tail hs)
    (by rw [hopened]; exact lookupKey_setKey_same ..) (by rw [hopened]; exact lookupKey_setKey_same ..)
    fun j hj => by rw [hholds.cards, List.getElem?_take_of_lt (by omega), List.getElem?_drop]
  refine ⟨BitVec.ofNat 14 (start + k), c.note (.write s.collab.nextHandle row) false, ?_,
    congrArg List.tail hscript, hfile⟩
  have hfits : ¬ opened.count.toNat < start + n := by rw [hholds.count]; omega
  have hwrite := writeCards_write_error s.collab.nextHandle name (s := (opened.setIdx idx).setCollab c) left (start + k)
    hscript hrow
  rw [saveDeck, hopen, Run.bind_done, saveRows, if_neg hfits, hleft, hloop, hlen, hwrite, Run.bind_raised, hopened]
  rfl

/-- Settles O44: the rows before the error stay in the destination, which the abort sequence releases. -/
theorem saveWriteErrorKeepsPartialOutput : Obligations.SaveWriteErrorKeepsPartialOutput := by
  intro s name start n k e rest hhandles hpopulated _ hmode hscript hsilent hrange hk
  obtain ⟨rows, hrows⟩ := hpopulated.exists_holdsRows
  rw [hrows.count] at hrange
  obtain ⟨idx, c, hsave, hlater, hfile⟩ := saveDeck_write_error hrows name hhandles hscript hrange hk
  have hfits : ¬ s.count.toNat < start + n := by rw [hrows.count]; omega
  have hexec : exec (.save name start n) s = _ :=
    (if_neg (not_saveRefused (.inr hmode))).trans (if_neg hfits)
  rw [hsave, Run.bind_raised, conclude_raised] at hexec
  obtain ⟨c', hfiles, hend⟩ := next_of_abort_one_handle hexec rfl (by rwa [hlater]) (by simp)
  refine ⟨_, (rows.drop start).take k, hend, by simp; omega, fun j hj => ?_, ?_, ?_⟩
  · rw [hrows.cards, List.getElem?_take_of_lt hj, List.getElem?_drop]
  · rw [hhandles, hmode]
    rfl
  · rw [← hfile, Collab.fileOf, Collab.fileOf, ← hfiles]
    rfl

end Sys2Proof.Machine
end

section
/-! LOAD and SAVE where the first collaborator call is never answered (spec/70_reset_and_hazards.md R175,
spec/93_implementation_defined.md U11; log entry 8). The opening call is the first call of each, so the operation
halts there: no abort sequence runs and there is no next state. -/

namespace Sys2Proof.Machine

section Silence
variable {rest : List Reply}

theorem Collab.openRead_of_silent {c : Collab} (name : Text) (hs : c.script = .silent :: rest) :
    c.openRead name = .silent := by
  simp [Collab.openRead, Collab.nextReply, hs]

theorem Collab.openWrite_of_silent {c : Collab} (name : Text) (hs : c.script = .silent :: rest) :
    c.openWrite name = .silent := by
  simp [Collab.openWrite, Collab.nextReply, hs]

/-- A load whose source is never opened (43_deckstore.md R122): what it writes before leaves the script alone. -/
theorem loadDeck_of_silent (name : Text) (mode : Mode) {s : State} (hs : s.collab.script = .silent :: rest) :
    loadDeck name mode s = .halted .collaboratorSilent := by
  obtain ⟨m, hbegin⟩ := exists_beginLoad_eq mode s
  rw [loadDeck, hbegin, openRead, Collab.openRead_of_silent name hs]
  rfl

/-- A save whose destination is never opened (43_deckstore.md R123). -/
theorem saveDeck_of_silent (name : Text) (start count : Nat) {s : State} (hs : s.collab.script = .silent :: rest) :
    saveDeck name start count s = .halted .collaboratorSilent := by
  rw [saveDeck, openWrite, Collab.openWrite_of_silent name hs]
  rfl

end Silence

/-- Settles O50: past the tests made before any call, each operation halts as it opens its file. -/
theorem silentCollaboratorStops : Obligations.SilentCollaboratorStops := by
  intro s name rest hscript
  refine ⟨fun m hadmissible => ?_, fun start n hraw hrange => ?_⟩
  · have hexec : exec (.load name m) s = (loadDeck name m s).conclude :=
      if_neg fun ⟨hphase, hne⟩ => hne (hadmissible hphase)
    rw [hexec, loadDeck_of_silent name m hscript, conclude_halted]
  · have hexec : exec (.save name start n) s = _ :=
      (if_neg (not_saveRefused (.inr hraw))).trans (if_neg (Nat.not_lt.mpr hrange))
    rw [hexec, saveDeck_of_silent name start n hscript, Run.bind_halted, conclude_halted]

end Sys2Proof.Machine
end

section
/-! Target words (spec/30_encoding.md R47, R64, R65; log entry 1): the decoder's table and the meanings of the rows
agree on the opcode, so a word is translated the same whether the table lists it or not. -/

namespace Sys2Proof.Machine

/-- The table lists two-digit opcodes only (30_encoding.md R64). -/
theorem targetRow_lt {op : Nat} {sg : Sign} {da ia : Nat} {i : Instr} (h : targetRow op sg da ia = some i) :
    op < 100 := by
  unfold targetRow at h
  split at h <;> simp at h ⊢

/-- Translating the word of three fields in range answers those fields (42_instructioncodec.md R102, R104). -/
theorem translateTarget_eq {op da ia : Nat} (hop : op < 100) (hda : da < 10000) (hia : ia < 10000) (sg : Sign)
    (s : State) :
    translateTarget op sg da ia s = .next (s.withResult (.translated ⟨lookupTag s.config op, op, da, ia⟩
      (readsOperandOf s.config op))) := by
  obtain ⟨hw, hopcode, hdata, hinstr⟩ := packFields_spec op da ia sg
  rw [Nat.mod_eq_of_lt hop] at hopcode
  rw [Nat.mod_eq_of_lt hda] at hdata
  rw [Nat.mod_eq_of_lt hia] at hinstr
  rw [translateTarget, translateWord_eq _ hw, hopcode, hdata, hinstr]
  rfl

/-- A well-formed target word is served by translating it: a row of the table by its own meaning, any other word
as data (30_encoding.md R65). -/
theorem serve_target {w : Word} (hw : w.WellFormed) (s : State) :
    serve (.target (encodeWord w)) s = translateWord w s := by
  have hdecode : decode (.target (encodeWord w)) = _ := decodeTarget_encodeWord w hw
  cases hrow : targetRow (w.mag / 10 ^ 8) w.sign (w.mag / 10 ^ 4 % 10 ^ 4) (w.mag % 10 ^ 4) with
  | some i =>
    rw [hrow] at hdecode
    rw [serve_ok _ i s hdecode, afterServing, exec_targetRow _ _ _ _ i s hrow, translateTarget, packFields_fields w hw]
  | none =>
    rw [hrow] at hdecode
    rw [serve_error _ _ s hdecode]
    rfl

/-- Settles O31: each pair of the list is a row of the decoder's table, which is compared with it row by row. -/
theorem targetWordsTranslated : Obligations.TargetWordsTranslated := by
  intro s sg da ia hda hia p hp
  have hrow : targetRow p.1 sg da ia = some p.2 :=
    List.map_inj_left (f := fun p => targetRow p.1 sg da ia) (g := fun p => some p.2) |>.mp rfl p hp
  rw [exec_targetRow p.1 sg da ia p.2 s hrow, translateTarget_eq (targetRow_lt hrow) hda hia]

/-- Settles O32: the step serves the word, and what translating it answers is one law for every opcode. -/
theorem everyTargetWordTranslates : Obligations.EveryTargetWordTranslates := by
  intro s rest w hw hpending
  rw [step_request s _ rest hpending, serve_target hw, translateWord_eq w hw]
  rfl

end Sys2Proof.Machine
end
